-- ==== Sys2Proof/Word.lean ====
section
/-! DEFINITION. The widths of the block (00_scope.md R7, 10_state.md R22, R25, R35, R37, R44) and the
256-entry register file that `FREQ` and `CODE` share. All numbers are unsigned (R9) and bit 0 is the
least significant bit (R8). -/

namespace Sys2Proof

/-- A symbol, a byte of a memory, a command word (`SYMW`, R7; R100). -/
abbrev Byte := BitVec 8

/-- An address of `IN` or `OUT`, a length or a cursor (`LENW`, R7, R70). -/
abbrev Addr := BitVec 64

/-- A frequency count or a node weight (`CNTW`, R7). -/
abbrev Count := BitVec 64

/-- An index of the node arena (R37). -/
abbrev NodeIx := BitVec 17

/-- A child link or the root: an index, or `NULL` (R41: "a model should use an option type"). -/
abbrev Link := Option NodeIx

/-- A bit string in path order: the first element is the edge leaving the root (R11), `false` for
bit 0 = left and `true` for bit 1 = right. The empty list is "no code" (`len` = 0, R35). -/
abbrev Code := List Bool

/-- A register file of 256 entries indexed by a byte value (`FREQ`, R34; `CODE`, R35). -/
structure Table (α : Type) where
  cells : List α
  size  : cells.length = 256
  deriving DecidableEq, Repr

/-- Every entry holds `x`. -/
def Table.const {α : Type} (x : α) : Table α := ⟨List.replicate 256 x, List.length_replicate⟩

/-- The 256 byte values in ascending order: the range of `for b = 0 .. 255` (R10). -/
def allBytes : List Byte := (List.range 256).map (BitVec.ofNat 8)

end Sys2Proof
end

