-- ==== Sys2Proof/Syntax.lean ====
section
/-! DEFINITION. The ten commands (30_encoding.md R101, spec/opcode_table.json). A command word carries
no operand and no immediate (R102), so every constructor is a constant. -/

namespace Sys2Proof

/-- One constructor per row of the command table (R101). -/
inductive Instr where
  /-- `huffman_freq_scanner`, word 0x01 (R141). -/
  | fscan
  /-- `huffman_tree_builder`, word 0x02 (R161). -/
  | tbuild
  /-- `code_table_deriver`, word 0x03 (R191). -/
  | cderive
  /-- `huffman_header_packer`, word 0x04 (R211). -/
  | hpack
  /-- `huffman_header_unpacker`, word 0x05 (R231). -/
  | hunpack
  /-- `huffman_bit_packer`, word 0x06 (R261). -/
  | bpack
  /-- `huffman_bit_unpacker`, word 0x07 (R281). -/
  | bunpack
  /-- FSCAN, TBUILD, CDERIVE, HPACK, BPACK in that order, word 0x08 (R310). -/
  | compress
  /-- HUNPACK, BUNPACK in that order, word 0x09 (R311). -/
  | decompress
  /-- Back to the reset state, word 0x0A (R312). -/
  | clear
  deriving DecidableEq, Repr

/-- All ten, in the order of the table. -/
def Instr.all : List Instr :=
  [.fscan, .tbuild, .cderive, .hpack, .hunpack, .bpack, .bunpack, .compress, .decompress, .clear]

end Sys2Proof
end

