-- ==== Sys2Proof/WellFormed.lean ====
section
/-! DEFINITION. Well-formedness. A command has no operand (R102), so what can be ill formed is the
word the host writes (30_encoding.md R100, R103), and a table term whose number of entries is not
the register file's. -/

namespace Sys2Proof

/-- The field `zero`, bits 7:4 of a command word (R100). -/
def zeroField (w : Byte) : BitVec 4 := w.extractLsb' 4 4

/-- The field `op`, bits 3:0 of a command word (R100). -/
def opField (w : Byte) : BitVec 4 := w.extractLsb' 0 4

/-- "A word is legal exactly when `word[7:4] = 0` and `word[3:0]` is in 1 to 10" (R103). -/
def legalWord (w : Byte) : Bool :=
  zeroField w == 0 && decide (1 ≤ (opField w).toNat) && decide ((opField w).toNat ≤ 10)

/-- The operation number of a command (R101, column `op`). -/
def Instr.op : Instr → BitVec 4
  | .fscan => 1
  | .tbuild => 2
  | .cderive => 3
  | .hpack => 4
  | .hunpack => 5
  | .bpack => 6
  | .bunpack => 7
  | .compress => 8
  | .decompress => 9
  | .clear => 10

/-- A command is well formed when its word is legal. It has no operand that could be out of range
(R102), so this holds of all ten. -/
def Instr.wellFormed (i : Instr) : Bool := legalWord ((0 : BitVec 4) ++ i.op)

/-- A code fits its table entry: `len` is 8 bits and `bits` 255 (R35). -/
def Code.wellFormed (c : Code) : Bool := decide (c.length ≤ 255)

end Sys2Proof
end

