-- ==== Sys2Proof/Decode.lean ====
section
/-! DEFINITION. Decoding a command word (30_encoding.md R100 to R104): total on the 256 words, the 246
illegal ones rejected by name; and the encoder, from the table of R101. -/

namespace Sys2Proof

/-- Why a word is no command (R103). -/
inductive DecodeError where
  /-- `word[7:4]` is not 0. -/
  | zeroFieldNotZero
  /-- `word[7:4]` is 0 and `op` is 0x0 or 0xB to 0xF. -/
  | opNotAssigned
  deriving DecidableEq, Repr

/-- The command of an `op` number (R101). -/
def decodeOp (op : BitVec 4) : Except DecodeError Instr :=
  match op.toNat with
  | 1 => .ok .fscan
  | 2 => .ok .tbuild
  | 3 => .ok .cderive
  | 4 => .ok .hpack
  | 5 => .ok .hunpack
  | 6 => .ok .bpack
  | 7 => .ok .bunpack
  | 8 => .ok .compress
  | 9 => .ok .decompress
  | 10 => .ok .clear
  | _ => .error .opNotAssigned

/-- "Every 8-bit word is either one of the ten commands or illegal" (R104). -/
def decode (w : Byte) : Except DecodeError Instr :=
  if zeroField w = 0 then decodeOp (opField w) else .error .zeroFieldNotZero

/-- The word of a command, from the column `word` of R101. -/
def encode : Instr → Byte
  | .fscan => 0x01
  | .tbuild => 0x02
  | .cderive => 0x03
  | .hpack => 0x04
  | .hunpack => 0x05
  | .bpack => 0x06
  | .bunpack => 0x07
  | .compress => 0x08
  | .decompress => 0x09
  | .clear => 0x0A

/-- The word's lowest `nbits` bits as a command word: a command is one byte (R100), so bits above
bit 7 belong to no field. -/
def tableWord (nbits w : Nat) : Byte := BitVec.ofNat 8 (w % 2 ^ nbits)

/-- The command the decoder reads from an opcode-table word. -/
def decodeTableWord (nbits w : Nat) : Option Instr :=
  match decode (tableWord nbits w) with
  | .ok i => some i
  | .error _ => none

end Sys2Proof
end

