-- ==== Sys2Proof/Config.lean ====
section
/-! DEFINITION. What an implementation fixes (00_scope.md R7): the constants, and the two open
parameters `OUT_CAP` and `IN_ERR` with the defaults the spec names. -/

namespace Sys2Proof

/-- `NODE_CAP`, the number of entries of the node arena (R7, R37, R40). -/
def Config.nodeCap : Nat := 65281

/-- The bit pattern of `NULL` in `ROOT`, `left` and `right` (R41). -/
def Config.nullBits : NodeIx := 0x1FFFF

/-- ASCII `'0'` (R12). -/
def Config.ch0 : Byte := 0x30

/-- ASCII `'1'` (R12). -/
def Config.ch1 : Byte := 0x31

/-- DESIGN CHOICE (log entry 1; unsafe): what a byte of `IN` or `OUT` that nothing has written reads
as. The spec leaves the memories unspecified at power-up (R46, U11). -/
def Config.unwritten : Byte := 0

/-- The open parameters of the block (R7, R20: "parameters of the step function, not state"). The
model carries them beside the state so that a claim about every state is a claim about every
parameter value (DESIGN CHOICE, log entry 2; safe). No step changes them. -/
structure Params where
  /-- `OUT_CAP`, the capacity of `OUT` in bytes (R7, D6). -/
  outCap : Addr
  /-- `IN_ERR`, the input read-error oracle (R7, D7), as the list of the addresses it is true of. -/
  inErr  : List Addr
  deriving DecidableEq, Repr

/-- The defaults of R7: `OUT_CAP` = 2^64 - 1, `IN_ERR` constantly false. -/
def Params.default : Params := { outCap := BitVec.allOnes 64, inErr := [] }

/-- `IN_ERR(a)`. -/
def Params.readFails (p : Params) (a : Addr) : Bool := p.inErr.contains a

end Sys2Proof
end

