-- ==== Sys2Proof/Machine/HostMoves.lean ====
section
/-! DEFINITION. What the host can do to the block (70_reset_and_hazards.md R395; the script notation of
30_encoding.md R105). The moves still to come are a list in State that the step reads. -/

namespace Sys2Proof.Machine

/-- What the host can read (10_state.md R21, R22, R25, R34 to R44; 20_memory.md R70). -/
inductive HostPort where
  | cmd | status | faultInfo | faultUnit | busy | phase | valid
  | inLen | inPtr | outLen | alpha | root | nodeCount | totalBits | padding
  | hdrLen | payLen | symCount
  | pkAcc | pkPos | upCur | upPos | upByte | listLen | huCount
  | freq (b : Byte)
  | codeLen (b : Byte) | codeBits (b : Byte)
  | nodeKind (i : NodeIx) | nodeLeft (i : NodeIx) | nodeRight (i : NodeIx)
  | nodeSym (i : NodeIx) | nodeWeight (i : NodeIx)
  | listEntry (i : Byte)
  | inByte (a : Addr) | outByte (a : Addr)
  deriving DecidableEq, Repr

/-- One host move (R395). -/
inductive HostMove where
  /-- Write one byte of `IN`; a `LOAD IN` line of R105 is one such move per byte. -/
  | writeIn (a : Addr) (v : Byte)
  /-- Write `IN_LEN` (R23), a `SET IN_LEN` line. -/
  | writeInLen (n : Addr)
  /-- Write a command word to `CMD` (R300). -/
  | writeCmd (w : Byte)
  /-- Read a register, a register file element or a byte; no effect on the block (R395). -/
  | read (p : HostPort)
  /-- A hardware reset between commands (R380). -/
  | hardReset
  /-- A hardware reset while the command `w` executes (R382), arriving when `OUT_LEN` has reached
  `cut`: the command is abandoned and only its `OUT` bytes below `cut` were written. -/
  | resetDuring (w : Byte) (cut : Addr)
  deriving DecidableEq, Repr

/-- What a host read gives. -/
inductive ReadResult where
  /-- The value, as a whole unsigned number (R74). -/
  | value (n : Nat)
  /-- The spec promises no value: U6 (after a fault), U7 (`NODE`, `LIST` above their counts), U11
  (`OUT` at or above `OUT_LEN`, or without a flag that vouches for it). -/
  | unspecified
  /-- The host may not read now (`BUSY` = 1, R21), or there is no such element. -/
  | noRead
  deriving DecidableEq, Repr

end Sys2Proof.Machine
end

