-- ==== Sys2Proof/Machine/State.lean ====
section
/-! DEFINITION. The state of the block (10_state.md), plain data, and its value after reset (R46). -/

namespace Sys2Proof.Machine

/-- A byte memory: the cells that differ from `Config.unwritten`, addresses strictly rising. -/
abbrev Memory := List Host.Cell

/-- The unit now executing: the register `PHASE` (R27). The values 8 to 15 are never taken (U13). -/
inductive Phase where
  | idle
  | freqScanner
  | treeBuilder
  | codeDeriver
  | headerPacker
  | headerUnpacker
  | bitPacker
  | bitUnpacker
  deriving DecidableEq, Repr

/-- The six fault causes (60_exceptions.md R341). A fault of the block is a NEXT state, not a stop of
the model. -/
inductive Cause where
  | inputFault
  | outputFault
  | corruptArchive
  | sequenceFault
  | illegalCommand
  | missingCode
  deriving DecidableEq, Repr

/-- The seven flags of `VALID` (R31), bit 0 first. -/
structure Valid where
  freq : Bool
  tree : Bool
  code : Bool
  hdrw : Bool
  hdrr : Bool
  cout : Bool
  dout : Bool
  deriving DecidableEq, Repr

/-- All seven flags clear. -/
def Valid.allClear : Valid := ⟨false, false, false, false, false, false, false⟩

/-- The field `kind` of a node (R37). -/
inductive NodeKind where
  | leaf
  | internal
  deriving DecidableEq, Repr

/-- An entry of the node arena (R37). -/
structure Node where
  kind   : NodeKind
  left   : Link
  right  : Link
  sym    : Byte
  weight : Count
  deriving DecidableEq, Repr

/-- Why the MODEL stops. Neither can happen in a state that satisfies `Safety.ArenaOk`, which every
step keeps (log entry 3; safe: the hardware has no such state). -/
inductive Fault where
  /-- Raised by CDERIVE, HUNPACK and BUNPACK when a `NULL` or dangling link is followed where the
  pseudocode reads `NODE[i]`: `i` is at or above `NODE_COUNT`, where no rule reads (R37, U7). Safe. -/
  | noSuchNode
  /-- Raised by CDERIVE when a path is longer than the arena, so the links form a cycle and the
  pseudocode's walk (R192) would not end. Safe. -/
  | walkDoesNotEnd
  deriving DecidableEq, Repr

/-- Why the model gives no transition. -/
inductive Refusal where
  /-- Raised by `exec`'s arm of an instruction without a meaning; no arm is left. Safe. -/
  | notModelled (mnemonic : String)
  /-- Raised by every host move but a hardware reset while `BUSY` = 1: "any write while `BUSY = 1` must
  not, not modelled" (R395, U8: "refuse"). Safe. -/
  | hostActsWhileBusy
  deriving DecidableEq, Repr

/-- The state of the block, its two memories, its open parameters and the host's moves to come. -/
structure State where
  /-- `IN_LEN` (R22, R23), written by the host only. -/
  inLen     : Addr
  /-- `IN_PTR`, the address of the next input byte (R22). -/
  inPtr     : Addr
  /-- `OUT_LEN`, bytes written to `OUT`, also the next write address (R22). -/
  outLen    : Addr
  /-- `ALPHA`, the alphabet size (R22). -/
  alpha     : BitVec 9
  /-- `ROOT` (R22, R41). -/
  root      : Link
  /-- `NODE_COUNT`, allocated entries of `NODE` (R22). -/
  nodeCount : BitVec 17
  /-- `TOTAL_BITS` (R22, R197). -/
  totalBits : BitVec 72
  /-- `PADDING` (R22). -/
  padding   : BitVec 3
  /-- `HDR_LEN` (R22). -/
  hdrLen    : Addr
  /-- `PAY_LEN` (R22). -/
  payLen    : Addr
  /-- `SYM_COUNT`, modulo 2^64 (R22, R24). -/
  symCount  : BitVec 64
  /-- `STATUS` (R25, R341): `none` is code 0. -/
  status    : Option Cause
  /-- `FAULT_INFO` (R25). -/
  faultInfo : BitVec 64
  /-- `FAULT_UNIT` (R25): the value of `PHASE` when the fault was raised. -/
  faultUnit : Phase
  /-- `BUSY` (R25, R302). -/
  busy      : Bool
  /-- `PHASE` (R25, R27). -/
  phase     : Phase
  /-- `VALID` (R25, R31). -/
  valid     : Valid
  /-- `FREQ` (R34). -/
  freq      : Table Count
  /-- `CODE` (R35). -/
  code      : Table Code
  /-- `NODE` (R37): entries 0 to `NODE_COUNT` - 1; nothing stands at or above `NODE_COUNT` (U7). -/
  node      : List Node
  /-- `LIST` (R42): entries 0 to `LIST_LEN` - 1; nothing stands at or above `LIST_LEN` (U7). -/
  list      : List NodeIx
  /-- `LIST_LEN` (R42, R44). -/
  listLen   : BitVec 9
  /-- `PK_ACC` (R44). -/
  pkAcc     : Byte
  /-- `PK_POS` (R44). -/
  pkPos     : BitVec 3
  /-- `UP_CUR` (R44). -/
  upCur     : Link
  /-- `UP_POS` (R44). -/
  upPos     : BitVec 3
  /-- `UP_BYTE` (R44). -/
  upByte    : Byte
  /-- `HU_COUNT` (R44). -/
  huCount   : BitVec 9
  /-- The input space `IN` (20_memory.md R70). -/
  inMem     : Memory
  /-- The output space `OUT` (20_memory.md R70). -/
  outMem    : Memory
  /-- The open parameters `OUT_CAP` and `IN_ERR` (R7); the model's own field (log entry 2). -/
  params    : Params
  /-- The host's moves to come, first to happen first; the model's own field (log entry 4). -/
  host      : List HostMove
  deriving DecidableEq, Repr

/-- The reset values of R46. The memories list nothing, the parameters are at their defaults (R7), and
the host has asked for nothing (R381: "the block does nothing until the host writes `CMD`"). -/
def State.reset : State where
  inLen     := 0
  inPtr     := 0
  outLen    := 0
  alpha     := 0
  root      := none
  nodeCount := 0
  totalBits := 0
  padding   := 0
  hdrLen    := 0
  payLen    := 0
  symCount  := 0
  status    := none
  faultInfo := 0
  faultUnit := .idle
  busy      := false
  phase     := .idle
  valid     := Valid.allClear
  freq      := Table.const 0
  code      := Table.const []
  node      := []
  list      := []
  listLen   := 0
  pkAcc     := 0
  pkPos     := 7
  upCur     := none
  upPos     := 7
  upByte    := 0
  huCount   := 0
  inMem     := []
  outMem    := []
  params    := Params.default
  host      := []

end Sys2Proof.Machine
end

