-- ==== Sys2Proof/Machine/Ops.lean ====
section
/-! DEFINITION. The shared operations: byte memories, the register file, one run of a unit, the bounded
loops of the pseudocode, taking a fault (60_exceptions.md R350) and the return from it (47_sequencer.md
R312), and the acceptance of a command (R300). -/

namespace Sys2Proof

/-- `x[b]` of R10. -/
def Table.get {α : Type} (t : Table α) (b : Byte) : α :=
  t.cells[b.toNat]'(by have h := t.size; have := b.isLt; omega)

/-- `x[b] <- v` of R10. -/
def Table.set {α : Type} (t : Table α) (b : Byte) (v : α) : Table α :=
  ⟨t.cells.set b.toNat v, by rw [List.length_set, t.size]⟩

/-- The entries with their indices, ascending: what `for b = 0 .. 255` reads from `x[b]` (R10). -/
def Table.entries {α : Type} (t : Table α) : List (Byte × α) := allBytes.zip t.cells

namespace Machine

/-- The canonical form: addresses strictly rising and below 2^64 (R70), no listed byte equal to what an
unlisted address reads as. -/
abbrev Memory.wf (m : Memory) : Prop :=
  m.Pairwise (fun c d => c.1 < d.1) ∧ ∀ c ∈ m, c.1 < 2 ^ 64 ∧ c.2 ≠ Config.unwritten

/-- The byte at address `a`: `MemRead` of R10, always one byte (R78). -/
def Memory.read (a : Nat) : Memory → Byte
  | [] => Config.unwritten
  | (b, w) :: m => if b = a then w else Memory.read a m

/-- A cell in front of a memory, left out when it holds what an unlisted address reads as. -/
def Memory.cons (a : Nat) (v : Byte) (m : Memory) : Memory :=
  if v = Config.unwritten then m else (a, v) :: m

/-- Store byte `v` at address `a`: `MemWrite` of R10, always one byte (R78). -/
def Memory.write (a : Nat) (v : Byte) : Memory → Memory
  | [] => Memory.cons a v []
  | (b, w) :: m =>
    if a < b then Memory.cons a v ((b, w) :: m)
    else if a = b then Memory.cons a v m
    else (b, w) :: Memory.write a v m

/-- What a part of a unit comes to: it goes on with a result, a fault of the block has ended the command
(the state is the one after fault entry), or the model stops. -/
inductive Run (α : Type) where
  | ok (a : α) (s : State)
  | raised (s : State)
  | stuck (f : Fault)
  deriving DecidableEq, Repr

/-- "The pseudocode is sequential; a line finishes before the next starts" (R10). -/
def Run.andThen {α β : Type} : Run α → (α → State → Run β) → Run β
  | .ok a s, k => k a s
  | .raised s, _ => .raised s
  | .stuck f, _ => .stuck f

/-- `for x in xs`, in the order of the list (R10). -/
def forEach {α : Type} (body : α → State → Run Unit) : List α → State → Run Unit
  | [], s => .ok () s
  | x :: xs, s => (body x s).andThen fun _ s => forEach body xs s

/-- `n` iterations of `for a = first .. first + n - 1` over addresses (R10). -/
def forAddr (body : Addr → State → Run Unit) : Nat → Addr → State → Run Unit
  | 0, _, s => .ok () s
  | n + 1, a, s => (body a s).andThen fun _ s => forAddr body n (a + 1) s

/-- Taking a fault, R350: `STATUS` gets the cause, `FAULT_INFO` the recorded value, `FAULT_UNIT` the
value of `PHASE`; all seven flags are cleared, `PHASE` and `BUSY` become 0. "No other register is
changed by the entry itself"; there is no handler, no vector and no saved return address. -/
def State.enterFault (c : Cause) (info : BitVec 64) (s : State) : State :=
  { s with
    status := some c, faultInfo := info, faultUnit := s.phase
    valid := Valid.allClear, phase := .idle, busy := false }

/-- `raise F(info)` (R10): fault entry ends the command and the composite it is part of. -/
def raise {α : Type} (c : Cause) (info : BitVec 64) (s : State) : Run α :=
  .raised (s.enterFault c info)

/-- The return from the faulted state, R312, R352, and the hardware reset, R380: every register, flag
and register file takes its reset value (R46). "The memories `IN` and `OUT` are not touched"; the open
parameters and the host's moves are no state of the block. -/
def State.cleared (s : State) : State :=
  { State.reset with inMem := s.inMem, outMem := s.outMem, params := s.params, host := s.host }

/-- A unit starts: `PHASE` names it (R27). -/
def State.startUnit (p : Phase) (s : State) : State := { s with phase := p }

/-- A unit ends: its flags, then `PHASE <- 0` (R27, R32). -/
def State.endUnit (v : Valid) (s : State) : State := { s with valid := v, phase := .idle }

/-- A prerequisite of R32, checked as a unit's first step: `SequenceFault` with the unit's command word
(R345) when it does not hold. -/
def require {α : Type} (met : Bool) (word : Byte) (s : State) (k : State → Run α) : Run α :=
  match met with
  | true => k s
  | false => raise .sequenceFault (word.setWidth 64) s

/-- The end of a command, R300 step 5: `BUSY <- 0`; with or without a fault the state is a next state. -/
def Run.finish : Run Unit → Host.Outcome State Fault Refusal
  | .ok _ s => .next { s with busy := false }
  | .raised s => .next s
  | .stuck f => .fault f

/-- Acceptance of a legal word other than `CLEAR`, R300: a host error while `BUSY` = 1 (step 1), ignored
in the faulted state (step 3, R301), run otherwise (step 5). -/
def accept (unit : State → Run Unit) (s : State) : Host.Outcome State Fault Refusal :=
  match s.busy, s.status with
  | true, _ => .refused .hostActsWhileBusy
  | false, some _ => .next s
  | false, none => (unit { s with busy := true }).finish

end Machine

end Sys2Proof
end

