-- ==== Sys2Proof/Machine/Flags.lean ====
section
/-! DEFINITION. The validity flags and their discipline (10_state.md R31, R32); the numbers of `STATUS`,
`PHASE` and `VALID`. The block has no arithmetic condition codes (R29). -/

namespace Sys2Proof.Machine

/-- The code of a fault in `STATUS` (R341). -/
def Cause.code : Cause → BitVec 3
  | .inputFault => 1
  | .outputFault => 2
  | .corruptArchive => 3
  | .sequenceFault => 4
  | .illegalCommand => 5
  | .missingCode => 6

/-- `STATUS` as the host reads it (R25, R341). -/
def State.statusWord (s : State) : BitVec 3 :=
  match s.status with
  | none => 0
  | some c => c.code

/-- The number of a unit in `PHASE` and `FAULT_UNIT` (R27). -/
def Phase.code : Phase → BitVec 4
  | .idle => 0
  | .freqScanner => 1
  | .treeBuilder => 2
  | .codeDeriver => 3
  | .headerPacker => 4
  | .headerUnpacker => 5
  | .bitPacker => 6
  | .bitUnpacker => 7

/-- `VALID` as the host reads it (R31): bit 0 is `V_FREQ`, bit 6 is `V_DOUT`. -/
def Valid.word (v : Valid) : BitVec 7 :=
  BitVec.ofBool v.dout ++ BitVec.ofBool v.cout ++ BitVec.ofBool v.hdrr ++ BitVec.ofBool v.hdrw ++
    BitVec.ofBool v.code ++ BitVec.ofBool v.tree ++ BitVec.ofBool v.freq

/-- TBUILD clears `V_TREE`, `V_CODE`, `V_HDRW`, `V_HDRR`, `V_COUT`, `V_DOUT` at start (R32). -/
def Valid.atTbuild (v : Valid) : Valid := { Valid.allClear with freq := v.freq }

/-- CDERIVE clears `V_CODE`, `V_HDRW`, `V_COUT`, `V_DOUT` at start (R32). -/
def Valid.atCderive (v : Valid) : Valid := { v with code := false, hdrw := false, cout := false, dout := false }

/-- HPACK clears `V_HDRW`, `V_COUT`, `V_DOUT` at start (R32). -/
def Valid.atHpack (v : Valid) : Valid := { v with hdrw := false, cout := false, dout := false }

/-- BPACK and BUNPACK clear `V_COUT`, `V_DOUT` at start (R32). -/
def Valid.atStream (v : Valid) : Valid := { v with cout := false, dout := false }

/-- `(8 - (total_bits mod 8)) mod 8` (R195), in 3 bits. -/
def paddingOf (total : BitVec 72) : BitVec 3 := BitVec.ofNat 3 ((8 - total.toNat % 8) % 8)

end Sys2Proof.Machine
end

