-- ==== Sys2Proof/Machine/Operands.lean ====
section
/-! DEFINITION. How the units reach their operands: the one addressing mode (a cursor with post-increment,
20_memory.md R79), the two access primitives (R76, R77), the node arena (10_state.md R37, R43), the work
list (R42) and the code table entry (R35). No command word carries an operand (R102). -/

namespace Sys2Proof.Machine

/-- `in_byte(a)`, R76: the bound first, then `IN_ERR`, then the read (R349 point 2). -/
def inByte (a : Addr) (s : State) : Run Byte :=
  if s.inLen ≤ a then
    match s.phase with
    | .headerUnpacker => raise .corruptArchive a s
    | _ => raise .inputFault a s
  else if s.params.readFails a then raise .inputFault a s
  else .ok (Memory.read a.toNat s.inMem) { s with inPtr := a + 1 }

/-- `emit(v)`, R77: `OutputFault` before the write when `OUT` is full. -/
def emit (v : Byte) (s : State) : Run Unit :=
  if s.params.outCap ≤ s.outLen then raise .outputFault s.outLen s
  else .ok () { s with outMem := Memory.write s.outLen.toNat v s.outMem, outLen := s.outLen + 1 }

/-- `NODE[i]` (R37). Nothing stands at or above `NODE_COUNT` (U7). -/
def State.nodeAt (s : State) (i : NodeIx) : Option Node := s.node[i.toNat]?

/-- `NODE_COUNT <- 0` (R43); the entries, all now at or above `NODE_COUNT`, are dropped (U7). -/
def State.dropNodes (s : State) : State := { s with node := [], nodeCount := 0 }

/-- `alloc(kind, left, right, sym, weight)`, R43. -/
def State.alloc (n : Node) (s : State) : NodeIx × State :=
  (s.nodeCount, { s with node := s.node ++ [n], nodeCount := s.nodeCount + 1 })

/-- `Internal(NULL, NULL, sym 0, weight 0)`, the node HUNPACK allocates for a path step (R234, R235). -/
def Node.bare : Node := { kind := .internal, left := none, right := none, sym := 0, weight := 0 }

/-- The leaf HUNPACK allocates (R235: weight 0). -/
def Node.bareLeaf (sym : Byte) : Node := { kind := .leaf, left := none, right := none, sym := sym, weight := 0 }

/-- The child an edge label selects: `left` on 0, `right` on 1 (R35). -/
def Node.child (n : Node) (bit : Bool) : Link := if bit then n.right else n.left

/-- A node with one child link replaced. -/
def Node.withChild (n : Node) (bit : Bool) (c : NodeIx) : Node :=
  if bit then { n with right := some c } else { n with left := some c }

/-- `NODE[i].left <- c` or `NODE[i].right <- c` (R37, in HUNPACK only). -/
def State.linkChild (i : NodeIx) (bit : Bool) (c : NodeIx) (s : State) : State :=
  { s with node := s.node.modify i.toNat (fun n => n.withChild bit c) }

/-- `LIST` and `LIST_LEN` together (R42). -/
def State.setList (l : List NodeIx) (s : State) : State :=
  { s with list := l, listLen := BitVec.ofNat 9 l.length }

/-- `CODE[b].len` (R35). -/
def Code.len (c : Code) : Byte := BitVec.ofNat 8 c.length

/-- `CODE[b].bits` as one number (R35): `bits[i]` is bit `i` of the code, bits at and above `len` are 0. -/
def Code.bits (c : Code) : BitVec 255 := BitVec.ofNat 255 (c.foldr (fun b n => 2 * n + b.toNat) 0)

/-- `acc[i] <- 1` (R263). -/
def setBit (acc : Byte) (i : BitVec 3) : Byte := acc ||| (1#8 <<< i.toNat)

/-- The bits of a payload byte that are read, most significant first: 7 down to `low` (R73, R284). -/
def bitsDownTo (low : Nat) : List Nat := (List.range (8 - low)).map (7 - ·)

end Sys2Proof.Machine
end

