-- ==== Sys2Proof/Machine/BitPacker.lean ====
section
/-! DEFINITION. `huffman_bit_packer` (45_bit_packer.md): the command BPACK. -/

namespace Sys2Proof.Machine

/-- `emit(PK_ACC) ; PAY_LEN <- PAY_LEN + 1 ; PK_ACC <- 0 ; PK_POS <- 7` (R263). -/
def flushByte (s : State) : Run Unit :=
  (emit s.pkAcc s).andThen fun _ s => .ok () { s with payLen := s.payLen + 1, pkAcc := 0, pkPos := 7 }

/-- One code bit into the accumulator, most significant bit first (R264, R73). -/
def packBit (bit : Bool) (s : State) : Run Unit :=
  let s := { s with pkAcc := if bit then setBit s.pkAcc s.pkPos else s.pkAcc }
  if s.pkPos = 0 then flushByte s else .ok () { s with pkPos := s.pkPos - 1 }

/-- One input byte: its code's bits in path order; `MissingCode` if it has none (R263, R268). -/
def packByte (a : Addr) (s : State) : Run Unit :=
  (inByte a s).andThen fun v s =>
    match s.code.get v with
    | [] => raise .missingCode a s
    | c => (forEach packBit c s).andThen fun _ s => .ok () { s with symCount := s.symCount + 1 }

/-- The flush: a partial byte is pending exactly when `PK_POS != 7` (R265). -/
def flushPartial (s : State) : Run Unit :=
  if s.pkPos = 7 then .ok () s else flushByte s

/-- The start of BPACK (R263). -/
def State.streamStart (s : State) : State :=
  { s with
    valid := s.valid.atStream, pkAcc := 0, pkPos := 7, symCount := 0, payLen := 0, inPtr := 0 }

/-- The prerequisite of BPACK: `V_CODE`, `V_HDRW` and `OUT_LEN = HDR_LEN` (R262). -/
def State.mayPack (s : State) : Bool :=
  s.valid.code && s.valid.hdrw && s.outLen == s.hdrLen

/-- The pseudocode of R263. -/
def bpackUnit (s : State) : Run Unit :=
  require s.mayPack 0x06 (s.startUnit .bitPacker) fun s =>
    let s := s.streamStart
    (forAddr packByte s.inLen.toNat 0 s).andThen fun _ s =>
      (flushPartial s).andThen fun _ s => .ok () (s.endUnit { s.valid with cout := true })

/-- `BPACK`, word 0x06 (R261). -/
def execBpack (s : State) : Host.Outcome State Fault Refusal := accept bpackUnit s

end Sys2Proof.Machine
end

