-- ==== Sys2Proof/Machine/BitUnpacker.lean ====
section
/-! DEFINITION. `huffman_bit_unpacker` (46_bit_unpacker.md): the command BUNPACK. -/

namespace Sys2Proof.Machine

/-- A symbol is complete: it is emitted and the descent starts again at the root (R284). -/
def emitSymbol (sym : Byte) (s : State) : Run Unit :=
  (emit sym s).andThen fun _ s => .ok () { s with symCount := s.symCount + 1, upCur := s.root }

/-- A step onto the child `next` (R284). -/
def stepTo (next : NodeIx) (s : State) : Run Unit :=
  match s.nodeAt next with
  | none => .stuck .noSuchNode
  | some n =>
    match n.kind with
    | .leaf => emitSymbol n.sym { s with upCur := some next }
    | .internal => .ok () { s with upCur := some next }

/-- One payload bit, at position `pos` of the byte read from address `a`; a `NULL` child matches no code
(R284, R288). -/
def unpackBit (a : Addr) (pos : Nat) (s : State) : Run Unit :=
  let s := { s with upPos := BitVec.ofNat 3 pos }
  match s.upCur with
  | none => .stuck .noSuchNode
  | some cur =>
    match s.nodeAt cur with
    | none => .stuck .noSuchNode
    | some nd =>
      match nd.child (s.upByte.getLsbD pos) with
      | none => raise .corruptArchive a s
      | some next => stepTo next s

/-- The lowest meaningful bit of the payload byte at `a`: `PADDING` in the last byte, else 0 (R287). -/
def lowestBit (a : Addr) (s : State) : Nat :=
  if a - s.hdrLen = s.payLen - 1 then s.padding.toNat else 0

/-- One payload byte (R284). -/
def unpackByte (a : Addr) (s : State) : Run Unit :=
  (inByte a s).andThen fun v s =>
    let s := { s with upByte := v }
    forEach (unpackBit a) (bitsDownTo (lowestBit a s)) s

/-- The payload of a non-empty archive: at least one byte (R285), ending at the root (R289). -/
def unpackPayload (root : NodeIx) (s : State) : Run Unit :=
  if s.payLen = 0 then raise .corruptArchive s.inLen s
  else
    (forAddr unpackByte s.payLen.toNat s.hdrLen { s with upCur := some root }).andThen fun _ s =>
      if s.upCur = s.root then .ok () s else raise .corruptArchive (s.inLen - 1) s

/-- The start of BUNPACK (R282, R283, R284). -/
def State.decodeStart (s : State) : State :=
  { s with
    valid := s.valid.atStream, outLen := 0, symCount := 0, payLen := s.inLen - s.hdrLen
    inPtr := s.hdrLen }

/-- The pseudocode of R284. -/
def bunpackUnit (s : State) : Run Unit :=
  require s.valid.hdrr 0x07 (s.startUnit .bitUnpacker) fun s =>
    let s := s.decodeStart
    Run.andThen
      (match s.root with
       | none => .ok () s
       | some root => unpackPayload root s)
      fun _ s => .ok () ({ s with upPos := 7 }.endUnit { s.valid with dout := true })

/-- `BUNPACK`, word 0x07 (R281). -/
def execBunpack (s : State) : Host.Outcome State Fault Refusal := accept bunpackUnit s

end Sys2Proof.Machine
end

