-- ==== Sys2Proof/Machine/CodeDeriver.lean ====
section
/-! DEFINITION. `code_table_deriver` (42_code_table_deriver.md): the command CDERIVE. -/

namespace Sys2Proof.Machine

/-- A leaf reached at `path`: its code, and its share of `TOTAL_BITS`, in 72 bits (R192, R319). -/
def State.recordCode (sym : Byte) (path : Code) (weight : Count) (s : State) : State :=
  { s with
    code := s.code.set sym path
    totalBits := s.totalBits + BitVec.ofNat 72 path.length * weight.setWidth 72 }

/-- The walk from `NODE[n]`, reached at `path`, left subtree first (R192, D17). The pseudocode's private
stack is this recursion; `fuel` bounds the depth, which in a tree is below `NODE_COUNT`. A `NULL` child is
"never traversed" (R193). -/
def walk : Nat → NodeIx → Code → State → Run Unit
  | 0, _, _, _ => .stuck .walkDoesNotEnd
  | fuel + 1, n, path, s =>
    match s.nodeAt n with
    | none => .stuck .noSuchNode
    | some nd =>
      match nd.kind with
      | .leaf => .ok () (s.recordCode nd.sym path nd.weight)
      | .internal =>
        Run.andThen
          (match nd.left with
           | none => .ok () s
           | some l => walk fuel l (path ++ [false]) s)
          fun _ s =>
            match nd.right with
            | none => .ok () s
            | some r => walk fuel r (path ++ [true]) s

/-- CDERIVE's fresh table (R192). -/
def State.deriveStart (s : State) : State :=
  { s with valid := s.valid.atCderive, code := Table.const [], totalBits := 0 }

/-- The walk of the whole tree; the empty tree has none (R192, R200). -/
def walkTree (s : State) : Run Unit :=
  match s.root with
  | none => .ok () s
  | some r => walk s.nodeCount.toNat r [] s

/-- The pseudocode of R192. -/
def cderiveUnit (s : State) : Run Unit :=
  require s.valid.tree 0x03 (s.startUnit .codeDeriver) fun s =>
    (walkTree s.deriveStart).andThen fun _ s =>
      .ok () ({ s with padding := paddingOf s.totalBits }.endUnit { s.valid with code := true })

/-- `CDERIVE`, word 0x03 (R191). -/
def execCderive (s : State) : Host.Outcome State Fault Refusal := accept cderiveUnit s

end Sys2Proof.Machine
end

