-- ==== Sys2Proof/Machine/FreqScanner.lean ====
section
/-! DEFINITION. `huffman_freq_scanner` (40_freq_scanner.md): the command FSCAN. -/

namespace Sys2Proof.Machine

/-- One byte counted: `ALPHA` grows at a value's first occurrence (R142). -/
def State.countByte (v : Byte) (s : State) : State :=
  { s with
    alpha := if s.freq.get v = 0 then s.alpha + 1 else s.alpha
    freq := s.freq.set v (s.freq.get v + 1) }

/-- The body of the scan loop (R142). -/
def scanByte (a : Addr) (s : State) : Run Unit :=
  (inByte a s).andThen fun v s => .ok () (s.countByte v)

/-- FSCAN's fresh table (R142). -/
def State.scanStart (s : State) : State :=
  { s with valid := Valid.allClear, freq := Table.const 0, alpha := 0, inPtr := 0 }

/-- The pseudocode of R142. -/
def fscanUnit (s : State) : Run Unit :=
  let s := (s.startUnit .freqScanner).scanStart
  (forAddr scanByte s.inLen.toNat 0 s).andThen fun _ s =>
    .ok () (s.endUnit { s.valid with freq := true })

/-- `FSCAN`, word 0x01 (R141). -/
def execFscan (s : State) : Host.Outcome State Fault Refusal := accept fscanUnit s

end Sys2Proof.Machine
end

