-- ==== Sys2Proof/Machine/HeaderPacker.lean ====
section
/-! DEFINITION. `huffman_header_packer` (43_header_packer.md): the command HPACK. -/

namespace Sys2Proof.Machine

/-- A code bit as a header byte: `0x30 + bit` (R113, R212). -/
def bitChar (bit : Bool) : Byte := if bit then Config.ch1 else Config.ch0

/-- The byte values that have a code, ascending, with their codes (R212, R214). -/
def present (t : Table Code) : List (Byte × Code) := t.entries.filter fun e => !e.2.isEmpty

/-- The header entry of a byte value: the value, its code length, its code bits in path order (R113). -/
def headerEntry (e : Byte × Code) : List Byte := e.1 :: Code.len e.2 :: e.2.map bitChar

/-- The header of R111 for `k` entries: the count byte `k - 1` (R112, R213), the entries, the padding count
(R114). -/
def headerOf (entries : List (Byte × Code)) (padding : BitVec 3) : List Byte :=
  BitVec.ofNat 8 (entries.length - 1) :: (entries.flatMap headerEntry ++ [padding.setWidth 8])

/-- The header a writer gives a table: its entries in ascending byte value (R214). The empty table has no
header (R217). -/
def headerBytes (t : Table Code) (padding : BitVec 3) : List Byte :=
  match present t with
  | [] => []
  | es => headerOf es padding

/-- `OUT_LEN <- 0`: the header starts the archive (R215). -/
def State.packStart (s : State) : State := { s with valid := s.valid.atHpack, outLen := 0 }

/-- The pseudocode of R212: the header's bytes do not depend on what is emitted, so they are listed first
and emitted in order. -/
def hpackUnit (s : State) : Run Unit :=
  require s.valid.code 0x04 (s.startUnit .headerPacker) fun s =>
    let s := s.packStart
    (forEach emit (headerBytes s.code s.padding) s).andThen fun _ s =>
      .ok () ({ s with hdrLen := s.outLen }.endUnit { s.valid with hdrw := true })

/-- `HPACK`, word 0x04 (R211). -/
def execHpack (s : State) : Host.Outcome State Fault Refusal := accept hpackUnit s

end Sys2Proof.Machine
end

