-- ==== Sys2Proof/Machine/HeaderUnpacker.lean ====
section
/-! DEFINITION. `huffman_header_unpacker` (44_header_unpacker.md): the command HUNPACK. The pseudocode's
address `p` "equals `IN_PTR` before every `in_byte`" (R236), so `IN_PTR` is used for it. -/

namespace Sys2Proof.Machine

/-- `in_byte(p) ; p <- p + 1` (R236). -/
def nextByte (s : State) : Run Byte := inByte s.inPtr s

/-- `raise CorruptArchive(p - 1)`: the address of the byte just read (R239). -/
def corruptHere {α : Type} (s : State) : Run α := raise .corruptArchive (s.inPtr - 1) s

/-- The bit a code-bit byte stands for, if it is `'0'` or `'1'` (R242). -/
def codeBit (c : Byte) : Option Bool :=
  if c = Config.ch0 then some false else if c = Config.ch1 then some true else none

/-- An inner step of a path from `NODE[cur]` (R235): an absent child is allocated, a leaf there is a
prefix violation (R245 a). -/
def innerStep (cur : NodeIx) (nd : Node) (bit : Bool) (s : State) : Run NodeIx :=
  match nd.child bit with
  | none =>
    let r := s.alloc Node.bare
    .ok r.1 (r.2.linkChild cur bit r.1)
  | some ch =>
    match s.nodeAt ch with
    | none => .stuck .noSuchNode
    | some n =>
      match n.kind with
      | .leaf => corruptHere s
      | .internal => .ok ch s

/-- The last step of a path from `NODE[cur]`: the leaf is placed, an occupied place is a prefix violation
(R235, R245 b). -/
def lastStep (sym : Byte) (cur : NodeIx) (nd : Node) (bit : Bool) (s : State) : Run Unit :=
  match nd.child bit with
  | none =>
    let r := s.alloc (Node.bareLeaf sym)
    .ok () (r.2.linkChild cur bit r.1)
  | some _ => corruptHere s

/-- `for j = 0 .. L - 1` with `left` = `L - j` code bits still to read (R236). -/
def walkPath (sym : Byte) : Nat → NodeIx → State → Run Unit
  | 0, _, s => .ok () s
  | left + 1, cur, s =>
    (nextByte s).andThen fun c s =>
      match codeBit c with
      | none => corruptHere s
      | some bit =>
        match s.nodeAt cur with
        | none => .stuck .noSuchNode
        | some nd =>
          match left with
          | 0 => lastStep sym cur nd bit s
          | left + 1 => (innerStep cur nd bit s).andThen fun next s => walkPath sym (left + 1) next s

/-- One header entry: byte value, code length (0 is corrupt, R240), code bits (R236). -/
def readEntry (s : State) : Run Unit :=
  (nextByte s).andThen fun sym s =>
    (nextByte s).andThen fun len s =>
      if len = 0 then corruptHere s
      else
        match s.root with
        | none => .stuck .noSuchNode
        | some root => walkPath sym len.toNat root s

/-- `while HU_COUNT != 0` (R236): `HU_COUNT` goes down by one with every entry, so `n` is its value. -/
def readEntries : Nat → State → Run Unit
  | 0, s => .ok () s
  | n + 1, s =>
    (readEntry s).andThen fun _ s => readEntries n { s with huCount := s.huCount - 1 }

/-- The padding byte, above 7 corrupt (R241), and the header length (R236). -/
def readPadding (s : State) : Run Unit :=
  (nextByte s).andThen fun pad s =>
    if 7 < pad.toNat then corruptHere s
    else .ok () { s with padding := pad.extractLsb' 0 3, hdrLen := s.inPtr }

/-- `HU_COUNT <- zext_9(n) + 1 ; ALPHA <- HU_COUNT` and the root (R233, R234). -/
def State.openHeader (n : Byte) (s : State) : State :=
  let r := s.alloc Node.bare
  { r.2 with huCount := n.setWidth 9 + 1, alpha := n.setWidth 9 + 1, root := some r.1 }

/-- The header of a non-empty archive (R236). -/
def readHeader (s : State) : Run Unit :=
  (nextByte s).andThen fun n s =>
    let s := s.openHeader n
    (readEntries s.huCount.toNat s).andThen fun _ s => readPadding s

/-- The start of HUNPACK (R236), and all of its result for the empty archive (R232). -/
def State.unpackStart (s : State) : State :=
  { s.dropNodes with
    valid := Valid.allClear, root := none, alpha := 0, padding := 0, hdrLen := 0, inPtr := 0 }

/-- The pseudocode of R236. -/
def hunpackUnit (s : State) : Run Unit :=
  let s := (s.startUnit .headerUnpacker).unpackStart
  Run.andThen (if s.inLen = 0 then .ok () s else readHeader s) fun _ s =>
    .ok () (s.endUnit { s.valid with hdrr := true })

/-- `HUNPACK`, word 0x05 (R231). -/
def execHunpack (s : State) : Host.Outcome State Fault Refusal := accept hunpackUnit s

end Sys2Proof.Machine
end

