-- ==== Sys2Proof/Machine/TreeBuilder.lean ====
section
/-! DEFINITION. `huffman_tree_builder` (41_tree_builder.md): the command TBUILD. -/

namespace Sys2Proof.Machine

/-- `w(i)`: the weight of `NODE[i]` (R164). Every index TBUILD asks about was handed out by `alloc` in the
same run, so the second case is never met. -/
def State.weight (s : State) (i : NodeIx) : Count :=
  match s.nodeAt i with
  | some n => n.weight
  | none => 0

/-- A node index appended to a work list read from its tail and moved toward the head past every element
of strictly smaller weight (R163, R167). -/
def placeFromTail (w : NodeIx → Count) (i : NodeIx) : List NodeIx → List NodeIx
  | [] => [i]
  | x :: xs => if w x < w i then x :: placeFromTail w i xs else i :: x :: xs

/-- The same on `LIST`, whose last element is the lowest weight (R163). -/
def insertSorted (w : NodeIx → Count) (i : NodeIx) (l : List NodeIx) : List NodeIx :=
  (placeFromTail w i l.reverse).reverse

/-- Step 1 for one byte value and its count: a leaf if the count is not 0, sorted in (R162, R163). -/
def addLeaf (s : State) (e : Byte × Count) : State :=
  if e.2 = 0 then s
  else
    let r := s.alloc { kind := .leaf, left := none, right := none, sym := e.1, weight := e.2 }
    r.2.setList (insertSorted r.2.weight r.1 r.2.list)

/-- One pass of the merge loop: `a`, the lowest, becomes the left child, `b`, the second lowest, the
right child, and the merged node is sorted in (R164 to R167). -/
def mergeTwo (a b : NodeIx) (rest : List NodeIx) (s : State) : State :=
  let r := s.alloc
    { kind := .internal, left := some a, right := some b, sym := 0, weight := s.weight a + s.weight b }
  r.2.setList (insertSorted r.2.weight r.1 rest)

/-- Steps 2 and 3, `while LIST_LEN > 1` (R165). Each pass shortens `LIST` by one, so as many passes as
`LIST` has elements are enough. -/
def mergeAll : Nat → State → State
  | 0, s => s
  | n + 1, s =>
    match s.list.reverse with
    | a :: b :: rest => mergeAll n (mergeTwo a b rest.reverse s)
    | _ => s

/-- Step 4, the degenerate case: a parent whose left child is the leaf and whose right child is `NULL`
(R168). -/
def addParent (leaf : NodeIx) (s : State) : State :=
  let r := s.alloc
    { kind := .internal, left := some leaf, right := none, sym := 0, weight := s.weight leaf }
  r.2.setList [r.1]

/-- After the leaves: the empty alphabet (R171), the degenerate case (R168), or the merge loop (R165);
`ROOT` is then `LIST[0]`, or `NULL`. -/
def joinLeaves (s : State) : State :=
  let s :=
    match s.list with
    | [] => s
    | [leaf] => addParent leaf s
    | _ => mergeAll s.list.length s
  { s with root := s.list.head? }

/-- `NODE_COUNT <- 0 ; LIST_LEN <- 0 ; ROOT <- NULL` (R164). -/
def State.treeStart (s : State) : State :=
  { s.dropNodes.setList [] with root := none, valid := s.valid.atTbuild }

/-- The pseudocode of R164. -/
def tbuildUnit (s : State) : Run Unit :=
  require s.valid.freq 0x02 (s.startUnit .treeBuilder) fun s =>
    let s := joinLeaves (s.freq.entries.foldl addLeaf s.treeStart)
    .ok () (s.endUnit { s.valid with tree := true })

/-- `TBUILD`, word 0x02 (R161). -/
def execTbuild (s : State) : Host.Outcome State Fault Refusal := accept tbuildUnit s

end Sys2Proof.Machine
end

