-- ==== Sys2Proof/Machine/Sequencer.lean ====
section
/-! DEFINITION. The sequencer (47_sequencer.md): the composite commands and CLEAR. -/

namespace Sys2Proof.Machine

/-- The five units of a compression, each to its end before the next starts; a fault in any of them ends
the command at once (R310). -/
def compressUnits (s : State) : Run Unit :=
  (fscanUnit s).andThen fun _ s =>
    (tbuildUnit s).andThen fun _ s =>
      (cderiveUnit s).andThen fun _ s =>
        (hpackUnit s).andThen fun _ s => bpackUnit s

/-- The two units of a decompression (R311). -/
def decompressUnits (s : State) : Run Unit :=
  (hunpackUnit s).andThen fun _ s => bunpackUnit s

/-- `COMPRESS`, word 0x08 (R310). -/
def execCompress (s : State) : Host.Outcome State Fault Refusal := accept compressUnits s

/-- `DECOMPRESS`, word 0x09 (R311). -/
def execDecompress (s : State) : Host.Outcome State Fault Refusal := accept decompressUnits s

/-- `CLEAR`, word 0x0A (R312): accepted whenever `BUSY` = 0, faulted or not (R300 step 2). -/
def execClear (s : State) : Host.Outcome State Fault Refusal :=
  match s.busy with
  | true => .refused .hostActsWhileBusy
  | false => .next s.cleared

end Sys2Proof.Machine
end

