-- ==== Sys2Proof/Machine/Dispatch.lean ====
section
/-! DEFINITION. The command table: what writing the word of a command to `CMD` does (47_sequencer.md R300,
R301; 30_encoding.md R101). -/

namespace Sys2Proof.Machine

def exec (i : Instr) (s : State) : Host.Outcome State Fault Refusal :=
  match i with
  | .fscan => Sys2Proof.Machine.execFscan s
  | .tbuild => Sys2Proof.Machine.execTbuild s
  | .cderive => Sys2Proof.Machine.execCderive s
  | .hpack => Sys2Proof.Machine.execHpack s
  | .hunpack => Sys2Proof.Machine.execHunpack s
  | .bpack => Sys2Proof.Machine.execBpack s
  | .bunpack => Sys2Proof.Machine.execBunpack s
  | .compress => Sys2Proof.Machine.execCompress s
  | .decompress => Sys2Proof.Machine.execDecompress s
  | .clear => Sys2Proof.Machine.execClear s

end Sys2Proof.Machine
end

