-- ==== Sys2Proof/Machine/HostPort.lean ====
section
/-! DEFINITION. The host's side of the block (70_reset_and_hazards.md R395): its moves and what it reads. -/

namespace Sys2Proof.Machine

/-- An illegal word written to `CMD`, R300: a host error while `BUSY` = 1 (step 1), ignored in the faulted
state (step 3), `IllegalCommand(w)` otherwise (step 4, R346). -/
def illegalCommand (w : Byte) (s : State) : Host.Outcome State Fault Refusal :=
  match s.busy, s.status with
  | true, _ => .refused .hostActsWhileBusy
  | false, some _ => .next s
  | false, none => .next (s.enterFault .illegalCommand (w.setWidth 64))

/-- `CMD <- w` (R300). -/
def writeCmd (w : Byte) (s : State) : Host.Outcome State Fault Refusal :=
  match decode w with
  | .ok i => exec i s
  | .error _ => illegalCommand w s

/-- A host action that must not happen while `BUSY` = 1 (R395). -/
def whenIdle (f : State → State) (s : State) : Host.Outcome State Fault Refusal :=
  match s.busy with
  | true => .refused .hostActsWhileBusy
  | false => .next (f s)

/-- The host stores a byte of `IN`; "flags are not affected" (R395, R391). -/
def State.storeIn (a : Addr) (v : Byte) (s : State) : State :=
  { s with inMem := Memory.write a.toNat v s.inMem }

/-- `IN_LEN <- n` (R23, R33): the value and every flag cleared, or ignored in the faulted state. -/
def State.setInLen (n : Addr) (s : State) : State :=
  match s.status with
  | none => { s with inLen := n, valid := Valid.allClear }
  | some _ => s

/-- `OUT_CAP` lowered to `cut`: the block can write only addresses below both. -/
def State.capAt (cut : Addr) (s : State) : State :=
  { s with params := { s.params with outCap := if cut < s.params.outCap then cut else s.params.outCap } }

/-- A hardware reset while the command `w` executes, R382: "the bytes the command had already written to
`OUT` remain there", the block's state becomes the reset state. Output is append-only (R77), so what a
command had written when `OUT_LEN` reached `cut` is what it writes into a space of that capacity. -/
def resetDuring (w : Byte) (cut : Addr) (s : State) : Host.Outcome State Fault Refusal :=
  match writeCmd w (s.capAt cut) with
  | .next t => .next ({ s with outMem := t.outMem }.cleared)
  | .fault f => .fault f
  | .refused r => .refused r

/-- One host move (R395). -/
def hostMove (m : HostMove) (s : State) : Host.Outcome State Fault Refusal :=
  match m with
  | .writeIn a v => whenIdle (fun s => s.storeIn a v) s
  | .writeInLen n => whenIdle (fun s => s.setInLen n) s
  | .writeCmd w => writeCmd w s
  | .read _ => whenIdle (fun s => s) s
  | .hardReset => .next s.cleared
  | .resetDuring w cut => resetDuring w cut s

/-- The bits of a link as the host reads them (R41). -/
def linkBits (l : Link) : Nat := (l.getD Config.nullBits).toNat

/-- A field of `NODE[i]` as the host reads it: no entry beyond the arena (R37), no promised value at or
above `NODE_COUNT` (U7). -/
def readNode (i : NodeIx) (field : Node → Nat) (s : State) : ReadResult :=
  if Config.nodeCap ≤ i.toNat then .noRead
  else
    match s.nodeAt i with
    | some n => .value (field n)
    | none => .unspecified

/-- The bytes of `OUT` the host may rely on: `OUT[0 .. OUT_LEN - 1]` while `V_COUT`, `V_DOUT` or, for a bare
header, `V_HDRW` is set (R394, U11). -/
def State.outVouched (a : Addr) (s : State) : Bool :=
  decide (a < s.outLen) && (s.valid.cout || s.valid.dout || s.valid.hdrw)

/-- What a port holds, in an idle block without a fault (R21). -/
def portValue (p : HostPort) (s : State) : ReadResult :=
  match p with
  | .cmd => .value 0
  | .status => .value s.statusWord.toNat
  | .faultInfo => .value s.faultInfo.toNat
  | .faultUnit => .value s.faultUnit.code.toNat
  | .busy => .value s.busy.toNat
  | .phase => .value s.phase.code.toNat
  | .valid => .value s.valid.word.toNat
  | .inLen => .value s.inLen.toNat
  | .inPtr => .value s.inPtr.toNat
  | .outLen => .value s.outLen.toNat
  | .alpha => .value s.alpha.toNat
  | .root => .value (linkBits s.root)
  | .nodeCount => .value s.nodeCount.toNat
  | .totalBits => .value s.totalBits.toNat
  | .padding => .value s.padding.toNat
  | .hdrLen => .value s.hdrLen.toNat
  | .payLen => .value s.payLen.toNat
  | .symCount => .value s.symCount.toNat
  | .pkAcc => .value s.pkAcc.toNat
  | .pkPos => .value s.pkPos.toNat
  | .upCur => .value (linkBits s.upCur)
  | .upPos => .value s.upPos.toNat
  | .upByte => .value s.upByte.toNat
  | .listLen => .value s.listLen.toNat
  | .huCount => .value s.huCount.toNat
  | .freq b => .value (s.freq.get b).toNat
  | .codeLen b => .value (Code.len (s.code.get b)).toNat
  | .codeBits b => .value (Code.bits (s.code.get b)).toNat
  | .nodeKind i => readNode i (fun n => match n.kind with | .leaf => 0 | .internal => 1) s
  | .nodeLeft i => readNode i (fun n => linkBits n.left) s
  | .nodeRight i => readNode i (fun n => linkBits n.right) s
  | .nodeSym i => readNode i (fun n => n.sym.toNat) s
  | .nodeWeight i => readNode i (fun n => n.weight.toNat) s
  | .listEntry i =>
    match s.list[i.toNat]? with
    | some x => .value x.toNat
    | none => .unspecified
  | .inByte a => .value (Memory.read a.toNat s.inMem).toNat
  | .outByte a => if s.outVouched a then .value (Memory.read a.toNat s.outMem).toNat else .unspecified

/-- The state U6 leaves defined after a fault: `STATUS`, `FAULT_INFO`, `FAULT_UNIT`, `VALID`, `PHASE`,
`BUSY`, `IN_LEN` and `IN`; `CMD` always reads 0 (R25). -/
def HostPort.definedAfterFault : HostPort → Bool
  | .cmd | .status | .faultInfo | .faultUnit | .busy | .phase | .valid | .inLen | .inByte _ => true
  | _ => false

/-- What the host reads (R21, R25, U6). Reading changes nothing (R395). -/
def hostRead (p : HostPort) (s : State) : ReadResult :=
  match s.busy, s.status.isSome && !p.definedAfterFault with
  | true, _ => .noRead
  | false, true => .unspecified
  | false, false => portValue p s

/-- The script of the core API function `compress` (R315). -/
def compressScript (bytes : List Byte) : List HostMove :=
  .writeCmd (encode .clear) ::
    (bytes.zipIdx.map (fun c => HostMove.writeIn (BitVec.ofNat 64 c.2) c.1) ++
      [.writeInLen (BitVec.ofNat 64 bytes.length), .writeCmd (encode .compress)])

/-- The script of the core API function `decompress` (R315). -/
def decompressScript (bytes : List Byte) : List HostMove :=
  .writeCmd (encode .clear) ::
    (bytes.zipIdx.map (fun c => HostMove.writeIn (BitVec.ofNat 64 c.2) c.1) ++
      [.writeInLen (BitVec.ofNat 64 bytes.length), .writeCmd (encode .decompress)])

end Sys2Proof.Machine
end

