-- ==== Sys2Proof/Machine/Step.lean ====
section
/-! DEFINITION. One step: the host's next move happens (70_reset_and_hazards.md R395, R396). A command is
one atomic step (00_scope.md R15; 47_sequencer.md R302). -/

namespace Sys2Proof.Machine

/-- The host's next move; with no move to come the block is idle and holds its state (R365, R381). -/
def step (s : State) : Host.Outcome State Fault Refusal :=
  match s.host with
  | [] => .next s
  | m :: rest => hostMove m { s with host := rest }

/-- The host writes the command word to `CMD` as its very next move (log entry 4). -/
def State.withFetchWord (s : State) (nbits w : Nat) : State :=
  { s with host := .writeCmd (tableWord nbits w) :: s.host }

end Sys2Proof.Machine
end

