-- ==== Sys2Proof/Safety.lean ====
section
/-! DEFINITION. The terms the claims use: what a run's result is (70_reset_and_hazards.md R396), the trees the
arena holds (10_state.md R38), the bits of a payload (20_memory.md R73), and the invariant of the block. -/

namespace Sys2Proof.Machine

/-- The block takes a command: `BUSY` = 0 and `STATUS` = 0 (R300). -/
abbrev State.accepting (s : State) : Prop := s.busy = false ∧ s.status = none

/-- `IN[a]`. -/
def State.inAt (s : State) (a : Nat) : Byte := Memory.read a s.inMem

/-- `OUT[a]`. -/
def State.outAt (s : State) (a : Nat) : Byte := Memory.read a s.outMem

/-- `IN[0 .. IN_LEN - 1]` (R70). -/
def State.input (s : State) : List Byte := (List.range s.inLen.toNat).map s.inAt

/-- `OUT[0 .. OUT_LEN - 1]` (R70, R394). -/
def State.output (s : State) : List Byte := (List.range s.outLen.toNat).map s.outAt

/-- `IN_ERR` is false of every address below `IN_LEN`. -/
def State.inputReadable (s : State) : Prop := ∀ a : Addr, a < s.inLen → s.params.readFails a = false

/-- The observable result of a run (R396). -/
inductive Observation where
  /-- `STATUS` = 0 and `V_COUT` or `V_DOUT` is set: the bytes `OUT[0 .. OUT_LEN - 1]`. -/
  | succeeded (bytes : List Byte)
  /-- `STATUS` is not 0: the fault record and nothing else. -/
  | failed (cause : Cause) (info : BitVec 64) (unit : Phase)
  /-- Neither: no result yet. -/
  | pending
  deriving DecidableEq, Repr

/-- R396, R394. -/
def State.observe (s : State) : Observation :=
  match s.status with
  | some c => .failed c s.faultInfo s.faultUnit
  | none => if s.valid.cout || s.valid.dout then .succeeded s.output else .pending

/-- The outcome of a list of commands issued one after the other. -/
def runCommands : List Instr → State → Host.Outcome State Fault Refusal
  | [], s => .next s
  | i :: is, s =>
    match exec i s with
    | .next t => runCommands is t
    | .fault f => .fault f
    | .refused r => .refused r

/-- A tree as a value: what a link of the arena stands for (R38). `null` is the `NULL` link. -/
inductive HTree where
  | null
  | leaf (sym : Byte) (weight : Count)
  | fork (weight : Count) (left right : HTree)
  deriving DecidableEq, Repr

/-- The link stands for the tree in the arena of `s` (R37). -/
def Represents (s : State) : Link → HTree → Prop
  | link, .null => link = none
  | link, .leaf b w =>
    ∃ i, link = some i ∧
      s.nodeAt i = some { kind := .leaf, left := none, right := none, sym := b, weight := w }
  | link, .fork w l r =>
    ∃ i nl nr, link = some i ∧
      s.nodeAt i = some { kind := .internal, left := nl, right := nr, sym := 0, weight := w } ∧
      Represents s nl l ∧ Represents s nr r

/-- The number of nodes on the longest path. -/
def HTree.height : HTree → Nat
  | .null => 0
  | .leaf _ _ => 1
  | .fork _ l r => 1 + max l.height r.height

/-- The leaves, left to right, with their weights. -/
def HTree.leaves : HTree → List (Byte × Count)
  | .null => []
  | .leaf b w => [(b, w)]
  | .fork _ l r => l.leaves ++ r.leaves

/-- "Exactly two children" (R38): no `NULL` below. -/
def HTree.full : HTree → Bool
  | .null => false
  | .leaf _ _ => true
  | .fork _ l r => l.full && r.full

/-- The weight at the top. -/
def HTree.weight : HTree → Count
  | .null => 0
  | .leaf _ w => w
  | .fork w _ _ => w

/-- "Weight = sum of descendant leaf weights" (R38, R170), one level at a time. -/
def HTree.weighted : HTree → Bool
  | .null => true
  | .leaf _ _ => true
  | .fork w l r => w == l.weight + r.weight && l.weighted && r.weighted

/-- The subtree a path leads to (R11). -/
def HTree.sub : HTree → Code → HTree
  | t, [] => t
  | .fork _ l r, b :: p => (if b then r else l).sub p
  | .null, _ :: _ => .null
  | .leaf _ _, _ :: _ => .null

/-- The symbol of the leaf a path leads to. -/
def HTree.leafAt (t : HTree) (p : Code) : Option Byte :=
  match t.sub p with
  | .leaf b _ => some b
  | _ => none

/-- `t` is an internal node. -/
def HTree.isFork : HTree → Bool
  | .fork _ _ _ => true
  | _ => false

/-- The byte values with a non-zero count, ascending, with their counts (R34, R162). -/
def counted (t : Table Count) : List (Byte × Count) :=
  t.entries.filter fun e => e.2 ≠ 0

/-- The shapes TBUILD builds (R168, R169, R171): empty, degenerate, or an internal node under which every
internal node has two children. -/
def HTree.huffmanShape : HTree → Bool
  | .null => true
  | .leaf _ _ => false
  | .fork _ (.leaf _ _) .null => true
  | .fork _ l r => l.full && r.full

/-- The arena holds a tree whose leaves are the counted byte values, each once, with their counts
(R162, R168 to R171). -/
def TreeOf (s : State) (T : HTree) : Prop :=
  Represents s s.root T ∧ T.height ≤ s.nodeCount.toNat ∧ T.huffmanShape = true ∧ T.weighted = true ∧
    T.leaves.Perm (counted s.freq)

/-- No code is a prefix of another byte value's code (R35, R196). -/
def prefixFree (t : Table Code) : Prop :=
  ∀ b c : Byte, b ≠ c → t.get b ≠ [] → t.get c ≠ [] → ¬ t.get b <+: t.get c

/-- Every code fits its entry (R35). -/
def codesFit (t : Table Code) : Prop := ∀ b : Byte, (t.get b).length ≤ 255

/-- Where the header entry of byte value `b` starts: after the count byte and the entries of the smaller
byte values that have a code (R111, R214). -/
def entryOffset (t : Table Code) (b : Byte) : Nat :=
  1 + (((present t).filter fun e => e.1 < b).map fun e => 2 + e.2.length).sum

/-- The header length of R216. -/
def headerLength (t : Table Code) : Nat :=
  if (present t).isEmpty then 0 else 2 + ((present t).map fun e => 2 + e.2.length).sum

/-- What a reader accepts as the entries of a header (R117, R243, R244, R245): 1 to 256 of them (R112), each with a
code of 1 to 255 bits (R113), no code a prefix of another entry's. Their order and the byte values are free: a value may
stand in two entries. -/
structure EntriesOk (entries : List (Byte × Code)) : Prop where
  count      : 1 ≤ entries.length ∧ entries.length ≤ 256
  lengths    : ∀ e ∈ entries, 1 ≤ e.2.length ∧ e.2.length ≤ 255
  prefixFree : entries.Pairwise fun e f => ¬ e.2 <+: f.2 ∧ ¬ f.2 <+: e.2

/-- The code bits of a byte sequence, in order (R115). -/
def codeBits (t : Table Code) (bytes : List Byte) : List Bool := bytes.flatMap t.get

/-- Bit number `t` of a byte stream that starts at address `base`: bit `7 - (t mod 8)` of byte `t div 8`
(R73, R264). -/
def streamBit (byteAt : Nat → Byte) (base t : Nat) : Bool := (byteAt (base + t / 8)).getLsbD (7 - t % 8)

/-- The meaningful bits of the payload `IN[HDR_LEN .. IN_LEN - 1]` (R287). -/
def payloadBits (s : State) : List Bool :=
  (List.range (8 * (s.inLen.toNat - s.hdrLen.toNat) - s.padding.toNat)).map
    (streamBit s.inAt s.hdrLen.toNat)

/-- The values `VALID` takes: the stages of a compression, the stages of a decompression (R32, R393). -/
def stages : List Valid :=
  [Valid.allClear,
   { Valid.allClear with freq := true },
   { Valid.allClear with freq := true, tree := true },
   { Valid.allClear with freq := true, tree := true, code := true },
   { Valid.allClear with freq := true, tree := true, code := true, hdrw := true },
   { Valid.allClear with freq := true, tree := true, code := true, hdrw := true, cout := true },
   { Valid.allClear with hdrr := true },
   { Valid.allClear with hdrr := true, dout := true }]

/-- A link is `NULL` or an index below `n`. -/
def Link.below (l : Link) (n : Nat) : Prop := ∀ i, l = some i → i.toNat < n

/-- The children of every node stand below it in the arena: TBUILD allocates children first (R165). -/
def childrenBelow (nodes : List Node) : Prop :=
  ∀ i n, nodes[i]? = some n → Link.below n.left i ∧ Link.below n.right i

/-- No link leaves the arena (R37). -/
def linksInside (nodes : List Node) : Prop :=
  ∀ n ∈ nodes, Link.below n.left nodes.length ∧ Link.below n.right nodes.length

/-- The arena part of the invariant: a set flag vouches for a tree that can be walked. -/
structure ArenaOk (s : State) : Prop where
  count  : s.node.length = s.nodeCount.toNat
  cap    : s.node.length ≤ Config.nodeCap
  tree   : s.valid.tree = true → childrenBelow s.node ∧ Link.below s.root s.node.length
  header : s.valid.hdrr = true → linksInside s.node ∧ Link.below s.root s.node.length

/-- The invariant of the block between host moves. Of a faulted block it asks only what R350 and R28 give and
that the memories are in their canonical form: U6 leaves its other registers unspecified. -/
structure Inv (s : State) : Prop where
  idle     : s.busy = false ∧ s.phase = .idle
  noFault  : s.status = none → s.faultInfo = 0 ∧ s.faultUnit = .idle
  faulted  : s.status ≠ none → s.valid = Valid.allClear
  stage    : s.valid ∈ stages
  inForm   : Memory.wf s.inMem
  outForm  : Memory.wf s.outMem
  outLen   : s.outLen ≤ s.params.outCap
  arena    : s.status = none → ArenaOk s
  workList : s.status = none → s.list.length = s.listLen.toNat ∧ s.list.length ≤ 256
  hdrLen   : s.valid.hdrr = true → s.hdrLen ≤ s.inLen
  padding  : s.valid.code = true → s.padding = paddingOf s.totalBits
  packed   : s.valid.hdrw = true →
    s.outLen = if s.valid.cout then s.hdrLen + s.payLen else s.hdrLen

/-- `CODE`, `TOTAL_BITS` and `PADDING` hold the code table of the tree (R31, R193 to R195): a byte value's code is a
path exactly when the path leads to its leaf, so a byte value without a leaf has none. -/
structure CodeTableOf (s : State) (T : HTree) : Prop where
  codes   : ∀ (b : Byte) (p : Code), p ≠ [] → (s.code.get b = p ↔ T.leafAt p = some b)
  total   : s.totalBits =
    BitVec.ofNat 72 (allBytes.map fun b => (s.code.get b).length * (s.freq.get b).toNat).sum
  padding : s.padding.toNat = (8 - s.totalBits.toNat % 8) % 8

/-- What `V_TREE` and `V_CODE` vouch for (R31), that the codes are prefix-free (R35, R196), and the size of a
code (R35). -/
structure Vouched (s : State) : Prop where
  tree  : s.valid.tree = true → ∃ T, TreeOf s T
  codes : s.valid.code = true → prefixFree s.code ∧ ∃ T, TreeOf s T ∧ CodeTableOf s T
  fit   : s.status = none → codesFit s.code

/-- The properties of source §8 (R317) of a compression that starts in `s` and ends in `t` and the decompression of its
archive that ends in `v`. The two-symbol property and the known vector are the round trip; no bound on the archive of a
longer alphabet is claimed. -/
structure SourceProperties (s t v : State) : Prop where
  /-- "Round trip" (R316). -/
  roundTrip : v.observe = .succeeded s.input
  /-- "Code prefix-freedom" (R196). -/
  prefixFreedom : prefixFree t.code
  /-- "Header self-consistency" (R246): the length read is the length written, and the bytes consumed. -/
  headerSelfConsistency : v.hdrLen = t.hdrLen ∧ headerLength t.code = t.hdrLen.toNat
  /-- "Padding correctness" (R267). -/
  paddingCorrectness : s.inLen ≠ 0 →
    (8 - t.padding.toNat) + 8 * (t.payLen.toNat - 1) = t.totalBits.toNat
  /-- "Compression never expands below a floor" (R218): 10000 equal bytes give 5 + 1250 = 1255. -/
  oneSymbolFloor : ∀ b, s.inLen ≠ 0 → (∀ c ∈ s.input, c = b) →
    t.hdrLen = 5 ∧ t.outLen.toNat = 5 + (s.inLen.toNat + 7) / 8

end Sys2Proof.Machine
end

