-- ==== Sys2Proof/Certificates/Slice0/Obligations.lean ====
section
/-! DEFINITION. The statements for the provers. Each docstring names the rule of spec/ it formalises; the
model's own choices are named with their log entry. -/

open Sys2Proof Sys2Proof.Machine

/-! ### Encoding and dispatch -/

/-- R101: the ten words. -/
def Obligations.TenWordsDecodeToTheTenCommands : Prop :=
  decode 0x01 = .ok .fscan ∧ decode 0x02 = .ok .tbuild ∧ decode 0x03 = .ok .cderive ∧
  decode 0x04 = .ok .hpack ∧ decode 0x05 = .ok .hunpack ∧ decode 0x06 = .ok .bpack ∧
  decode 0x07 = .ok .bunpack ∧ decode 0x08 = .ok .compress ∧ decode 0x09 = .ok .decompress ∧
  decode 0x0A = .ok .clear

/-- R103, R104: a word decodes exactly when bits 7:4 are 0 and bits 3:0 are 1 to 10, and then only the word of
the table decodes to the command. -/
def Obligations.LegalWordsAreExactlyTheTen : Prop :=
  ∀ w : Byte,
    ((∃ i, decode w = .ok i) ↔ (zeroField w = 0 ∧ 1 ≤ (opField w).toNat ∧ (opField w).toNat ≤ 10)) ∧
    ∀ i, decode w = .ok i ↔ encode i = w

/-- A step runs the decoded command: when the host's next move writes a word that decodes, the step is `exec`
of the command at the state with that move taken off the script; and `withFetchWord` puts a word there. -/
def Obligations.StepRunsTheDecodedCommand : Prop :=
  (∀ s rest w i, s.host = .writeCmd w :: rest → decode w = .ok i → step s = exec i { s with host := rest }) ∧
  (∀ s nbits w i, decodeTableWord nbits w = some i → step (s.withFetchWord nbits w) = exec i s)

/-- R346, R103, R350: an illegal word in an accepting block. `FAULT_UNIT` is the value of `PHASE`, which is 0
between commands. -/
def Obligations.IllegalWordRaisesIllegalCommand : Prop :=
  ∀ s rest w, s.accepting → s.phase = .idle → s.host = .writeCmd w :: rest →
    ¬ (zeroField w = 0 ∧ 1 ≤ (opField w).toNat ∧ (opField w).toNat ≤ 10) →
    step s = .next { s with
      host := rest, status := some .illegalCommand, faultInfo := w.setWidth 64, faultUnit := .idle
      valid := Valid.allClear, phase := .idle, busy := false }

/-- R301: in the faulted state every word but `CLEAR`, legal or not, is ignored; `CLEAR` is accepted. -/
def Obligations.FaultedBlockAcceptsOnlyClear : Prop :=
  ∀ s rest w c, s.busy = false → s.status = some c → s.host = .writeCmd w :: rest →
    (w ≠ 0x0A → step s = .next { s with host := rest }) ∧
    (w = 0x0A → ∃ t : State, step s = .next t ∧ t.status = none)

/-- R312, R380 (with the values of R46): `CLEAR`, word 0x0A, in any idle block, faulted or not, and a hardware reset
at any time: every register, flag and register file at its reset value, `IN` and `OUT` untouched. Of `NODE` and `LIST`,
whose contents R46 leaves unspecified, nothing is stated. -/
def Obligations.ClearGivesResetStateAndKeepsMemories : Prop :=
  decode 0x0A = .ok .clear ∧
  ∀ s : State,
    let isFresh : State → List HostMove → Prop := fun t rest => t =
      { inLen := 0, inPtr := 0, outLen := 0, alpha := 0, root := none, nodeCount := 0, totalBits := 0
        padding := 0, hdrLen := 0, payLen := 0, symCount := 0, status := none, faultInfo := 0
        faultUnit := .idle, busy := false, phase := .idle, valid := Valid.allClear
        freq := Table.const 0, code := Table.const [], node := t.node, list := t.list, listLen := 0
        pkAcc := 0, pkPos := 7, upCur := none, upPos := 7, upByte := 0, huCount := 0
        inMem := s.inMem, outMem := s.outMem, params := s.params, host := rest }
    (s.busy = false → ∃ t, exec .clear s = .next t ∧ isFresh t s.host) ∧
      ∀ rest, ∃ t, step { s with host := .hardReset :: rest } = .next t ∧ isFresh t rest

/-- R382: a hardware reset during a command leaves the reset state and `IN` untouched. Bytes of `OUT` at and above the
cursor `cut` at which it arrived are as before the command. Where the command, uninterrupted, would have ended without
a fault in `r`, the bytes below `cut` are the ones it wrote there; if its stream ends before `cut`, the reset comes after
its last write and all of `OUT` is as the command left it. The place of the reset is the model's parameter (log
entry 12). -/
def Obligations.ResetDuringCommandLeavesResetState : Prop :=
  ∀ s rest w cut t, s.host = .resetDuring w cut :: rest → step s = .next t →
    t = { State.reset with inMem := s.inMem, outMem := t.outMem, params := s.params, host := rest } ∧
    (∀ a, cut.toNat ≤ a → t.outAt a = s.outAt a) ∧
    ∀ i r, decode w = .ok i → exec i { s with host := rest } = .next r → r.status = none →
      (∀ a, a < cut.toNat → cut ≤ r.outLen → t.outAt a = r.outAt a) ∧
      (r.outLen ≤ cut → ∀ a, t.outAt a = r.outAt a)

/-- R46: the reset values the spec gives. The other fields of the model at reset are the model's own choices
(log entries 1, 2, 4, 5) and are not stated here. -/
def Obligations.ResetValues : Prop :=
  let s := State.reset
  s.inLen = 0 ∧ s.inPtr = 0 ∧ s.outLen = 0 ∧ s.hdrLen = 0 ∧ s.payLen = 0 ∧ s.symCount = 0 ∧
  s.alpha = 0 ∧ s.nodeCount = 0 ∧ s.listLen = 0 ∧ s.huCount = 0 ∧ s.totalBits = 0 ∧ s.padding = 0 ∧
  s.root = none ∧ s.upCur = none ∧ s.pkAcc = 0 ∧ s.upByte = 0 ∧ s.pkPos = 7 ∧ s.upPos = 7 ∧
  s.statusWord = 0 ∧ s.faultInfo = 0 ∧ s.faultUnit.code = 0 ∧ s.busy = false ∧ s.phase.code = 0 ∧
  s.valid.word = 0 ∧ (∀ b, s.freq.get b = 0) ∧
  (∀ b, Code.len (s.code.get b) = 0 ∧ Code.bits (s.code.get b) = 0)

/-! ### The host -/

/-- R23, R33: a write of `IN_LEN` stores the value and clears every flag, is ignored in the faulted state, and
while `BUSY` = 1 the model has no transition. -/
def Obligations.HostWriteOfInLen : Prop :=
  ∀ s rest n, s.host = .writeInLen n :: rest →
    (s.busy = false → s.status = none →
      step s = .next { s with host := rest, inLen := n, valid := Valid.allClear }) ∧
    (s.busy = false → s.status ≠ none → step s = .next { s with host := rest }) ∧
    (s.busy = true → step s = .refused .hostActsWhileBusy)

/-- R395: a write of a byte of `IN` changes that byte and nothing else, faulted or not. -/
def Obligations.HostWriteOfInput : Prop :=
  ∀ s rest a v, s.host = .writeIn a v :: rest → s.busy = false → Memory.wf s.inMem →
    ∃ t : State, step s = .next t ∧ t = { s with host := rest, inMem := t.inMem } ∧ t.inAt a.toNat = v ∧
      ∀ b, b ≠ a.toNat → t.inAt b = s.inAt b

/-- R21, R25, R27, R302, R341, R31: what the host reads of the control and status registers of an idle block, every
code spelled out; and R395: a read changes nothing. -/
def Obligations.HostReadsOfControlRegisters : Prop :=
  ∀ s, s.busy = false →
    hostRead .cmd s = .value 0 ∧ hostRead .busy s = .value 0 ∧
    (s.phase = .idle → hostRead .phase s = .value 0) ∧
    (s.status = none → hostRead .status s = .value 0) ∧
    (s.status = some .inputFault → hostRead .status s = .value 1) ∧
    (s.status = some .outputFault → hostRead .status s = .value 2) ∧
    (s.status = some .corruptArchive → hostRead .status s = .value 3) ∧
    (s.status = some .sequenceFault → hostRead .status s = .value 4) ∧
    (s.status = some .illegalCommand → hostRead .status s = .value 5) ∧
    (s.status = some .missingCode → hostRead .status s = .value 6) ∧
    hostRead .faultInfo s = .value s.faultInfo.toNat ∧
    (s.faultUnit = .idle → hostRead .faultUnit s = .value 0) ∧
    (s.faultUnit = .freqScanner → hostRead .faultUnit s = .value 1) ∧
    (s.faultUnit = .treeBuilder → hostRead .faultUnit s = .value 2) ∧
    (s.faultUnit = .codeDeriver → hostRead .faultUnit s = .value 3) ∧
    (s.faultUnit = .headerPacker → hostRead .faultUnit s = .value 4) ∧
    (s.faultUnit = .headerUnpacker → hostRead .faultUnit s = .value 5) ∧
    (s.faultUnit = .bitPacker → hostRead .faultUnit s = .value 6) ∧
    (s.faultUnit = .bitUnpacker → hostRead .faultUnit s = .value 7) ∧
    hostRead .valid s = .value (s.valid.freq.toNat + 2 * s.valid.tree.toNat + 4 * s.valid.code.toNat +
      8 * s.valid.hdrw.toNat + 16 * s.valid.hdrr.toNat + 32 * s.valid.cout.toNat + 64 * s.valid.dout.toNat) ∧
    ∀ port rest, s.host = .read port :: rest → step s = .next { s with host := rest }

/-! ### The shared operations -/

/-- R350: taking a fault: what it writes, that it changes nothing else, and that it ends the unit, the composite the
unit is part of and the command: nothing that would follow runs, and the state it leaves is the command's. -/
def Obligations.FaultEntryWritesTheFaultRecord : Prop :=
  ∀ (c : Cause) (info : BitVec 64) (s : State) (rest : Unit → State → Run Unit),
    let faulted : State :=
      { s with
        status := some c, faultInfo := info, faultUnit := s.phase
        valid := Valid.allClear, phase := .idle, busy := false }
    (raise c info s : Run Unit) = .raised faulted ∧ (raise c info s).andThen rest = .raised faulted ∧
      (Run.raised faulted : Run Unit).finish = .next faulted

/-- R76: `in_byte(a)`. -/
def Obligations.InByteReadsBelowTheLength : Prop :=
  ∀ (a : Addr) (s : State),
    (s.inLen ≤ a → inByte a s =
      .raised (s.enterFault (if s.phase = .headerUnpacker then .corruptArchive else .inputFault) a)) ∧
    (a < s.inLen → s.params.readFails a = true → inByte a s = .raised (s.enterFault .inputFault a)) ∧
    (a < s.inLen → s.params.readFails a = false →
      inByte a s = .ok (s.inAt a.toNat) { s with inPtr := a + 1 })

/-- R77: `emit(v)`. -/
def Obligations.EmitAppendsOneByteBelowTheCapacity : Prop :=
  ∀ (v : Byte) (s : State), Memory.wf s.outMem →
    (s.params.outCap ≤ s.outLen → emit v s = .raised (s.enterFault .outputFault s.outLen)) ∧
    (s.outLen < s.params.outCap → ∃ t, emit v s = .ok () t ∧
      t = { s with outMem := t.outMem, outLen := s.outLen + 1 } ∧ t.outAt s.outLen.toNat = v ∧
      ∀ a, a ≠ s.outLen.toNat → t.outAt a = s.outAt a)

/-- R345, R350, R32, R262: a unit whose prerequisite does not hold raises `SequenceFault` with its command word
as its first step and does nothing more. -/
def Obligations.MissingPrerequisiteRaisesSequenceFault : Prop :=
  ∀ s : State, s.accepting →
    let faulted : Phase → BitVec 64 → Host.Outcome State Fault Refusal := fun unit word =>
      .next { s with
        status := some .sequenceFault, faultInfo := word, faultUnit := unit
        valid := Valid.allClear, phase := .idle }
    (s.valid.freq = false → exec .tbuild s = faulted .treeBuilder 0x02) ∧
    (s.valid.tree = false → exec .cderive s = faulted .codeDeriver 0x03) ∧
    (s.valid.code = false → exec .hpack s = faulted .headerPacker 0x04) ∧
    (s.valid.code = false ∨ s.valid.hdrw = false ∨ s.outLen ≠ s.hdrLen →
      exec .bpack s = faulted .bitPacker 0x06) ∧
    (s.valid.hdrr = false → exec .bunpack s = faulted .bitUnpacker 0x07)

/-! ### FSCAN -/

/-- R143: the counts, their sum, the cursor. -/
def Obligations.FscanCountsEveryByte : Prop :=
  ∀ s : State, s.accepting → s.inputReadable →
    ∃ t : State, exec .fscan s = .next t ∧ t.status = none ∧
      t.valid = { Valid.allClear with freq := true } ∧ t.inPtr = s.inLen ∧
      (∀ b, (t.freq.get b).toNat = s.input.count b) ∧
      (allBytes.map fun b => (t.freq.get b).toNat).sum = s.inLen.toNat

/-- R144: the alphabet size. -/
def Obligations.FscanMeasuresTheAlphabet : Prop :=
  ∀ s : State, s.accepting → s.inputReadable →
    ∃ t : State, exec .fscan s = .next t ∧
      t.alpha.toNat = (allBytes.filter fun b => t.freq.get b ≠ 0).length ∧
      (t.alpha = 0 ↔ s.inLen = 0) ∧ t.alpha.toNat ≤ min s.inLen.toNat 256

/-- R145, R148: an input read error aborts the scan; the lowest failing address is reported. -/
def Obligations.FscanReportsTheLowestFailingAddress : Prop :=
  ∀ (s : State) (a : Addr), s.accepting → a < s.inLen → s.params.readFails a = true →
    (∀ b : Addr, b < a → s.params.readFails b = false) →
    ∃ t : State, exec .fscan s = .next t ∧ t.status = some .inputFault ∧ t.faultInfo = a ∧
      t.faultUnit = .freqScanner ∧ t.valid = Valid.allClear ∧ t.phase = .idle ∧ t.busy = false

/-! ### TBUILD -/

/-- R171: the empty alphabet. -/
def Obligations.TbuildOfTheEmptyAlphabet : Prop :=
  ∀ s : State, s.accepting → s.valid.freq = true → (∀ b, s.freq.get b = 0) →
    ∃ t : State, exec .tbuild s = .next t ∧ t.status = none ∧ t.root = none ∧ t.nodeCount = 0 ∧ t.node = [] ∧
      t.listLen = 0 ∧ t.valid.tree = true

/-- R168: exactly one byte value with a non-zero count; its code is then "0". -/
def Obligations.TbuildOfOneSymbol : Prop :=
  ∀ (s : State) (b : Byte), s.accepting → s.valid.freq = true → s.freq.get b ≠ 0 →
    (∀ c, c ≠ b → s.freq.get c = 0) →
    ∃ t : State, exec .tbuild s = .next t ∧ t.status = none ∧ t.root = some 1 ∧ t.nodeCount = 2 ∧
      t.node = [{ kind := .leaf, left := none, right := none, sym := b, weight := s.freq.get b },
                { kind := .internal, left := some 0, right := none, sym := 0, weight := s.freq.get b }] ∧
      t.list = [1] ∧ t.listLen = 1 ∧ t.valid.tree = true ∧
      ∃ u, exec .cderive t = .next u ∧ u.code.get b = [false]

/-- R162, R165: the leaves in ascending byte-value order at `NODE[0 .. k-1]`, the internal nodes at `k` to
`2k - 2` with both children below them, the root last, one element left in `LIST`. -/
def Obligations.TbuildAllocatesLeavesThenMerges : Prop :=
  ∀ s : State, s.accepting → s.valid.freq = true →
    let k := (counted s.freq).length
    2 ≤ k →
    ∃ t : State, exec .tbuild s = .next t ∧ t.status = none ∧
      t.valid = { Valid.allClear with freq := true, tree := true } ∧
      t.nodeCount.toNat = 2 * k - 1 ∧ t.node.length = 2 * k - 1 ∧
      t.root = some (BitVec.ofNat 17 (2 * k - 2)) ∧ t.list = [BitVec.ofNat 17 (2 * k - 2)] ∧
      t.listLen = 1 ∧
      (∀ (j : Nat) (b : Byte) (w : Count), (counted s.freq)[j]? = some (b, w) →
        t.node[j]? = some { kind := .leaf, left := none, right := none, sym := b, weight := w }) ∧
      (∀ j : Nat, k ≤ j → j < 2 * k - 1 → ∃ (l r : NodeIx) (w : Count),
        t.node[j]? = some { kind := .internal, left := some l, right := some r, sym := 0, weight := w } ∧
        l.toNat < j ∧ r.toNat < j)

/-- R169, R170, R162: from any counts, the arena comes to hold a tree of one of the three shapes, whose leaves
are the counted byte values, each once, and whose every weight is the sum of its children's. `FREQ` is kept. -/
def Obligations.TbuildBuildsAWeightedTree : Prop :=
  ∀ s : State, s.accepting → s.valid.freq = true →
    ∃ (t : State) (T : HTree), exec .tbuild s = .next t ∧ t.status = none ∧ t.freq = s.freq ∧
      t.valid = { Valid.allClear with freq := true, tree := true } ∧ TreeOf t T

/-- R163, R167: the sorted insertion. The new index goes behind the first element, seen from the tail, whose
weight is not strictly less; a list sorted descending stays sorted. -/
def Obligations.InsertionStopsBehindEqualWeights : Prop :=
  ∀ (w : NodeIx → Count) (i : NodeIx) (l : List NodeIx),
    (∃ front back, l = front ++ back ∧ insertSorted w i l = front ++ i :: back ∧
      (∀ x ∈ back, w x < w i) ∧ (∀ x, front.getLast? = some x → w i ≤ w x)) ∧
    (l.Pairwise (fun x y => w y ≤ w x) → (insertSorted w i l).Pairwise (fun x y => w y ≤ w x))

/-- R165, R166: a pass of the merge loop takes the last two elements of `LIST`; the last becomes the left child
and the one before it the right child of a new node whose weight is their sum. -/
def Obligations.MergePassTakesTheLastTwo : Prop :=
  ∀ (s : State) (n : Nat) (rest : List NodeIx) (a b : NodeIx), s.list = rest ++ [b, a] →
    ∃ t : State, mergeAll (n + 1) s = mergeAll n t ∧ t.nodeCount = s.nodeCount + 1 ∧
      t.node = s.node ++ [{ kind := .internal, left := some a, right := some b, sym := 0,
                            weight := s.weight a + s.weight b }] ∧
      t.list.length = rest.length + 1 ∧ t.list.Perm (s.nodeCount :: rest)

/-! ### CDERIVE -/

/-- R193, R194, R195: on a tree TBUILD leaves: every code is the path of its leaf, a byte value without a leaf
has none, `TOTAL_BITS` is the sum of length times frequency, `PADDING` fills the last byte. -/
def Obligations.CderiveGivesEveryLeafItsPath : Prop :=
  ∀ (s : State) (T : HTree), s.accepting → s.valid.tree = true → TreeOf s T →
    ∃ t : State, exec .cderive s = .next t ∧ t.status = none ∧
      t.valid = { s.valid with code := true, hdrw := false, cout := false, dout := false } ∧
      t.freq = s.freq ∧ CodeTableOf t T

/-- R196, R193: the codes are prefix-free and fit 255 bits, and exactly the counted byte values have one. -/
def Obligations.CderiveCodesArePrefixFree : Prop :=
  ∀ (s : State) (T : HTree), s.accepting → s.valid.tree = true → TreeOf s T →
    ∃ t : State, exec .cderive s = .next t ∧ prefixFree t.code ∧ codesFit t.code ∧
      ∀ b, t.code.get b ≠ [] ↔ s.freq.get b ≠ 0

/-! ### HPACK -/

/-- R213, R214, R216: the header in `OUT`, byte by byte. -/
def Obligations.HpackWritesTheHeader : Prop :=
  ∀ s : State, s.accepting → s.valid.code = true → Memory.wf s.outMem →
    present s.code ≠ [] → headerLength s.code ≤ s.params.outCap.toNat →
    ∃ t : State, exec .hpack s = .next t ∧ t.status = none ∧
      t.valid = { s.valid with hdrw := true, cout := false, dout := false } ∧
      t.hdrLen.toNat = headerLength s.code ∧ t.outLen = t.hdrLen ∧
      t.outAt 0 = BitVec.ofNat 8 ((allBytes.filter fun b => s.code.get b ≠ []).length - 1) ∧
      (∀ b, s.code.get b ≠ [] →
        t.outAt (entryOffset s.code b) = b ∧
        t.outAt (entryOffset s.code b + 1) = BitVec.ofNat 8 (s.code.get b).length ∧
        ∀ i bit, (s.code.get b)[i]? = some bit →
          t.outAt (entryOffset s.code b + 2 + i) = if bit then 0x31 else 0x30) ∧
      t.outAt (headerLength s.code - 1) = s.padding.setWidth 8 ∧
      ∀ a, headerLength s.code ≤ a → t.outAt a = s.outAt a

/-- R217: the empty table. -/
def Obligations.HpackOfTheEmptyTable : Prop :=
  ∀ s : State, s.accepting → s.valid.code = true → (∀ b, s.code.get b = []) →
    ∃ t : State, exec .hpack s = .next t ∧ t.status = none ∧ t.outLen = 0 ∧ t.hdrLen = 0 ∧ t.valid.hdrw = true ∧
      t.outMem = s.outMem

/-- R219, R343: a header longer than `OUT`. -/
def Obligations.HpackFaultsWhenOutIsFull : Prop :=
  ∀ s : State, s.accepting → s.valid.code = true → s.params.outCap.toNat < headerLength s.code →
    ∃ t : State, exec .hpack s = .next t ∧ t.status = some .outputFault ∧ t.faultInfo = s.params.outCap ∧
      t.faultUnit = .headerPacker ∧ t.valid = Valid.allClear ∧
      ∀ a, s.params.outCap.toNat ≤ a → t.outAt a = s.outAt a

/-! ### BPACK -/

/-- R264, R265, R266, R262, R269: the payload, bit by bit, its last byte flushed whenever the number of code bits
is not a multiple of 8, its padding bits 0. -/
def Obligations.BpackWritesTheCodeBits : Prop :=
  ∀ s : State, s.accepting → s.valid.code = true → s.valid.hdrw = true → s.outLen = s.hdrLen →
    s.inputReadable → Memory.wf s.outMem → (∀ b ∈ s.input, s.code.get b ≠ []) →
    let bits := codeBits s.code s.input
    let bytes := (bits.length + 7) / 8
    s.hdrLen.toNat + bytes ≤ s.params.outCap.toNat →
    ∃ t : State, exec .bpack s = .next t ∧ t.status = none ∧
      t.valid = { s.valid with cout := true, dout := false } ∧
      t.payLen.toNat = bytes ∧ t.outLen.toNat = s.hdrLen.toNat + bytes ∧ t.symCount = s.inLen ∧
      t.inPtr = s.inLen ∧ t.pkAcc = 0 ∧ t.pkPos = 7 ∧
      (∀ k bit, bits[k]? = some bit → streamBit t.outAt s.hdrLen.toNat k = bit) ∧
      (∀ k, bits.length ≤ k → k < 8 * bytes → streamBit t.outAt s.hdrLen.toNat k = false) ∧
      (∀ a, a < s.hdrLen.toNat ∨ t.outLen.toNat ≤ a → t.outAt a = s.outAt a)

/-- R268: the first input byte without a code. The capacity allows the bytes its predecessors complete. -/
def Obligations.BpackReportsTheFirstByteWithoutCode : Prop :=
  ∀ (s : State) (n : Nat) (b : Byte), s.accepting → s.valid.code = true → s.valid.hdrw = true →
    s.outLen = s.hdrLen → s.input[n]? = some b → s.code.get b = [] →
    (∀ c ∈ s.input.take n, s.code.get c ≠ []) →
    (∀ a : Addr, a.toNat ≤ n → s.params.readFails a = false) →
    s.hdrLen.toNat + (codeBits s.code (s.input.take n)).length / 8 ≤ s.params.outCap.toNat →
    ∃ t : State, exec .bpack s = .next t ∧ t.status = some .missingCode ∧ t.faultInfo.toNat = n ∧
      t.faultUnit = .bitPacker ∧ t.valid = Valid.allClear

/-! ### HUNPACK -/

/-- R232: the empty archive. -/
def Obligations.HunpackOfTheEmptyArchive : Prop :=
  ∀ s : State, s.accepting → s.inLen = 0 →
    ∃ t : State, exec .hunpack s = .next t ∧ t.status = none ∧ t.root = none ∧ t.nodeCount = 0 ∧ t.alpha = 0 ∧
      t.padding = 0 ∧ t.hdrLen = 0 ∧ t.inPtr = 0 ∧ t.valid = { Valid.allClear with hdrr := true }

/-- R237, R341: whatever stands in `IN`, HUNPACK ends: with a header read (`ROOT` = 0, `HDR_LEN` = `IN_PTR` at
most `IN_LEN`, `ALPHA` one more than the count byte, every weight 0), or with one of its two faults, the
fault record naming an address. -/
def Obligations.HunpackAlwaysEnds : Prop :=
  ∀ s : State, s.accepting → s.inLen ≠ 0 →
    ∃ t : State, exec .hunpack s = .next t ∧
      ((t.status = none ∧ t.valid = { Valid.allClear with hdrr := true } ∧ t.root = some 0 ∧
          t.hdrLen = t.inPtr ∧ t.hdrLen ≤ s.inLen ∧ t.alpha.toNat = (s.inAt 0).toNat + 1 ∧
          t.huCount = 0 ∧ ∀ n ∈ t.node, n.weight = 0) ∨
       (t.status = some .corruptArchive ∧ t.faultUnit = .headerUnpacker ∧ t.faultInfo ≤ s.inLen) ∨
       (t.status = some .inputFault ∧ t.faultUnit = .headerUnpacker ∧ t.faultInfo < s.inLen ∧
          s.params.readFails t.faultInfo = true))

/-- R246, R237, R247, R243, R244: reading any header a reader accepts, its entries in any order and a byte value in as
many of them as it likes, gives back the header's length, padding and number of entries, and a tree in which the leaf
of `b` stands at `p` exactly when an entry gives `b` the code `p`. -/
def Obligations.HunpackRebuildsTheCodeTree : Prop :=
  ∀ (s : State) (entries : List (Byte × Code)) (pad : BitVec 3), s.accepting → s.inputReadable →
    EntriesOk entries →
    let h := headerOf entries pad
    h.length ≤ s.inLen.toNat → (∀ k v, h[k]? = some v → s.inAt k = v) →
    ∃ (t : State) (T : HTree), exec .hunpack s = .next t ∧ t.status = none ∧
      t.valid = { Valid.allClear with hdrr := true } ∧
      t.hdrLen.toNat = h.length ∧ t.inPtr = t.hdrLen ∧ t.padding = pad ∧
      t.alpha.toNat = entries.length ∧ t.root = some 0 ∧
      Represents t t.root T ∧ T.isFork = true ∧ T.leaves.length = entries.length ∧
      (∀ n ∈ t.node, n.weight = 0) ∧ ∀ p b, T.leafAt p = some b ↔ (b, p) ∈ entries

/-- R240, R241, R242, R245, R239: the content checks, each at the address of the byte that fails it. `p` is
`IN_PTR`, the address of the next header byte (R236). Only the fault record is stated (U6). -/
def Obligations.HeaderChecksNameTheOffendingByte : Prop :=
  ∀ (s : State) (sym : Byte) (cur : NodeIx), s.inPtr < s.inLen → s.params.readFails s.inPtr = false →
    let p := s.inPtr
    let corruptAt : Run Unit → Addr → Prop := fun run a =>
      ∃ t, run = .raised t ∧ t.status = some .corruptArchive ∧ t.faultInfo = a ∧ t.faultUnit = s.phase ∧
        t.valid = Valid.allClear
    let steps : Node → NodeIx → Prop := fun nd ch =>
      s.inAt p.toNat = 0x30 ∧ nd.left = some ch ∨ s.inAt p.toNat = 0x31 ∧ nd.right = some ch
    -- R240, for the length byte at `p + 1`
    (p + 1 < s.inLen → s.params.readFails (p + 1) = false → s.inAt (p + 1).toNat = 0 →
      corruptAt (readEntry s) (p + 1)) ∧
    -- R242
    (∀ n, s.inAt p.toNat ≠ 0x30 → s.inAt p.toNat ≠ 0x31 → corruptAt (walkPath sym (n + 1) cur s) p) ∧
    -- R245 (a)
    (∀ n nd ch leaf, steps nd ch → s.nodeAt cur = some nd → s.nodeAt ch = some leaf → leaf.kind = .leaf →
      corruptAt (walkPath sym (n + 2) cur s) p) ∧
    -- R245 (b)
    (∀ nd ch, steps nd ch → s.nodeAt cur = some nd → corruptAt (walkPath sym 1 cur s) p) ∧
    -- R241
    (7 < (s.inAt p.toNat).toNat → corruptAt (readPadding s) p)

/-! ### BUNPACK -/

/-- R284, R287, R290, R291: when the meaningful bits are a sequence of leaf paths of the tree, BUNPACK writes
the leaves' symbols in order and nothing else. -/
def Obligations.BunpackDecodesLeafPaths : Prop :=
  ∀ (s : State) (T : HTree) (pieces : List (Code × Byte)), s.accepting → s.valid.hdrr = true →
    Represents s s.root T → T.isFork = true → s.hdrLen < s.inLen → s.inputReadable →
    Memory.wf s.outMem → payloadBits s = pieces.flatMap Prod.fst →
    (∀ pc ∈ pieces, T.leafAt pc.1 = some pc.2) → pieces.length ≤ s.params.outCap.toNat →
    ∃ t : State, exec .bunpack s = .next t ∧ t.status = none ∧
      t.valid = { s.valid with cout := false, dout := true } ∧
      t.output = pieces.map Prod.snd ∧ t.outLen.toNat = pieces.length ∧
      t.symCount.toNat = pieces.length ∧ t.payLen = s.inLen - s.hdrLen ∧ t.inPtr = s.inLen ∧
      t.upCur = s.root ∧ t.upPos = 7 ∧ (∀ a, pieces.length ≤ a → t.outAt a = s.outAt a)

/-- R285: the empty cases. -/
def Obligations.BunpackEmptyCases : Prop :=
  ∀ s : State, s.accepting → s.valid.hdrr = true →
    (s.root = none → ∃ t : State, exec .bunpack s = .next t ∧ t.status = none ∧ t.outLen = 0 ∧
      t.valid.dout = true ∧ t.outMem = s.outMem) ∧
    (s.root ≠ none → s.inLen = s.hdrLen → ∃ t : State, exec .bunpack s = .next t ∧
      t.status = some .corruptArchive ∧ t.faultInfo = s.inLen ∧ t.faultUnit = .bitUnpacker ∧
      t.valid = Valid.allClear)

/-- R288: a bit that selects a `NULL` child, at the address of the payload byte that holds it. -/
def Obligations.BunpackFaultsOnANullChild : Prop :=
  ∀ (s : State) (T l r : HTree) (w : Count) (pieces : List (Code × Byte)) (p rest : Code) (bit : Bool),
    s.accepting → s.valid.hdrr = true → Represents s s.root T → T.isFork = true → s.hdrLen < s.inLen →
    s.inputReadable → payloadBits s = pieces.flatMap Prod.fst ++ p ++ bit :: rest →
    (∀ pc ∈ pieces, T.leafAt pc.1 = some pc.2) → pieces.length ≤ s.params.outCap.toNat →
    T.sub p = .fork w l r → (if bit then r else l) = .null →
    ∃ t : State, exec .bunpack s = .next t ∧ t.status = some .corruptArchive ∧
      t.faultInfo.toNat = s.hdrLen.toNat + ((pieces.flatMap Prod.fst).length + p.length) / 8 ∧
      t.faultUnit = .bitUnpacker ∧ t.valid = Valid.allClear

/-- R289: the meaningful bits end inside a code. -/
def Obligations.BunpackFaultsInsideACode : Prop :=
  ∀ (s : State) (T : HTree) (pieces : List (Code × Byte)) (p : Code),
    s.accepting → s.valid.hdrr = true → Represents s s.root T → T.isFork = true → s.hdrLen < s.inLen →
    s.inputReadable → payloadBits s = pieces.flatMap Prod.fst ++ p →
    (∀ pc ∈ pieces, T.leafAt pc.1 = some pc.2) → pieces.length ≤ s.params.outCap.toNat →
    p ≠ [] → (T.sub p).isFork = true →
    ∃ t : State, exec .bunpack s = .next t ∧ t.status = some .corruptArchive ∧ t.faultInfo = s.inLen - 1 ∧
      t.faultUnit = .bitUnpacker ∧ t.valid = Valid.allClear

/-- R286, U3: the padding bits of the last payload byte are never examined: two inputs that differ only there
end alike but for `UP_BYTE`. -/
def Obligations.BunpackIgnoresPaddingBits : Prop :=
  ∀ (s t : State) (m : Memory), s.hdrLen ≤ s.inLen →
    (∀ a, a + 1 < s.inLen.toNat → Memory.read a m = s.inAt a) →
    (∀ pos, s.padding.toNat ≤ pos → pos < 8 →
      (Memory.read (s.inLen.toNat - 1) m).getLsbD pos = (s.inAt (s.inLen.toNat - 1)).getLsbD pos) →
    exec .bunpack s = .next t →
    ∃ u, exec .bunpack { s with inMem := m } = .next u ∧ u.observe = t.observe ∧
      (t.status = none → u = { t with inMem := m, upByte := u.upByte })

/-! ### The composites -/

/-- R313: a composite ends in the state of its unit commands issued one after the other, faults included. -/
def Obligations.CompositesEqualTheirUnitSequences : Prop :=
  ∀ s : State, s.accepting →
    exec .compress s = runCommands [.fscan, .tbuild, .cderive, .hpack, .bpack] s ∧
    exec .decompress s = runCommands [.hunpack, .bunpack] s

/-- R310: from any accepting state COMPRESS ends, with the flags of its five units or with `InputFault` or
`OutputFault`; `SequenceFault` and `MissingCode` cannot occur. -/
def Obligations.CompressHasOnlyItsTwoFaults : Prop :=
  ∀ s : State, s.accepting → ∃ t : State, exec .compress s = .next t ∧
    ((t.status = none ∧ t.valid.word = 0b0101111) ∨ t.status = some .inputFault ∨
      t.status = some .outputFault)

/-- R310: COMPRESS succeeds when every input byte is readable and `OUT` has room for the largest header, at most
2 + 256 x (2 + 255) bytes, and at most 255 bits per input byte. -/
def Obligations.CompressSucceeds : Prop :=
  ∀ s : State, s.accepting → s.inputReadable → 65794 + 255 * s.inLen.toNat ≤ s.params.outCap.toNat →
    ∃ t : State, exec .compress s = .next t ∧ t.status = none ∧ t.valid.word = 0b0101111 ∧ t.inPtr = s.inLen ∧
      t.symCount = s.inLen ∧ (∀ b, (t.freq.get b).toNat = s.input.count b) ∧
      t.outLen = t.hdrLen + t.payLen ∧ t.inMem = s.inMem

/-- R311: from any accepting state DECOMPRESS ends, with the flags of its two units or with one of its three
faults. -/
def Obligations.DecompressHasOnlyItsThreeFaults : Prop :=
  ∀ s : State, s.accepting → ∃ t : State, exec .decompress s = .next t ∧
    ((t.status = none ∧ t.valid.word = 0b1010000) ∨ t.status = some .corruptArchive ∨
      t.status = some .inputFault ∨ t.status = some .outputFault)

/-- R311, R115, R117, R243, R292: DECOMPRESS of an archive, its header any that a reader accepts (entries in any order,
repeated byte values) and its payload the packed codes of a non-empty sequence of its entries, whatever the padding
bits: the output is their byte values. -/
def Obligations.DecompressDecodesArchives : Prop :=
  ∀ (s : State) (entries : List (Byte × Code)) (pad : BitVec 3) (sent : List (Byte × Code)),
    s.accepting → s.inputReadable → Memory.wf s.outMem → EntriesOk entries → sent ≠ [] →
    (∀ e ∈ sent, e ∈ entries) →
    let h := headerOf entries pad
    let bits := sent.flatMap Prod.snd
    pad.toNat = (8 - bits.length % 8) % 8 → s.inLen.toNat = h.length + (bits.length + 7) / 8 →
    (∀ k v, h[k]? = some v → s.inAt k = v) →
    (∀ k bit, bits[k]? = some bit → streamBit s.inAt h.length k = bit) →
    sent.length ≤ s.params.outCap.toNat →
    ∃ t : State, exec .decompress s = .next t ∧ t.status = none ∧ t.valid.word = 0b1010000 ∧
      t.output = sent.map Prod.fst

/-- R267: padding correctness of a compression of a non-empty input. -/
def Obligations.PaddingAccountsForThePayload : Prop :=
  ∀ s t : State, s.accepting → s.inLen ≠ 0 → exec .compress s = .next t → t.status = none →
    t.totalBits.toNat = (codeBits t.code s.input).length ∧
    t.payLen.toNat = (t.totalBits.toNat + 7) / 8 ∧
    (8 - t.padding.toNat) + 8 * (t.payLen.toNat - 1) = t.totalBits.toNat ∧
    t.outLen.toNat = t.hdrLen.toNat + t.payLen.toNat

/-- R218, R168, R271: the archive of `N` copies of one byte value: a header of exactly 5 bytes and a payload of
zero bits, flushed. -/
def Obligations.ArchiveOfOneSymbol : Prop :=
  ∀ (s : State) (b : Byte), s.accepting → s.inputReadable → Memory.wf s.outMem → s.inLen ≠ 0 →
    (∀ c ∈ s.input, c = b) → 5 + (s.inLen.toNat + 7) / 8 ≤ s.params.outCap.toNat →
    ∃ t : State, exec .compress s = .next t ∧ t.status = none ∧ t.hdrLen = 5 ∧
      t.output = [0x00, b, 0x01, 0x30, BitVec.ofNat 8 ((8 - s.inLen.toNat % 8) % 8)] ++
        List.replicate ((s.inLen.toNat + 7) / 8) 0x00

/-- R316: the round trip, for every input, the empty one included; with it the other properties of source §8
(R317). -/
def Obligations.DecompressInvertsCompress : Prop :=
  ∀ s t u : State, s.accepting → Memory.wf s.outMem → exec .compress s = .next t → t.status = none →
    u.accepting → Memory.wf u.outMem → u.input = t.output → u.inputReadable →
    s.inLen ≤ u.params.outCap →
    ∃ v, exec .decompress u = .next v ∧ v.status = none ∧ v.observe = .succeeded s.input ∧ SourceProperties s t v

/-! ### Whole-machine rules -/

/-- The invariant holds at reset. -/
def Obligations.ResetMeetsTheInvariant : Prop := Inv State.reset

/-- Every step keeps the invariant, from every state that meets it. -/
def Obligations.StepKeepsTheInvariant : Prop :=
  ∀ s t : State, Inv s → step s = .next t → Inv t

/-- R31, R38, R35, R196: what the flags vouch for, kept by every step: while `V_TREE` is set the arena holds a tree
over the counted byte values, while `V_CODE` is set `CODE`, `TOTAL_BITS` and `PADDING` hold the code table of that tree
and the codes are prefix-free, and no code outgrows its entry. -/
def Obligations.FlagsVouchForTreeAndCodes : Prop :=
  ∀ s t : State, Inv s → Vouched s → step s = .next t → Vouched t

/-- R318: from every state that meets the invariant the step gives a next state; the model's two stops and its
refusals are not met. -/
def Obligations.InvariantStatesAlwaysStep : Prop :=
  ∀ s : State, Inv s → ∃ t : State, step s = .next t

/-- R26: `STATUS`, `FAULT_INFO` and `FAULT_UNIT` keep their values until `CLEAR` or a hardware reset; while
faulted only `IN` can change. -/
def Obligations.FaultRecordIsSticky : Prop :=
  ∀ (s t : State) (c : Cause), s.status = some c → step s = .next t →
    (∀ rest, s.host ≠ .writeCmd 0x0A :: rest) → (∀ rest, s.host ≠ .hardReset :: rest) →
    (∀ w cut rest, s.host ≠ .resetDuring w cut :: rest) →
    t = { s with inMem := t.inMem, host := t.host }

/-- R70, R351, R7: the block never writes `IN`, and no step changes the open parameters. -/
def Obligations.OnlyTheHostWritesInput : Prop :=
  ∀ s t : State, step s = .next t →
    t.params = s.params ∧ ((∀ a v rest, s.host ≠ .writeIn a v :: rest) → t.inMem = s.inMem)

/-- R343, R77: no command writes at or above `OUT_CAP`; an `OutputFault` is raised when `OUT_LEN` has reached it,
by a unit that writes. -/
def Obligations.NoCommandWritesAtTheCapacity : Prop :=
  ∀ (i : Instr) (s t : State), exec i s = .next t →
    (∀ a, s.params.outCap.toNat ≤ a → t.outAt a = s.outAt a) ∧
    (s.accepting → s.outLen ≤ s.params.outCap → t.status = some .outputFault →
      t.faultInfo = s.params.outCap ∧
      t.faultUnit ∈ [Phase.headerPacker, .bitPacker, .bitUnpacker])

/-- R341: which unit raises which fault, and what `FAULT_INFO` then holds. -/
def Obligations.FaultTableByUnit : Prop :=
  ∀ (i : Instr) (s t : State), Inv s → s.status = none → exec i s = .next t →
    match t.status with
    | none => True
    | some .inputFault =>
      t.faultUnit ∈ [Phase.freqScanner, .headerUnpacker, .bitPacker, .bitUnpacker] ∧
        t.faultInfo < s.inLen ∧ s.params.readFails t.faultInfo = true
    | some .outputFault =>
      t.faultUnit ∈ [Phase.headerPacker, .bitPacker, .bitUnpacker] ∧ t.faultInfo = s.params.outCap
    | some .corruptArchive =>
      t.faultUnit ∈ [Phase.headerUnpacker, .bitUnpacker] ∧ t.faultInfo ≤ s.inLen
    | some .sequenceFault =>
      (t.faultUnit, t.faultInfo) ∈ [(Phase.treeBuilder, 0x02), (.codeDeriver, 0x03), (.headerPacker, 0x04),
        (.bitPacker, 0x06), (.bitUnpacker, 0x07)]
    | some .illegalCommand => False
    | some .missingCode =>
      i = .bpack ∧ t.faultUnit = .bitPacker ∧ t.faultInfo < s.inLen ∧
        s.code.get (s.inAt t.faultInfo.toNat) = []

/-! ### Frames

A command that ends in a fault promises only the fault record, the cleared flags, `PHASE`, `BUSY`, `IN_LEN` and `IN`
(U6: "no theorem may depend on" the rest), so the whole frame is stated of the commands that end without one:
`STATUS` after is `STATUS` before. That covers the commands a faulted block ignores (R301). -/

/-- What a command that ends in a fault leaves (U6, R350, R351), whichever command it is: `IN_LEN`,
`IN`, the open parameters and the host's moves are as before, all flags are clear, `PHASE` and `BUSY` are 0. -/
def Obligations.FrameOfAFault : Prop :=
  ∀ (i : Instr) (s t : State), exec i s = .next t → s.status = none → t.status ≠ none →
    i ≠ .clear ∧ t.inLen = s.inLen ∧ t.inMem = s.inMem ∧ t.params = s.params ∧ t.host = s.host ∧
      t.valid = Valid.allClear ∧ t.phase = .idle ∧ t.busy = false

/-- What FSCAN, TBUILD, CDERIVE and HUNPACK leave alone when they end without a fault: every register, flag
and register file the equation does not name (R141, R161, R191, R231; the flags of R32 and `PHASE` are the
ones each writes), every byte of `IN` and of `OUT`. -/
def Obligations.FrameOfTheUnitsThatStoreNothing : Prop :=
  ∀ s t : State, t.status = s.status →
    (exec .fscan s = .next t → t = { s with
      freq := t.freq, alpha := t.alpha, inPtr := t.inPtr, valid := t.valid, phase := t.phase }) ∧
    (exec .tbuild s = .next t → t = { s with
      node := t.node, nodeCount := t.nodeCount, root := t.root, list := t.list, listLen := t.listLen
      valid := t.valid, phase := t.phase } ∧ t.valid.freq = s.valid.freq) ∧
    (exec .cderive s = .next t → t = { s with
      code := t.code, totalBits := t.totalBits, padding := t.padding
      valid := { s.valid with code := t.valid.code, hdrw := t.valid.hdrw, cout := t.valid.cout, dout := t.valid.dout }
      phase := t.phase }) ∧
    (exec .hunpack s = .next t → t = { s with
      node := t.node, nodeCount := t.nodeCount, root := t.root, padding := t.padding, hdrLen := t.hdrLen
      alpha := t.alpha, huCount := t.huCount, inPtr := t.inPtr, valid := t.valid, phase := t.phase })

/-- What HPACK, BPACK and BUNPACK leave alone when they end without a fault (R211, R261, R281): every register,
flag and register file the equation does not name, and every byte of `OUT` outside the bytes they append: from
0 (R215, R283) or, for BPACK, from `OUT_LEN` (R262) up to the new `OUT_LEN`. -/
def Obligations.FrameOfTheUnitsThatStore : Prop :=
  ∀ s t : State, t.status = s.status →
    (exec .hpack s = .next t → (∀ a, t.outLen.toNat ≤ a → t.outAt a = s.outAt a) ∧ t = { s with
      outMem := t.outMem, outLen := t.outLen, hdrLen := t.hdrLen
      valid := { s.valid with hdrw := t.valid.hdrw, cout := t.valid.cout, dout := t.valid.dout }
      phase := t.phase }) ∧
    (exec .bpack s = .next t →
      (∀ a, a < s.outLen.toNat ∨ t.outLen.toNat ≤ a → t.outAt a = s.outAt a) ∧ t = { s with
      outMem := t.outMem, outLen := t.outLen, payLen := t.payLen, symCount := t.symCount
      pkAcc := t.pkAcc, pkPos := t.pkPos, inPtr := t.inPtr
      valid := { s.valid with cout := t.valid.cout, dout := t.valid.dout }, phase := t.phase }) ∧
    (exec .bunpack s = .next t → (∀ a, t.outLen.toNat ≤ a → t.outAt a = s.outAt a) ∧ t = { s with
      outMem := t.outMem, outLen := t.outLen, payLen := t.payLen, symCount := t.symCount
      upCur := t.upCur, upPos := t.upPos, upByte := t.upByte, inPtr := t.inPtr
      valid := { s.valid with cout := t.valid.cout, dout := t.valid.dout }, phase := t.phase })

/-- What COMPRESS and DECOMPRESS leave alone when they end without a fault: what none of their units writes
(R310, R311), and every byte of `OUT` at or above the new `OUT_LEN`. -/
def Obligations.FrameOfTheComposites : Prop :=
  ∀ s t : State, t.status = s.status →
    (exec .compress s = .next t → (∀ a, t.outLen.toNat ≤ a → t.outAt a = s.outAt a) ∧ t = { s with
      freq := t.freq, alpha := t.alpha, inPtr := t.inPtr, node := t.node, nodeCount := t.nodeCount
      root := t.root, list := t.list, listLen := t.listLen, code := t.code, totalBits := t.totalBits
      padding := t.padding, outMem := t.outMem, outLen := t.outLen, hdrLen := t.hdrLen
      payLen := t.payLen, symCount := t.symCount, pkAcc := t.pkAcc, pkPos := t.pkPos, valid := t.valid
      phase := t.phase }) ∧
    (exec .decompress s = .next t → (∀ a, t.outLen.toNat ≤ a → t.outAt a = s.outAt a) ∧ t = { s with
      node := t.node, nodeCount := t.nodeCount, root := t.root, padding := t.padding, hdrLen := t.hdrLen
      alpha := t.alpha, huCount := t.huCount, inPtr := t.inPtr, outMem := t.outMem, outLen := t.outLen
      payLen := t.payLen, symCount := t.symCount, upCur := t.upCur, upPos := t.upPos
      upByte := t.upByte, valid := t.valid, phase := t.phase })
end

