-- ==== Sys2Proof/Laws/Memory.lean ====
section
/-! SUPPORT. The laws of a byte memory: reading after writing, and that a write keeps the canonical form. -/

namespace Sys2Proof.Machine

theorem Memory.read_eq_unwritten {a : Nat} {m : Memory} (h : ∀ c ∈ m, a ≠ c.1) :
    Memory.read a m = Config.unwritten := by
  induction m with
  | nil => rfl
  | cons c m ih =>
    obtain ⟨b, w⟩ := c
    have hb : b ≠ a := fun e => h (b, w) (by simp) e.symm
    rw [Memory.read, if_neg hb]
    exact ih fun c hc => h c (List.mem_cons_of_mem _ hc)

theorem Memory.read_cons_ne {a b : Nat} (v : Byte) (m : Memory) (h : b ≠ a) :
    Memory.read a (Memory.cons b v m) = Memory.read a m := by
  unfold Memory.cons
  split
  · rfl
  · rw [Memory.read, if_neg h]

/-- A write leaves every other address alone. -/
theorem Memory.read_write_ne {a b : Nat} (v : Byte) (m : Memory) (h : b ≠ a) :
    Memory.read a (Memory.write b v m) = Memory.read a m := by
  induction m with
  | nil => exact Memory.read_cons_ne v [] h
  | cons c m ih =>
    obtain ⟨d, w⟩ := c
    rw [Memory.write]
    split
    · exact Memory.read_cons_ne v _ h
    · split
      · next hd => subst hd; rw [Memory.read_cons_ne v _ h, Memory.read, if_neg h]
      · rw [Memory.read, Memory.read, ih]

theorem Memory.wf_tail {c : Host.Cell} {m : Memory} (h : Memory.wf (c :: m)) : Memory.wf m :=
  ⟨(List.pairwise_cons.1 h.1).2, fun d hd => h.2 d (List.mem_cons_of_mem _ hd)⟩

theorem Memory.read_cons_self {a : Nat} (v : Byte) {m : Memory} (h : ∀ c ∈ m, a ≠ c.1) :
    Memory.read a (Memory.cons a v m) = v := by
  unfold Memory.cons
  split
  · next hv => rw [hv]; exact Memory.read_eq_unwritten h
  · simp [Memory.read]

/-- A read after a write to the same address gives the byte written. -/
theorem Memory.read_write_self {a : Nat} (v : Byte) {m : Memory} (h : Memory.wf m) :
    Memory.read a (Memory.write a v m) = v := by
  induction m with
  | nil => exact Memory.read_cons_self v (by simp)
  | cons c m ih =>
    obtain ⟨d, w⟩ := c
    have hd := (List.pairwise_cons.1 h.1).1
    rw [Memory.write]
    split
    · next ha =>
      refine Memory.read_cons_self v fun c hc => ?_
      rcases List.mem_cons.1 hc with rfl | hc
      · exact Nat.ne_of_lt ha
      · exact Nat.ne_of_lt (Nat.lt_trans ha (hd c hc))
    · split
      · next ha => subst ha; exact Memory.read_cons_self v fun c hc => Nat.ne_of_lt (hd c hc)
      · next hne => rw [Memory.read, if_neg (Ne.symm hne)]; exact ih (Memory.wf_tail h)

theorem Memory.read_write {a b : Nat} (v : Byte) {m : Memory} (h : Memory.wf m) :
    Memory.read a (Memory.write b v m) = if b = a then v else Memory.read a m := by
  split
  · next e => subst e; exact Memory.read_write_self v h
  · next e => exact Memory.read_write_ne v m e

theorem Memory.mem_cons {a : Nat} {v : Byte} {m : Memory} {c : Host.Cell} (h : c ∈ Memory.cons a v m) :
    (c = (a, v) ∧ v ≠ Config.unwritten) ∨ c ∈ m := by
  unfold Memory.cons at h
  split at h
  · exact .inr h
  · next hv => exact (List.mem_cons.1 h).imp_left fun e => ⟨e, hv⟩

theorem Memory.mem_write {a : Nat} {v : Byte} {m : Memory} {c : Host.Cell} (h : c ∈ Memory.write a v m) :
    (c = (a, v) ∧ v ≠ Config.unwritten) ∨ c ∈ m := by
  induction m with
  | nil => exact Memory.mem_cons h
  | cons d m ih =>
    obtain ⟨b, w⟩ := d
    rw [Memory.write] at h
    split at h
    · exact Memory.mem_cons h
    · split at h
      · exact (Memory.mem_cons h).imp_right (List.mem_cons_of_mem _)
      · rcases List.mem_cons.1 h with rfl | h
        · exact .inr (by simp)
        · exact (ih h).imp_right (List.mem_cons_of_mem _)

theorem Memory.cons_wf {a : Nat} (v : Byte) {m : Memory} (ha : a < 2 ^ 64) (h : Memory.wf m)
    (hm : ∀ c ∈ m, a < c.1) : Memory.wf (Memory.cons a v m) := by
  unfold Memory.cons
  split
  · exact h
  · next hv =>
    refine ⟨List.pairwise_cons.2 ⟨hm, h.1⟩, fun c hc => ?_⟩
    rcases List.mem_cons.1 hc with rfl | hc
    · exact ⟨ha, hv⟩
    · exact h.2 c hc

/-- A write keeps the canonical form. -/
theorem Memory.write_wf {a : Nat} (v : Byte) {m : Memory} (ha : a < 2 ^ 64) (h : Memory.wf m) :
    Memory.wf (Memory.write a v m) := by
  induction m with
  | nil => exact Memory.cons_wf v ha h (by simp)
  | cons c m ih =>
    obtain ⟨b, w⟩ := c
    have hb := (List.pairwise_cons.1 h.1).1
    have ht := Memory.wf_tail h
    rw [Memory.write]
    split
    · next hab =>
      refine Memory.cons_wf v ha h fun c hc => ?_
      rcases List.mem_cons.1 hc with rfl | hc
      · exact hab
      · exact Nat.lt_trans hab (hb c hc)
    · split
      · next hab => subst hab; exact Memory.cons_wf v ha ht hb
      · next hlt hne =>
        refine ⟨List.pairwise_cons.2 ⟨fun c hc => ?_, (ih ht).1⟩, fun c hc => ?_⟩
        · rcases Memory.mem_write hc with ⟨rfl, -⟩ | hc
          · show b < a; omega
          · exact hb c hc
        · rcases List.mem_cons.1 hc with rfl | hc
          · exact h.2 _ (by simp)
          · exact (ih ht).2 c hc

theorem Memory.read_head {b : Nat} {w : Byte} {m : Memory} : Memory.read b ((b, w) :: m) = w := by
  simp [Memory.read]

/-- In canonical form, memories that read the same everywhere are the same list. -/
theorem Memory.ext_read {m n : Memory} (hm : Memory.wf m) (hn : Memory.wf n)
    (h : ∀ a, Memory.read a m = Memory.read a n) : m = n := by
  have low : ∀ {a : Nat} {p : Memory}, (∀ c ∈ p, a < c.1) → Memory.read a p = Config.unwritten :=
    fun hp => Memory.read_eq_unwritten fun c hc => Nat.ne_of_lt (hp c hc)
  induction m generalizing n with
  | nil =>
    cases n with
    | nil => rfl
    | cons d n =>
      obtain ⟨b, w⟩ := d
      have := h b
      rw [Memory.read_head] at this
      exact absurd this.symm (hn.2 (b, w) (by simp)).2
  | cons c m ih =>
    obtain ⟨a, v⟩ := c
    have hma := (List.pairwise_cons.1 hm.1).1
    cases n with
    | nil =>
      have := h a
      rw [Memory.read_head] at this
      exact absurd this (hm.2 (a, v) (by simp)).2
    | cons d n =>
      obtain ⟨b, w⟩ := d
      have hnb := (List.pairwise_cons.1 hn.1).1
      have hva : v ≠ Config.unwritten := (hm.2 (a, v) (by simp)).2
      have hwb : w ≠ Config.unwritten := (hn.2 (b, w) (by simp)).2
      rcases Nat.lt_trichotomy a b with hab | hab | hab
      · have e := h a
        rw [Memory.read_head, low (by
          intro c hc
          rcases List.mem_cons.1 hc with rfl | hc
          · exact hab
          · exact Nat.lt_trans hab (hnb c hc))] at e
        exact absurd e hva
      · subst hab
        have e := h a
        rw [Memory.read_head, Memory.read_head] at e
        subst e
        congr 1
        refine ih (Memory.wf_tail hm) (Memory.wf_tail hn) fun x => ?_
        by_cases hx : a = x
        · subst hx; rw [low hma, low hnb]
        · have := h x; rwa [Memory.read, Memory.read, if_neg hx, if_neg hx] at this
      · have e := h b
        rw [Memory.read_head, low (by
          intro c hc
          rcases List.mem_cons.1 hc with rfl | hc
          · exact hab
          · exact Nat.lt_trans hab (hma c hc))] at e
        exact absurd e.symm hwb

theorem Memory.reset_wf : Memory.wf State.reset.inMem ∧ Memory.wf State.reset.outMem := by decide

end Sys2Proof.Machine
end

