-- ==== Sys2Proof/Laws/State.lean ====
section
/-! SUPPORT. One lemma per field per named update of State, each true by rfl, so that no proof unfolds a
record update. -/

namespace Sys2Proof.Machine

section enterFault
variable (c : Cause) (info : BitVec 64) (s : State)
@[simp] theorem State.enterFault_inLen : (s.enterFault c info).inLen = s.inLen := rfl
@[simp] theorem State.enterFault_inPtr : (s.enterFault c info).inPtr = s.inPtr := rfl
@[simp] theorem State.enterFault_outLen : (s.enterFault c info).outLen = s.outLen := rfl
@[simp] theorem State.enterFault_alpha : (s.enterFault c info).alpha = s.alpha := rfl
@[simp] theorem State.enterFault_root : (s.enterFault c info).root = s.root := rfl
@[simp] theorem State.enterFault_nodeCount : (s.enterFault c info).nodeCount = s.nodeCount := rfl
@[simp] theorem State.enterFault_totalBits : (s.enterFault c info).totalBits = s.totalBits := rfl
@[simp] theorem State.enterFault_padding : (s.enterFault c info).padding = s.padding := rfl
@[simp] theorem State.enterFault_hdrLen : (s.enterFault c info).hdrLen = s.hdrLen := rfl
@[simp] theorem State.enterFault_payLen : (s.enterFault c info).payLen = s.payLen := rfl
@[simp] theorem State.enterFault_symCount : (s.enterFault c info).symCount = s.symCount := rfl
@[simp] theorem State.enterFault_status : (s.enterFault c info).status = some c := rfl
@[simp] theorem State.enterFault_faultInfo : (s.enterFault c info).faultInfo = info := rfl
@[simp] theorem State.enterFault_faultUnit : (s.enterFault c info).faultUnit = s.phase := rfl
@[simp] theorem State.enterFault_busy : (s.enterFault c info).busy = false := rfl
@[simp] theorem State.enterFault_phase : (s.enterFault c info).phase = .idle := rfl
@[simp] theorem State.enterFault_valid : (s.enterFault c info).valid = Valid.allClear := rfl
@[simp] theorem State.enterFault_freq : (s.enterFault c info).freq = s.freq := rfl
@[simp] theorem State.enterFault_code : (s.enterFault c info).code = s.code := rfl
@[simp] theorem State.enterFault_node : (s.enterFault c info).node = s.node := rfl
@[simp] theorem State.enterFault_list : (s.enterFault c info).list = s.list := rfl
@[simp] theorem State.enterFault_listLen : (s.enterFault c info).listLen = s.listLen := rfl
@[simp] theorem State.enterFault_pkAcc : (s.enterFault c info).pkAcc = s.pkAcc := rfl
@[simp] theorem State.enterFault_pkPos : (s.enterFault c info).pkPos = s.pkPos := rfl
@[simp] theorem State.enterFault_upCur : (s.enterFault c info).upCur = s.upCur := rfl
@[simp] theorem State.enterFault_upPos : (s.enterFault c info).upPos = s.upPos := rfl
@[simp] theorem State.enterFault_upByte : (s.enterFault c info).upByte = s.upByte := rfl
@[simp] theorem State.enterFault_huCount : (s.enterFault c info).huCount = s.huCount := rfl
@[simp] theorem State.enterFault_inMem : (s.enterFault c info).inMem = s.inMem := rfl
@[simp] theorem State.enterFault_outMem : (s.enterFault c info).outMem = s.outMem := rfl
@[simp] theorem State.enterFault_params : (s.enterFault c info).params = s.params := rfl
@[simp] theorem State.enterFault_host : (s.enterFault c info).host = s.host := rfl
end enterFault

section startUnit
variable (p : Phase) (s : State)
@[simp] theorem State.startUnit_inLen : (s.startUnit p).inLen = s.inLen := rfl
@[simp] theorem State.startUnit_inPtr : (s.startUnit p).inPtr = s.inPtr := rfl
@[simp] theorem State.startUnit_outLen : (s.startUnit p).outLen = s.outLen := rfl
@[simp] theorem State.startUnit_alpha : (s.startUnit p).alpha = s.alpha := rfl
@[simp] theorem State.startUnit_root : (s.startUnit p).root = s.root := rfl
@[simp] theorem State.startUnit_nodeCount : (s.startUnit p).nodeCount = s.nodeCount := rfl
@[simp] theorem State.startUnit_totalBits : (s.startUnit p).totalBits = s.totalBits := rfl
@[simp] theorem State.startUnit_padding : (s.startUnit p).padding = s.padding := rfl
@[simp] theorem State.startUnit_hdrLen : (s.startUnit p).hdrLen = s.hdrLen := rfl
@[simp] theorem State.startUnit_payLen : (s.startUnit p).payLen = s.payLen := rfl
@[simp] theorem State.startUnit_symCount : (s.startUnit p).symCount = s.symCount := rfl
@[simp] theorem State.startUnit_status : (s.startUnit p).status = s.status := rfl
@[simp] theorem State.startUnit_faultInfo : (s.startUnit p).faultInfo = s.faultInfo := rfl
@[simp] theorem State.startUnit_faultUnit : (s.startUnit p).faultUnit = s.faultUnit := rfl
@[simp] theorem State.startUnit_busy : (s.startUnit p).busy = s.busy := rfl
@[simp] theorem State.startUnit_phase : (s.startUnit p).phase = p := rfl
@[simp] theorem State.startUnit_valid : (s.startUnit p).valid = s.valid := rfl
@[simp] theorem State.startUnit_freq : (s.startUnit p).freq = s.freq := rfl
@[simp] theorem State.startUnit_code : (s.startUnit p).code = s.code := rfl
@[simp] theorem State.startUnit_node : (s.startUnit p).node = s.node := rfl
@[simp] theorem State.startUnit_list : (s.startUnit p).list = s.list := rfl
@[simp] theorem State.startUnit_listLen : (s.startUnit p).listLen = s.listLen := rfl
@[simp] theorem State.startUnit_pkAcc : (s.startUnit p).pkAcc = s.pkAcc := rfl
@[simp] theorem State.startUnit_pkPos : (s.startUnit p).pkPos = s.pkPos := rfl
@[simp] theorem State.startUnit_upCur : (s.startUnit p).upCur = s.upCur := rfl
@[simp] theorem State.startUnit_upPos : (s.startUnit p).upPos = s.upPos := rfl
@[simp] theorem State.startUnit_upByte : (s.startUnit p).upByte = s.upByte := rfl
@[simp] theorem State.startUnit_huCount : (s.startUnit p).huCount = s.huCount := rfl
@[simp] theorem State.startUnit_inMem : (s.startUnit p).inMem = s.inMem := rfl
@[simp] theorem State.startUnit_outMem : (s.startUnit p).outMem = s.outMem := rfl
@[simp] theorem State.startUnit_params : (s.startUnit p).params = s.params := rfl
@[simp] theorem State.startUnit_host : (s.startUnit p).host = s.host := rfl
end startUnit

section endUnit
variable (v : Valid) (s : State)
@[simp] theorem State.endUnit_inLen : (s.endUnit v).inLen = s.inLen := rfl
@[simp] theorem State.endUnit_inPtr : (s.endUnit v).inPtr = s.inPtr := rfl
@[simp] theorem State.endUnit_outLen : (s.endUnit v).outLen = s.outLen := rfl
@[simp] theorem State.endUnit_alpha : (s.endUnit v).alpha = s.alpha := rfl
@[simp] theorem State.endUnit_root : (s.endUnit v).root = s.root := rfl
@[simp] theorem State.endUnit_nodeCount : (s.endUnit v).nodeCount = s.nodeCount := rfl
@[simp] theorem State.endUnit_totalBits : (s.endUnit v).totalBits = s.totalBits := rfl
@[simp] theorem State.endUnit_padding : (s.endUnit v).padding = s.padding := rfl
@[simp] theorem State.endUnit_hdrLen : (s.endUnit v).hdrLen = s.hdrLen := rfl
@[simp] theorem State.endUnit_payLen : (s.endUnit v).payLen = s.payLen := rfl
@[simp] theorem State.endUnit_symCount : (s.endUnit v).symCount = s.symCount := rfl
@[simp] theorem State.endUnit_status : (s.endUnit v).status = s.status := rfl
@[simp] theorem State.endUnit_faultInfo : (s.endUnit v).faultInfo = s.faultInfo := rfl
@[simp] theorem State.endUnit_faultUnit : (s.endUnit v).faultUnit = s.faultUnit := rfl
@[simp] theorem State.endUnit_busy : (s.endUnit v).busy = s.busy := rfl
@[simp] theorem State.endUnit_phase : (s.endUnit v).phase = .idle := rfl
@[simp] theorem State.endUnit_valid : (s.endUnit v).valid = v := rfl
@[simp] theorem State.endUnit_freq : (s.endUnit v).freq = s.freq := rfl
@[simp] theorem State.endUnit_code : (s.endUnit v).code = s.code := rfl
@[simp] theorem State.endUnit_node : (s.endUnit v).node = s.node := rfl
@[simp] theorem State.endUnit_list : (s.endUnit v).list = s.list := rfl
@[simp] theorem State.endUnit_listLen : (s.endUnit v).listLen = s.listLen := rfl
@[simp] theorem State.endUnit_pkAcc : (s.endUnit v).pkAcc = s.pkAcc := rfl
@[simp] theorem State.endUnit_pkPos : (s.endUnit v).pkPos = s.pkPos := rfl
@[simp] theorem State.endUnit_upCur : (s.endUnit v).upCur = s.upCur := rfl
@[simp] theorem State.endUnit_upPos : (s.endUnit v).upPos = s.upPos := rfl
@[simp] theorem State.endUnit_upByte : (s.endUnit v).upByte = s.upByte := rfl
@[simp] theorem State.endUnit_huCount : (s.endUnit v).huCount = s.huCount := rfl
@[simp] theorem State.endUnit_inMem : (s.endUnit v).inMem = s.inMem := rfl
@[simp] theorem State.endUnit_outMem : (s.endUnit v).outMem = s.outMem := rfl
@[simp] theorem State.endUnit_params : (s.endUnit v).params = s.params := rfl
@[simp] theorem State.endUnit_host : (s.endUnit v).host = s.host := rfl
end endUnit

section dropNodes
variable (s : State)
@[simp] theorem State.dropNodes_inLen : s.dropNodes.inLen = s.inLen := rfl
@[simp] theorem State.dropNodes_inPtr : s.dropNodes.inPtr = s.inPtr := rfl
@[simp] theorem State.dropNodes_outLen : s.dropNodes.outLen = s.outLen := rfl
@[simp] theorem State.dropNodes_alpha : s.dropNodes.alpha = s.alpha := rfl
@[simp] theorem State.dropNodes_root : s.dropNodes.root = s.root := rfl
@[simp] theorem State.dropNodes_nodeCount : s.dropNodes.nodeCount = 0 := rfl
@[simp] theorem State.dropNodes_totalBits : s.dropNodes.totalBits = s.totalBits := rfl
@[simp] theorem State.dropNodes_padding : s.dropNodes.padding = s.padding := rfl
@[simp] theorem State.dropNodes_hdrLen : s.dropNodes.hdrLen = s.hdrLen := rfl
@[simp] theorem State.dropNodes_payLen : s.dropNodes.payLen = s.payLen := rfl
@[simp] theorem State.dropNodes_symCount : s.dropNodes.symCount = s.symCount := rfl
@[simp] theorem State.dropNodes_status : s.dropNodes.status = s.status := rfl
@[simp] theorem State.dropNodes_faultInfo : s.dropNodes.faultInfo = s.faultInfo := rfl
@[simp] theorem State.dropNodes_faultUnit : s.dropNodes.faultUnit = s.faultUnit := rfl
@[simp] theorem State.dropNodes_busy : s.dropNodes.busy = s.busy := rfl
@[simp] theorem State.dropNodes_phase : s.dropNodes.phase = s.phase := rfl
@[simp] theorem State.dropNodes_valid : s.dropNodes.valid = s.valid := rfl
@[simp] theorem State.dropNodes_freq : s.dropNodes.freq = s.freq := rfl
@[simp] theorem State.dropNodes_code : s.dropNodes.code = s.code := rfl
@[simp] theorem State.dropNodes_node : s.dropNodes.node = [] := rfl
@[simp] theorem State.dropNodes_list : s.dropNodes.list = s.list := rfl
@[simp] theorem State.dropNodes_listLen : s.dropNodes.listLen = s.listLen := rfl
@[simp] theorem State.dropNodes_pkAcc : s.dropNodes.pkAcc = s.pkAcc := rfl
@[simp] theorem State.dropNodes_pkPos : s.dropNodes.pkPos = s.pkPos := rfl
@[simp] theorem State.dropNodes_upCur : s.dropNodes.upCur = s.upCur := rfl
@[simp] theorem State.dropNodes_upPos : s.dropNodes.upPos = s.upPos := rfl
@[simp] theorem State.dropNodes_upByte : s.dropNodes.upByte = s.upByte := rfl
@[simp] theorem State.dropNodes_huCount : s.dropNodes.huCount = s.huCount := rfl
@[simp] theorem State.dropNodes_inMem : s.dropNodes.inMem = s.inMem := rfl
@[simp] theorem State.dropNodes_outMem : s.dropNodes.outMem = s.outMem := rfl
@[simp] theorem State.dropNodes_params : s.dropNodes.params = s.params := rfl
@[simp] theorem State.dropNodes_host : s.dropNodes.host = s.host := rfl
end dropNodes

section alloc
variable (n : Node) (s : State)
@[simp] theorem State.alloc_index : (s.alloc n).1 = s.nodeCount := rfl
@[simp] theorem State.alloc_inLen : (s.alloc n).2.inLen = s.inLen := rfl
@[simp] theorem State.alloc_inPtr : (s.alloc n).2.inPtr = s.inPtr := rfl
@[simp] theorem State.alloc_outLen : (s.alloc n).2.outLen = s.outLen := rfl
@[simp] theorem State.alloc_alpha : (s.alloc n).2.alpha = s.alpha := rfl
@[simp] theorem State.alloc_root : (s.alloc n).2.root = s.root := rfl
@[simp] theorem State.alloc_nodeCount : (s.alloc n).2.nodeCount = s.nodeCount + 1 := rfl
@[simp] theorem State.alloc_totalBits : (s.alloc n).2.totalBits = s.totalBits := rfl
@[simp] theorem State.alloc_padding : (s.alloc n).2.padding = s.padding := rfl
@[simp] theorem State.alloc_hdrLen : (s.alloc n).2.hdrLen = s.hdrLen := rfl
@[simp] theorem State.alloc_payLen : (s.alloc n).2.payLen = s.payLen := rfl
@[simp] theorem State.alloc_symCount : (s.alloc n).2.symCount = s.symCount := rfl
@[simp] theorem State.alloc_status : (s.alloc n).2.status = s.status := rfl
@[simp] theorem State.alloc_faultInfo : (s.alloc n).2.faultInfo = s.faultInfo := rfl
@[simp] theorem State.alloc_faultUnit : (s.alloc n).2.faultUnit = s.faultUnit := rfl
@[simp] theorem State.alloc_busy : (s.alloc n).2.busy = s.busy := rfl
@[simp] theorem State.alloc_phase : (s.alloc n).2.phase = s.phase := rfl
@[simp] theorem State.alloc_valid : (s.alloc n).2.valid = s.valid := rfl
@[simp] theorem State.alloc_freq : (s.alloc n).2.freq = s.freq := rfl
@[simp] theorem State.alloc_code : (s.alloc n).2.code = s.code := rfl
@[simp] theorem State.alloc_node : (s.alloc n).2.node = s.node ++ [n] := rfl
@[simp] theorem State.alloc_list : (s.alloc n).2.list = s.list := rfl
@[simp] theorem State.alloc_listLen : (s.alloc n).2.listLen = s.listLen := rfl
@[simp] theorem State.alloc_pkAcc : (s.alloc n).2.pkAcc = s.pkAcc := rfl
@[simp] theorem State.alloc_pkPos : (s.alloc n).2.pkPos = s.pkPos := rfl
@[simp] theorem State.alloc_upCur : (s.alloc n).2.upCur = s.upCur := rfl
@[simp] theorem State.alloc_upPos : (s.alloc n).2.upPos = s.upPos := rfl
@[simp] theorem State.alloc_upByte : (s.alloc n).2.upByte = s.upByte := rfl
@[simp] theorem State.alloc_huCount : (s.alloc n).2.huCount = s.huCount := rfl
@[simp] theorem State.alloc_inMem : (s.alloc n).2.inMem = s.inMem := rfl
@[simp] theorem State.alloc_outMem : (s.alloc n).2.outMem = s.outMem := rfl
@[simp] theorem State.alloc_params : (s.alloc n).2.params = s.params := rfl
@[simp] theorem State.alloc_host : (s.alloc n).2.host = s.host := rfl
end alloc

section linkChild
variable (i : NodeIx) (b : Bool) (c : NodeIx) (s : State)
@[simp] theorem State.linkChild_inLen : (s.linkChild i b c).inLen = s.inLen := rfl
@[simp] theorem State.linkChild_inPtr : (s.linkChild i b c).inPtr = s.inPtr := rfl
@[simp] theorem State.linkChild_outLen : (s.linkChild i b c).outLen = s.outLen := rfl
@[simp] theorem State.linkChild_alpha : (s.linkChild i b c).alpha = s.alpha := rfl
@[simp] theorem State.linkChild_root : (s.linkChild i b c).root = s.root := rfl
@[simp] theorem State.linkChild_nodeCount : (s.linkChild i b c).nodeCount = s.nodeCount := rfl
@[simp] theorem State.linkChild_totalBits : (s.linkChild i b c).totalBits = s.totalBits := rfl
@[simp] theorem State.linkChild_padding : (s.linkChild i b c).padding = s.padding := rfl
@[simp] theorem State.linkChild_hdrLen : (s.linkChild i b c).hdrLen = s.hdrLen := rfl
@[simp] theorem State.linkChild_payLen : (s.linkChild i b c).payLen = s.payLen := rfl
@[simp] theorem State.linkChild_symCount : (s.linkChild i b c).symCount = s.symCount := rfl
@[simp] theorem State.linkChild_status : (s.linkChild i b c).status = s.status := rfl
@[simp] theorem State.linkChild_faultInfo : (s.linkChild i b c).faultInfo = s.faultInfo := rfl
@[simp] theorem State.linkChild_faultUnit : (s.linkChild i b c).faultUnit = s.faultUnit := rfl
@[simp] theorem State.linkChild_busy : (s.linkChild i b c).busy = s.busy := rfl
@[simp] theorem State.linkChild_phase : (s.linkChild i b c).phase = s.phase := rfl
@[simp] theorem State.linkChild_valid : (s.linkChild i b c).valid = s.valid := rfl
@[simp] theorem State.linkChild_freq : (s.linkChild i b c).freq = s.freq := rfl
@[simp] theorem State.linkChild_code : (s.linkChild i b c).code = s.code := rfl
@[simp] theorem State.linkChild_node : (s.linkChild i b c).node = s.node.modify i.toNat (fun n => n.withChild b c) := rfl
@[simp] theorem State.linkChild_list : (s.linkChild i b c).list = s.list := rfl
@[simp] theorem State.linkChild_listLen : (s.linkChild i b c).listLen = s.listLen := rfl
@[simp] theorem State.linkChild_pkAcc : (s.linkChild i b c).pkAcc = s.pkAcc := rfl
@[simp] theorem State.linkChild_pkPos : (s.linkChild i b c).pkPos = s.pkPos := rfl
@[simp] theorem State.linkChild_upCur : (s.linkChild i b c).upCur = s.upCur := rfl
@[simp] theorem State.linkChild_upPos : (s.linkChild i b c).upPos = s.upPos := rfl
@[simp] theorem State.linkChild_upByte : (s.linkChild i b c).upByte = s.upByte := rfl
@[simp] theorem State.linkChild_huCount : (s.linkChild i b c).huCount = s.huCount := rfl
@[simp] theorem State.linkChild_inMem : (s.linkChild i b c).inMem = s.inMem := rfl
@[simp] theorem State.linkChild_outMem : (s.linkChild i b c).outMem = s.outMem := rfl
@[simp] theorem State.linkChild_params : (s.linkChild i b c).params = s.params := rfl
@[simp] theorem State.linkChild_host : (s.linkChild i b c).host = s.host := rfl
end linkChild

section setList
variable (l : List NodeIx) (s : State)
@[simp] theorem State.setList_inLen : (s.setList l).inLen = s.inLen := rfl
@[simp] theorem State.setList_inPtr : (s.setList l).inPtr = s.inPtr := rfl
@[simp] theorem State.setList_outLen : (s.setList l).outLen = s.outLen := rfl
@[simp] theorem State.setList_alpha : (s.setList l).alpha = s.alpha := rfl
@[simp] theorem State.setList_root : (s.setList l).root = s.root := rfl
@[simp] theorem State.setList_nodeCount : (s.setList l).nodeCount = s.nodeCount := rfl
@[simp] theorem State.setList_totalBits : (s.setList l).totalBits = s.totalBits := rfl
@[simp] theorem State.setList_padding : (s.setList l).padding = s.padding := rfl
@[simp] theorem State.setList_hdrLen : (s.setList l).hdrLen = s.hdrLen := rfl
@[simp] theorem State.setList_payLen : (s.setList l).payLen = s.payLen := rfl
@[simp] theorem State.setList_symCount : (s.setList l).symCount = s.symCount := rfl
@[simp] theorem State.setList_status : (s.setList l).status = s.status := rfl
@[simp] theorem State.setList_faultInfo : (s.setList l).faultInfo = s.faultInfo := rfl
@[simp] theorem State.setList_faultUnit : (s.setList l).faultUnit = s.faultUnit := rfl
@[simp] theorem State.setList_busy : (s.setList l).busy = s.busy := rfl
@[simp] theorem State.setList_phase : (s.setList l).phase = s.phase := rfl
@[simp] theorem State.setList_valid : (s.setList l).valid = s.valid := rfl
@[simp] theorem State.setList_freq : (s.setList l).freq = s.freq := rfl
@[simp] theorem State.setList_code : (s.setList l).code = s.code := rfl
@[simp] theorem State.setList_node : (s.setList l).node = s.node := rfl
@[simp] theorem State.setList_list : (s.setList l).list = l := rfl
@[simp] theorem State.setList_listLen : (s.setList l).listLen = BitVec.ofNat 9 l.length := rfl
@[simp] theorem State.setList_pkAcc : (s.setList l).pkAcc = s.pkAcc := rfl
@[simp] theorem State.setList_pkPos : (s.setList l).pkPos = s.pkPos := rfl
@[simp] theorem State.setList_upCur : (s.setList l).upCur = s.upCur := rfl
@[simp] theorem State.setList_upPos : (s.setList l).upPos = s.upPos := rfl
@[simp] theorem State.setList_upByte : (s.setList l).upByte = s.upByte := rfl
@[simp] theorem State.setList_huCount : (s.setList l).huCount = s.huCount := rfl
@[simp] theorem State.setList_inMem : (s.setList l).inMem = s.inMem := rfl
@[simp] theorem State.setList_outMem : (s.setList l).outMem = s.outMem := rfl
@[simp] theorem State.setList_params : (s.setList l).params = s.params := rfl
@[simp] theorem State.setList_host : (s.setList l).host = s.host := rfl
end setList

section countByte
variable (v : Byte) (s : State)
@[simp] theorem State.countByte_inLen : (s.countByte v).inLen = s.inLen := rfl
@[simp] theorem State.countByte_inPtr : (s.countByte v).inPtr = s.inPtr := rfl
@[simp] theorem State.countByte_outLen : (s.countByte v).outLen = s.outLen := rfl
@[simp] theorem State.countByte_alpha : (s.countByte v).alpha = (if s.freq.get v = 0 then s.alpha + 1 else s.alpha) := rfl
@[simp] theorem State.countByte_root : (s.countByte v).root = s.root := rfl
@[simp] theorem State.countByte_nodeCount : (s.countByte v).nodeCount = s.nodeCount := rfl
@[simp] theorem State.countByte_totalBits : (s.countByte v).totalBits = s.totalBits := rfl
@[simp] theorem State.countByte_padding : (s.countByte v).padding = s.padding := rfl
@[simp] theorem State.countByte_hdrLen : (s.countByte v).hdrLen = s.hdrLen := rfl
@[simp] theorem State.countByte_payLen : (s.countByte v).payLen = s.payLen := rfl
@[simp] theorem State.countByte_symCount : (s.countByte v).symCount = s.symCount := rfl
@[simp] theorem State.countByte_status : (s.countByte v).status = s.status := rfl
@[simp] theorem State.countByte_faultInfo : (s.countByte v).faultInfo = s.faultInfo := rfl
@[simp] theorem State.countByte_faultUnit : (s.countByte v).faultUnit = s.faultUnit := rfl
@[simp] theorem State.countByte_busy : (s.countByte v).busy = s.busy := rfl
@[simp] theorem State.countByte_phase : (s.countByte v).phase = s.phase := rfl
@[simp] theorem State.countByte_valid : (s.countByte v).valid = s.valid := rfl
@[simp] theorem State.countByte_freq : (s.countByte v).freq = s.freq.set v (s.freq.get v + 1) := rfl
@[simp] theorem State.countByte_code : (s.countByte v).code = s.code := rfl
@[simp] theorem State.countByte_node : (s.countByte v).node = s.node := rfl
@[simp] theorem State.countByte_list : (s.countByte v).list = s.list := rfl
@[simp] theorem State.countByte_listLen : (s.countByte v).listLen = s.listLen := rfl
@[simp] theorem State.countByte_pkAcc : (s.countByte v).pkAcc = s.pkAcc := rfl
@[simp] theorem State.countByte_pkPos : (s.countByte v).pkPos = s.pkPos := rfl
@[simp] theorem State.countByte_upCur : (s.countByte v).upCur = s.upCur := rfl
@[simp] theorem State.countByte_upPos : (s.countByte v).upPos = s.upPos := rfl
@[simp] theorem State.countByte_upByte : (s.countByte v).upByte = s.upByte := rfl
@[simp] theorem State.countByte_huCount : (s.countByte v).huCount = s.huCount := rfl
@[simp] theorem State.countByte_inMem : (s.countByte v).inMem = s.inMem := rfl
@[simp] theorem State.countByte_outMem : (s.countByte v).outMem = s.outMem := rfl
@[simp] theorem State.countByte_params : (s.countByte v).params = s.params := rfl
@[simp] theorem State.countByte_host : (s.countByte v).host = s.host := rfl
end countByte

section recordCode
variable (b : Byte) (p : Code) (w : Count) (s : State)
@[simp] theorem State.recordCode_inLen : (s.recordCode b p w).inLen = s.inLen := rfl
@[simp] theorem State.recordCode_inPtr : (s.recordCode b p w).inPtr = s.inPtr := rfl
@[simp] theorem State.recordCode_outLen : (s.recordCode b p w).outLen = s.outLen := rfl
@[simp] theorem State.recordCode_alpha : (s.recordCode b p w).alpha = s.alpha := rfl
@[simp] theorem State.recordCode_root : (s.recordCode b p w).root = s.root := rfl
@[simp] theorem State.recordCode_nodeCount : (s.recordCode b p w).nodeCount = s.nodeCount := rfl
@[simp] theorem State.recordCode_totalBits : (s.recordCode b p w).totalBits = s.totalBits + BitVec.ofNat 72 p.length * w.setWidth 72 := rfl
@[simp] theorem State.recordCode_padding : (s.recordCode b p w).padding = s.padding := rfl
@[simp] theorem State.recordCode_hdrLen : (s.recordCode b p w).hdrLen = s.hdrLen := rfl
@[simp] theorem State.recordCode_payLen : (s.recordCode b p w).payLen = s.payLen := rfl
@[simp] theorem State.recordCode_symCount : (s.recordCode b p w).symCount = s.symCount := rfl
@[simp] theorem State.recordCode_status : (s.recordCode b p w).status = s.status := rfl
@[simp] theorem State.recordCode_faultInfo : (s.recordCode b p w).faultInfo = s.faultInfo := rfl
@[simp] theorem State.recordCode_faultUnit : (s.recordCode b p w).faultUnit = s.faultUnit := rfl
@[simp] theorem State.recordCode_busy : (s.recordCode b p w).busy = s.busy := rfl
@[simp] theorem State.recordCode_phase : (s.recordCode b p w).phase = s.phase := rfl
@[simp] theorem State.recordCode_valid : (s.recordCode b p w).valid = s.valid := rfl
@[simp] theorem State.recordCode_freq : (s.recordCode b p w).freq = s.freq := rfl
@[simp] theorem State.recordCode_code : (s.recordCode b p w).code = s.code.set b p := rfl
@[simp] theorem State.recordCode_node : (s.recordCode b p w).node = s.node := rfl
@[simp] theorem State.recordCode_list : (s.recordCode b p w).list = s.list := rfl
@[simp] theorem State.recordCode_listLen : (s.recordCode b p w).listLen = s.listLen := rfl
@[simp] theorem State.recordCode_pkAcc : (s.recordCode b p w).pkAcc = s.pkAcc := rfl
@[simp] theorem State.recordCode_pkPos : (s.recordCode b p w).pkPos = s.pkPos := rfl
@[simp] theorem State.recordCode_upCur : (s.recordCode b p w).upCur = s.upCur := rfl
@[simp] theorem State.recordCode_upPos : (s.recordCode b p w).upPos = s.upPos := rfl
@[simp] theorem State.recordCode_upByte : (s.recordCode b p w).upByte = s.upByte := rfl
@[simp] theorem State.recordCode_huCount : (s.recordCode b p w).huCount = s.huCount := rfl
@[simp] theorem State.recordCode_inMem : (s.recordCode b p w).inMem = s.inMem := rfl
@[simp] theorem State.recordCode_outMem : (s.recordCode b p w).outMem = s.outMem := rfl
@[simp] theorem State.recordCode_params : (s.recordCode b p w).params = s.params := rfl
@[simp] theorem State.recordCode_host : (s.recordCode b p w).host = s.host := rfl
end recordCode

section cleared
variable (s : State)
@[simp] theorem State.cleared_inLen : s.cleared.inLen = State.reset.inLen := rfl
@[simp] theorem State.cleared_inPtr : s.cleared.inPtr = State.reset.inPtr := rfl
@[simp] theorem State.cleared_outLen : s.cleared.outLen = State.reset.outLen := rfl
@[simp] theorem State.cleared_alpha : s.cleared.alpha = State.reset.alpha := rfl
@[simp] theorem State.cleared_root : s.cleared.root = State.reset.root := rfl
@[simp] theorem State.cleared_nodeCount : s.cleared.nodeCount = State.reset.nodeCount := rfl
@[simp] theorem State.cleared_totalBits : s.cleared.totalBits = State.reset.totalBits := rfl
@[simp] theorem State.cleared_padding : s.cleared.padding = State.reset.padding := rfl
@[simp] theorem State.cleared_hdrLen : s.cleared.hdrLen = State.reset.hdrLen := rfl
@[simp] theorem State.cleared_payLen : s.cleared.payLen = State.reset.payLen := rfl
@[simp] theorem State.cleared_symCount : s.cleared.symCount = State.reset.symCount := rfl
@[simp] theorem State.cleared_status : s.cleared.status = State.reset.status := rfl
@[simp] theorem State.cleared_faultInfo : s.cleared.faultInfo = State.reset.faultInfo := rfl
@[simp] theorem State.cleared_faultUnit : s.cleared.faultUnit = State.reset.faultUnit := rfl
@[simp] theorem State.cleared_busy : s.cleared.busy = State.reset.busy := rfl
@[simp] theorem State.cleared_phase : s.cleared.phase = State.reset.phase := rfl
@[simp] theorem State.cleared_valid : s.cleared.valid = State.reset.valid := rfl
@[simp] theorem State.cleared_freq : s.cleared.freq = State.reset.freq := rfl
@[simp] theorem State.cleared_code : s.cleared.code = State.reset.code := rfl
@[simp] theorem State.cleared_node : s.cleared.node = State.reset.node := rfl
@[simp] theorem State.cleared_list : s.cleared.list = State.reset.list := rfl
@[simp] theorem State.cleared_listLen : s.cleared.listLen = State.reset.listLen := rfl
@[simp] theorem State.cleared_pkAcc : s.cleared.pkAcc = State.reset.pkAcc := rfl
@[simp] theorem State.cleared_pkPos : s.cleared.pkPos = State.reset.pkPos := rfl
@[simp] theorem State.cleared_upCur : s.cleared.upCur = State.reset.upCur := rfl
@[simp] theorem State.cleared_upPos : s.cleared.upPos = State.reset.upPos := rfl
@[simp] theorem State.cleared_upByte : s.cleared.upByte = State.reset.upByte := rfl
@[simp] theorem State.cleared_huCount : s.cleared.huCount = State.reset.huCount := rfl
@[simp] theorem State.cleared_inMem : s.cleared.inMem = s.inMem := rfl
@[simp] theorem State.cleared_outMem : s.cleared.outMem = s.outMem := rfl
@[simp] theorem State.cleared_params : s.cleared.params = s.params := rfl
@[simp] theorem State.cleared_host : s.cleared.host = s.host := rfl
end cleared

end Sys2Proof.Machine
end

