-- ==== Sys2Proof/Laws/Ops.lean ====
section
/-! SUPPORT. One lemma per shared operation: everything it can do. Later proofs cite these and do not unfold
the operation. -/

namespace Sys2Proof.Machine

section Run

variable {α β γ : Type}

@[simp] theorem Run.ok_andThen (a : α) (s : State) (k : α → State → Run β) :
    (Run.ok a s).andThen k = k a s := rfl

@[simp] theorem Run.raised_andThen (s : State) (k : α → State → Run β) :
    (Run.raised s).andThen k = .raised s := rfl

@[simp] theorem Run.stuck_andThen (f : Fault) (k : α → State → Run β) :
    (Run.stuck f).andThen k = .stuck f := rfl

@[simp] theorem raise_andThen (c : Cause) (info : BitVec 64) (s : State) (k : α → State → Run β) :
    (raise c info s).andThen k = raise c info s := rfl

theorem Run.andThen_assoc (r : Run α) (k : α → State → Run β) (l : β → State → Run γ) :
    (r.andThen k).andThen l = r.andThen fun a s => (k a s).andThen l := by
  cases r <;> rfl

theorem Run.andThen_eq_ok {r : Run α} {k : α → State → Run β} {b : β} {t : State}
    (h : r.andThen k = .ok b t) : ∃ a s, r = .ok a s ∧ k a s = .ok b t := by
  cases r with
  | ok a s => exact ⟨a, s, rfl, h⟩
  | raised s => cases h
  | stuck f => cases h

theorem Run.andThen_eq_raised {r : Run α} {k : α → State → Run β} {t : State}
    (h : r.andThen k = .raised t) : r = .raised t ∨ ∃ a s, r = .ok a s ∧ k a s = .raised t := by
  cases r with
  | ok a s => exact .inr ⟨a, s, rfl, h⟩
  | raised s => cases h; exact .inl rfl
  | stuck f => cases h

theorem Run.andThen_eq_stuck {r : Run α} {k : α → State → Run β} {f : Fault}
    (h : r.andThen k = .stuck f) : r = .stuck f ∨ ∃ a s, r = .ok a s ∧ k a s = .stuck f := by
  cases r with
  | ok a s => exact .inr ⟨a, s, rfl, h⟩
  | raised s => cases h
  | stuck g => cases h; exact .inl rfl

/-- What a part of a unit achieves: `Q` of its result and state if it goes on, `R` of the state if a fault
of the block ends it; it does not stop the model. -/
def Run.Meets (r : Run α) (Q : α → State → Prop) (R : State → Prop) : Prop :=
  match r with
  | .ok a s => Q a s
  | .raised s => R s
  | .stuck _ => False

@[simp] theorem Run.meets_ok (a : α) (s : State) (Q : α → State → Prop) (R : State → Prop) :
    (Run.ok a s).Meets Q R ↔ Q a s := Iff.rfl

@[simp] theorem Run.meets_raised (s : State) (Q : α → State → Prop) (R : State → Prop) :
    (Run.raised s : Run α).Meets Q R ↔ R s := Iff.rfl

@[simp] theorem Run.meets_stuck (f : Fault) (Q : α → State → Prop) (R : State → Prop) :
    (Run.stuck f : Run α).Meets Q R ↔ False := Iff.rfl

@[simp] theorem Run.meets_raise (c : Cause) (info : BitVec 64) (s : State) (Q : α → State → Prop)
    (R : State → Prop) : (raise c info s : Run α).Meets Q R ↔ R (s.enterFault c info) := Iff.rfl

theorem Run.Meets.mono {r : Run α} {Q Q' : α → State → Prop} {R R' : State → Prop} (h : r.Meets Q R)
    (hQ : ∀ a s, Q a s → Q' a s) (hR : ∀ s, R s → R' s) : r.Meets Q' R' := by
  cases r with
  | ok a s => exact hQ a s h
  | raised s => exact hR s h
  | stuck f => exact h

theorem Run.Meets.andThen {r : Run α} {k : α → State → Run β} {P : α → State → Prop}
    {Q : β → State → Prop} {R : State → Prop} (h : r.Meets P R) (hk : ∀ a s, P a s → (k a s).Meets Q R) :
    (r.andThen k).Meets Q R := by
  cases r with
  | ok a s => exact hk a s h
  | raised s => exact h
  | stuck f => exact h.elim

/-- A loop over a list keeps what its body keeps. -/
theorem forEach_meets {I : State → Prop} {R : State → Prop} {body : α → State → Run Unit} {xs : List α}
    (hb : ∀ x ∈ xs, ∀ s, I s → (body x s).Meets (fun _ t => I t) R) {s : State} (hs : I s) :
    (forEach body xs s).Meets (fun _ t => I t) R := by
  induction xs generalizing s with
  | nil => exact hs
  | cons x xs ih =>
    exact (hb x (by simp) s hs).andThen fun _ t ht =>
      ih (fun y hy => hb y (List.mem_cons_of_mem _ hy)) ht

/-- A loop over addresses keeps an invariant that may speak of how many iterations are done. -/
theorem forAddr_meets {I : Nat → State → Prop} {R : State → Prop} {body : Addr → State → Run Unit} (n : Nat)
    (a : Addr)
    (hb : ∀ k, k < n → ∀ s, I k s → (body (a + BitVec.ofNat 64 k) s).Meets (fun _ t => I (k + 1) t) R)
    {s : State} (hs : I 0 s) : (forAddr body n a s).Meets (fun _ t => I n t) R := by
  induction n generalizing I a s with
  | zero => exact hs
  | succ n ih =>
    have h0 := hb 0 (Nat.succ_pos n) s hs
    rw [show a + BitVec.ofNat 64 0 = a by simp] at h0
    refine h0.andThen fun _ t ht => ih (I := fun k => I (k + 1)) (a + 1) (fun k hk u hu => ?_) ht
    have := hb (k + 1) (by omega) u hu
    rwa [show a + BitVec.ofNat 64 (k + 1) = a + 1 + BitVec.ofNat 64 k by
      rw [BitVec.ofNat_add, BitVec.add_assoc, BitVec.add_comm 1]; rfl] at this

theorem forEach_append (body : α → State → Run Unit) (xs ys : List α) (s : State) :
    forEach body (xs ++ ys) s = (forEach body xs s).andThen fun _ s => forEach body ys s := by
  induction xs generalizing s with
  | nil => rfl
  | cons x xs ih =>
    rw [List.cons_append, forEach, forEach, Run.andThen_assoc]
    congr 1
    funext _ t
    exact ih t

end Run

section Access

/-- Everything `in_byte` can do (R76). -/
theorem inByte_cases (a : Addr) (s : State) :
    (a < s.inLen ∧ s.params.readFails a = false ∧
      inByte a s = .ok (Memory.read a.toNat s.inMem) { s with inPtr := a + 1 }) ∨
    (a < s.inLen ∧ s.params.readFails a = true ∧ inByte a s = raise .inputFault a s) ∨
    (s.inLen ≤ a ∧ s.phase = .headerUnpacker ∧ inByte a s = raise .corruptArchive a s) ∨
    (s.inLen ≤ a ∧ s.phase ≠ .headerUnpacker ∧ inByte a s = raise .inputFault a s) := by
  unfold inByte
  by_cases h : s.inLen ≤ a
  · rw [if_pos h]
    by_cases hp : s.phase = .headerUnpacker
    · rw [hp]; exact .inr (.inr (.inl ⟨h, rfl, rfl⟩))
    · refine .inr (.inr (.inr ⟨h, hp, ?_⟩))
      cases hq : s.phase <;> first | rfl | exact absurd hq hp
  · have hlt : a < s.inLen := BitVec.not_le.1 h
    rw [if_neg h]
    cases hr : s.params.readFails a
    · exact .inl ⟨hlt, rfl, rfl⟩
    · exact .inr (.inl ⟨hlt, rfl, rfl⟩)

/-- Everything `emit` can do (R77). -/
theorem emit_cases (v : Byte) (s : State) :
    (s.outLen < s.params.outCap ∧
      emit v s = .ok () { s with
        outMem := Memory.write s.outLen.toNat v s.outMem, outLen := s.outLen + 1 }) ∨
    (s.params.outCap ≤ s.outLen ∧ emit v s = raise .outputFault s.outLen s) := by
  unfold emit
  by_cases h : s.params.outCap ≤ s.outLen
  · exact .inr ⟨h, if_pos h⟩
  · exact .inl ⟨BitVec.not_le.1 h, if_neg h⟩

/-- Below the capacity the cursor does not wrap (R28). -/
theorem outLen_succ {n cap : Addr} (h : n < cap) : (n + 1).toNat = n.toNat + 1 := by
  have h1 : n.toNat < cap.toNat := h
  have h2 := cap.isLt
  rw [BitVec.toNat_add, show (1 : Addr).toNat = 1 from rfl]
  omega

end Access

section Accept

/-- Everything the acceptance of a command can do (R300). -/
theorem accept_cases (unit : State → Run Unit) (s : State) :
    (s.busy = true ∧ accept unit s = .refused .hostActsWhileBusy) ∨
    (s.busy = false ∧ (∃ c, s.status = some c) ∧ accept unit s = .next s) ∨
    (s.busy = false ∧ s.status = none ∧ accept unit s = (unit { s with busy := true }).finish) := by
  unfold accept
  cases hb : s.busy
  · cases hs : s.status with
    | none => exact .inr (.inr ⟨rfl, rfl, rfl⟩)
    | some c => exact .inr (.inl ⟨rfl, ⟨c, rfl⟩, rfl⟩)
  · exact .inl ⟨rfl, rfl⟩

theorem accept_run (unit : State → Run Unit) {s : State} (hb : s.busy = false) (hs : s.status = none) :
    accept unit s = (unit { s with busy := true }).finish := by
  unfold accept
  rw [hb, hs]

theorem accept_ignored (unit : State → Run Unit) {s : State} {c : Cause} (hb : s.busy = false)
    (hs : s.status = some c) : accept unit s = .next s := by
  unfold accept
  rw [hb, hs]

theorem accept_busy (unit : State → Run Unit) {s : State} (hb : s.busy = true) :
    accept unit s = .refused .hostActsWhileBusy := by
  unfold accept
  rw [hb]

@[simp] theorem require_met {α : Type} (word : Byte) (s : State) (k : State → Run α) :
    require true word s k = k s := rfl

@[simp] theorem require_unmet {α : Type} (word : Byte) (s : State) (k : State → Run α) :
    require false word s k = raise .sequenceFault (word.setWidth 64) s := rfl

@[simp] theorem finish_ok (s : State) : (Run.ok () s).finish = .next { s with busy := false } := rfl

@[simp] theorem finish_raise (c : Cause) (info : BitVec 64) (s : State) :
    (raise c info s : Run Unit).finish = .next (s.enterFault c info) := rfl

/-- A run that does not stop the model ends the command in a next state. -/
theorem Run.Meets.finish {r : Run Unit} {Q R : State → Prop} (h : r.Meets (fun _ s => Q s) R) :
    ∃ t, r.finish = .next t ∧ ((∃ s, Q s ∧ t = { s with busy := false }) ∨ R t) := by
  cases r with
  | ok a s => exact ⟨_, rfl, .inl ⟨s, h, rfl⟩⟩
  | raised s => exact ⟨_, rfl, .inr h⟩
  | stuck f => exact h.elim

end Accept

end Sys2Proof.Machine
end

