-- ==== Sys2Proof/Laws/PerInstr.lean ====
section
/-! SUPPORT. Per-instruction families: the word of a command is legal and decodes to it (30_encoding.md R101,
R103). -/

namespace Sys2Proof.Laws.WordOfCommand

/-- The word of `i` is legal, carries `i`'s operation number in its low four bits, and decodes to `i`. -/
def Statement (i : Instr) : Prop :=
  i.wellFormed = true ∧ legalWord (encode i) = true ∧ opField (encode i) = i.op ∧ decode (encode i) = .ok i

theorem fscan : Statement .fscan := ⟨rfl, rfl, rfl, rfl⟩
theorem tbuild : Statement .tbuild := ⟨rfl, rfl, rfl, rfl⟩
theorem cderive : Statement .cderive := ⟨rfl, rfl, rfl, rfl⟩
theorem hpack : Statement .hpack := ⟨rfl, rfl, rfl, rfl⟩
theorem hunpack : Statement .hunpack := ⟨rfl, rfl, rfl, rfl⟩
theorem bpack : Statement .bpack := ⟨rfl, rfl, rfl, rfl⟩
theorem bunpack : Statement .bunpack := ⟨rfl, rfl, rfl, rfl⟩
theorem compress : Statement .compress := ⟨rfl, rfl, rfl, rfl⟩
theorem decompress : Statement .decompress := ⟨rfl, rfl, rfl, rfl⟩
theorem clear : Statement .clear := ⟨rfl, rfl, rfl, rfl⟩

end Sys2Proof.Laws.WordOfCommand
end

