-- ==== Sys2Proof/Laws/Table.lean ====
section
/-! SUPPORT. The laws of a 256-entry register file. -/

namespace Sys2Proof

theorem allBytes_length : allBytes.length = 256 := by simp [allBytes]

theorem allBytes_getElem (i : Nat) (h : i < allBytes.length) : allBytes[i] = BitVec.ofNat 8 i := by
  simp [allBytes]

theorem mem_allBytes (b : Byte) : b ∈ allBytes := by
  simp only [allBytes, List.mem_map, List.mem_range]
  exact ⟨b.toNat, b.isLt, by simp⟩

theorem allBytes_nodup : allBytes.Nodup := by
  unfold allBytes
  refine List.Nodup.map_on ?_ List.nodup_range
  intro a ha b hb h
  rw [List.mem_range] at ha hb
  have := congrArg BitVec.toNat h
  simp only [BitVec.toNat_ofNat] at this
  omega

@[simp] theorem Table.get_const {α : Type} (x : α) (b : Byte) : (Table.const x).get b = x :=
  List.getElem_replicate _

@[simp] theorem Table.get_set_self {α : Type} (t : Table α) (b : Byte) (v : α) : (t.set b v).get b = v := by
  simp [Table.get, Table.set]

theorem Table.get_set_ne {α : Type} (t : Table α) {b c : Byte} (v : α) (h : b ≠ c) :
    (t.set b v).get c = t.get c := by
  have hn : b.toNat ≠ c.toNat := fun e => h (BitVec.eq_of_toNat_eq e)
  simp [Table.get, Table.set, hn]

theorem Table.get_set {α : Type} (t : Table α) (b c : Byte) (v : α) :
    (t.set b v).get c = if b = c then v else t.get c := by
  by_cases h : b = c
  · subst h; simp
  · rw [Table.get_set_ne t v h, if_neg h]

theorem Table.ext_get {α : Type} {t u : Table α} (h : ∀ b, t.get b = u.get b) : t = u := by
  obtain ⟨ts, ht⟩ := t
  obtain ⟨us, hu⟩ := u
  have : ts = us := by
    refine List.ext_getElem (by omega) fun i h1 h2 => ?_
    have hb := h (BitVec.ofNat 8 i)
    have hi : i % 256 = i := Nat.mod_eq_of_lt (by omega)
    simpa [Table.get, hi] using hb
  subst this
  rfl

/-- A sweep of the table reads every entry once, in ascending order of the index. -/
theorem Table.entries_eq_map {α : Type} (t : Table α) : t.entries = allBytes.map fun b => (b, t.get b) := by
  refine List.ext_getElem (by simp [Table.entries, allBytes_length, t.size]) fun i h1 h2 => ?_
  have hi : i < 256 := by simpa [allBytes_length] using h2
  have hm : i % 256 = i := Nat.mod_eq_of_lt hi
  simp [Table.entries, allBytes_getElem, Table.get, hm]

theorem Table.mem_entries {α : Type} (t : Table α) (b : Byte) (v : α) : (b, v) ∈ t.entries ↔ t.get b = v := by
  rw [Table.entries_eq_map]
  constructor
  · intro h
    obtain ⟨c, -, hc⟩ := List.mem_map.1 h
    rw [Prod.mk.injEq] at hc
    obtain ⟨rfl, rfl⟩ := hc
    rfl
  · intro h
    exact List.mem_map.2 ⟨b, mem_allBytes b, by rw [h]⟩

end Sys2Proof
end

