-- ==== Sys2Proof/Tests/Slice0.lean ====
section
/-! SUPPORT. Tests. Every expected result is taken from the spec's worked examples, from 95_test_vectors.md or from
the tables of 30_encoding.md; then one witness for every statement that has hypotheses. -/

namespace Sys2Proof.Tests

open Sys2Proof.Machine

set_option Elab.async false

/-- The block after the host loaded `bytes` to `IN[0 ..]` and wrote `IN_LEN` (R384). -/
def loaded (bytes : List Byte) : State :=
  { State.reset with
    inLen := BitVec.ofNat 64 bytes.length
    inMem := bytes.zipIdx.foldl (fun m c => Memory.write c.2 c.1 m) [] }

/-- The next state, or the reset state where there is none. -/
def stateOf : Host.Outcome State Fault Refusal → State
  | .next t => t
  | _ => State.reset

/-- There is a next state. -/
def hasNext : Host.Outcome State Fault Refusal → Bool
  | .next _ => true
  | _ => false

/-- The state after a list of commands. -/
def after (is : List Instr) (s : State) : State := stateOf (runCommands is s)

/-- The state with other open parameters. -/
def withParams (cap : Addr) (failing : List Addr) (s : State) : State :=
  { s with params := { outCap := cap, inErr := failing } }

/-- The fault record as the host reads it: `STATUS`, `FAULT_INFO`, `FAULT_UNIT`, `VALID`. -/
def faultRecord (s : State) : Nat × Nat × Nat × Nat :=
  (s.statusWord.toNat, s.faultInfo.toNat, s.faultUnit.code.toNat, s.valid.word.toNat)

/-- "AAAA", "AAAB", "ABC", "abracadabra" (R177, R176, R147). -/
def fourA : List Byte := [0x41, 0x41, 0x41, 0x41]
def threeAB : List Byte := [0x41, 0x41, 0x41, 0x42]
def abc : List Byte := [0x41, 0x42, 0x43]
def abra : List Byte := [0x61, 0x62, 0x72, 0x61, 0x63, 0x61, 0x64, 0x61, 0x62, 0x72, 0x61]
/-- The archive of "AAAA" (R249). -/
def fourAArchive : List Byte := [0x00, 0x41, 0x01, 0x30, 0x04, 0x00]

/-! ### Words (30_encoding.md R100, R101, R103: bits 7:4 `zero`, bits 3:0 `op`) -/

theorem test_decode_fscan : decode 0b00000001 = .ok .fscan := rfl
theorem test_decode_tbuild : decode 0b00000010 = .ok .tbuild := rfl
theorem test_decode_cderive : decode 0b00000011 = .ok .cderive := rfl
theorem test_decode_hpack : decode 0b00000100 = .ok .hpack := rfl
theorem test_decode_hunpack : decode 0b00000101 = .ok .hunpack := rfl
theorem test_decode_bpack : decode 0b00000110 = .ok .bpack := rfl
theorem test_decode_bunpack : decode 0b00000111 = .ok .bunpack := rfl
theorem test_decode_compress : decode 0b00001000 = .ok .compress := rfl
theorem test_decode_decompress : decode 0b00001001 = .ok .decompress := rfl
theorem test_decode_clear : decode 0b00001010 = .ok .clear := rfl

/-- R103: `op` = 0x0. -/
theorem test_word_00_refused : legalWord 0x00 = false ∧ decode 0x00 = .error .opNotAssigned := ⟨by decide, rfl⟩
/-- R103: `op` = 0xB, the first above the table. -/
theorem test_word_0b_refused : legalWord 0x0B = false ∧ decode 0x0B = .error .opNotAssigned := ⟨by decide, rfl⟩
/-- R103: `zero` is not 0, over an `op` that is assigned. -/
theorem test_word_11_refused : legalWord 0x11 = false ∧ decode 0x11 = .error .zeroFieldNotZero := ⟨by decide, rfl⟩
/-- R103: `zero` is not 0 in its highest bit only. -/
theorem test_word_81_refused : legalWord 0x81 = false ∧ decode 0x81 = .error .zeroFieldNotZero := ⟨by decide, rfl⟩
/-- R35: a code of 256 bits does not fit its entry; one of 255 does. -/
theorem test_code_of_256_bits_refused :
    Code.wellFormed (List.replicate 256 true) = false ∧ Code.wellFormed (List.replicate 255 true) = true := by
  decide +kernel
/-- Every command is well formed: R102 leaves nothing in it that could be out of range. -/
theorem test_commands_wellFormed : Instr.all.all Instr.wellFormed = true := by decide
/-- The first step after reset runs the word placed for it: `CLEAR`, and `TBUILD`, which faults (Q7). -/
theorem test_withFetchWord_runs :
    hasNext (step (State.reset.withFetchWord 8 0x0A)) = true ∧
    faultRecord (stateOf (step (State.reset.withFetchWord 8 0x02))) = (4, 2, 2, 0) := by decide +kernel

/-! ### Units -/

/-- 95_test_vectors.md F3: `FF FF 00`. -/
theorem test_fscan_counts :
    let t := after [.fscan] (loaded [0xFF, 0xFF, 0x00])
    (t.freq.get 0x00, t.freq.get 0xFF, t.freq.get 0x41, t.alpha, t.inPtr, t.valid.word) = (1, 2, 0, 2, 3, 1) := by
  decide +kernel

/-- 95_test_vectors.md F6: `IN_ERR(2)`. -/
theorem test_fscan_read_error :
    faultRecord (after [.fscan] (withParams 100 [2] (loaded fourA))) = (1, 2, 1, 0) := by decide +kernel

/-- R176: "ABC", three equal weights: a merged node moves past strictly smaller weights only. -/
theorem test_tbuild_equal_weights :
    let t := after [.fscan, .tbuild] (loaded abc)
    (t.root, t.node[3]?.map fun n => (n.left, n.right, n.weight), t.node[4]?.map fun n => (n.left, n.right, n.weight)) =
      (some 4, some (some 2, some 1, 2), some (some 0, some 3, 3)) := by decide +kernel

/-- R177: "AAAA", the degenerate case: the real leaf is the left child. -/
theorem test_tbuild_one_symbol :
    let t := after [.fscan, .tbuild] (loaded fourA)
    t.root = some 1 ∧ t.nodeCount = 2 ∧ t.list = [1] ∧
      t.node[1]? = some { kind := .internal, left := some 0, right := none, sym := 0, weight := 4 } := by
  decide +kernel

/-- R201: "abracadabra": the codes, the total, the padding. -/
theorem test_cderive_codes :
    let t := after [.fscan, .tbuild, .cderive] (loaded abra)
    (t.code.get 0x61, t.code.get 0x63, t.code.get 0x64, t.code.get 0x72, t.totalBits, t.padding) =
      ([false], [true, true, false, true], [true, true, false, false], [true, true, true], 23, 1) := by
  decide +kernel

/-- R35: the word of a code: `bits[0]` is the edge leaving the root, so "1101" is 0b1011. -/
theorem test_code_word : Code.len [true, true, false, true] = 4 ∧ Code.bits [true, true, false, true] = 0b1011 := by
  decide

/-- R220: "AAAA": the header `00 41 01 30 04`. -/
theorem test_hpack_header :
    let t := after [.fscan, .tbuild, .cderive, .hpack] (loaded fourA)
    (t.output, t.hdrLen) = ([0x00, 0x41, 0x01, 0x30, 0x04], 5) := by decide +kernel

/-- 95_test_vectors.md H5: `OUT_CAP` = 3. -/
theorem test_hpack_out_full :
    faultRecord (after [.fscan, .tbuild, .cderive, .hpack] (withParams 3 [] (loaded fourA))) = (2, 3, 4, 0) := by
  decide +kernel

/-- R250: the nodes of the "abracadabra" header in order of first visit. -/
theorem test_hunpack_nodes :
    let t := after [.hunpack] (loaded [0x04, 0x61, 0x01, 0x30, 0x62, 0x02, 0x31, 0x30, 0x63, 0x04, 0x31, 0x31, 0x30, 0x31,
      0x64, 0x04, 0x31, 0x31, 0x30, 0x30, 0x72, 0x03, 0x31, 0x31, 0x31, 0x01, 0x5D, 0xAC, 0x5C])
    (t.nodeCount, t.padding, t.hdrLen) = (9, 1, 26) ∧ t.node.map (fun n => (n.left, n.right, n.sym)) =
      [(some 1, some 2, 0), (none, none, 0x61), (some 3, some 4, 0), (none, none, 0x62), (some 5, some 8, 0),
        (some 7, some 6, 0), (none, none, 0x63), (none, none, 0x64), (none, none, 0x72)] := by decide +kernel

/-- R251, the row `01 41 01 30 42 02 30 31 00`: a path through a leaf. -/
theorem test_hunpack_prefix_violation :
    faultRecord (after [.hunpack] (loaded [0x01, 0x41, 0x01, 0x30, 0x42, 0x02, 0x30, 0x31, 0x00])) = (3, 6, 5, 0) := by
  decide +kernel

/-- R270: "abracadabra": the payload `5D AC 5C`. -/
theorem test_bpack_payload :
    let t := after [.fscan, .tbuild, .cderive, .hpack, .bpack] (loaded abra)
    (t.output.drop 26, t.payLen, t.symCount, t.outLen) = ([0x5D, 0xAC, 0x5C], 3, 11, 29) := by decide +kernel

/-- R268: the host changed `IN[1]` to a byte without a code. -/
theorem test_bpack_missing_code :
    faultRecord (after [.bpack]
      ((after [.fscan, .tbuild, .cderive, .hpack] (loaded fourA)).storeIn 1 0x42)) = (6, 1, 6, 0) := by decide +kernel

/-- R296, the third row: padding bits that are not 0 are ignored. -/
theorem test_bunpack_padding_ignored :
    (after [.hunpack, .bunpack] (loaded [0x00, 0x41, 0x01, 0x30, 0x04, 0x0F])).observe = .succeeded fourA := by
  decide +kernel

/-- R296, the fourth row: the one meaningful bit ends inside a code. -/
theorem test_bunpack_ends_inside_code :
    faultRecord (after [.hunpack, .bunpack]
      (loaded [0x01, 0x41, 0x01, 0x30, 0x42, 0x02, 0x31, 0x30, 0x07, 0x80])) = (3, 9, 7, 0) := by decide +kernel

/-- 95_test_vectors.md V9: "AAAB". -/
theorem test_compress_two_symbols :
    (after [.compress] (loaded threeAB)).output = [0x01, 0x41, 0x01, 0x31, 0x42, 0x01, 0x30, 0x04, 0xE0] := by
  decide +kernel

/-- R116: the empty archive, and `VALID` after a compression (R310). -/
theorem test_compress_empty :
    let t := after [.compress] (loaded [])
    (t.observe, t.valid.word) = (.succeeded [], 0b0101111) := by decide +kernel

/-- 95_test_vectors.md V17: header entries out of order. -/
theorem test_decompress_any_order :
    (after [.decompress] (loaded [0x01, 0x42, 0x01, 0x30, 0x41, 0x01, 0x31, 0x02, 0xA8])).output =
      [0x41, 0x42, 0x41, 0x42, 0x41, 0x42] := by decide +kernel

/-- R251, the second row: the padding byte is missing. -/
theorem test_decompress_truncated :
    faultRecord (after [.decompress] (loaded [0x00, 0x41, 0x01, 0x30])) = (3, 4, 5, 0) := by decide +kernel

/-- R312: `CLEAR` takes the block out of the faulted state and zeroes `IN_LEN`. -/
theorem test_clear_ends_the_fault :
    let t := after [.tbuild, .clear] (loaded fourA)
    (t.statusWord, t.faultInfo, t.inLen, t.inAt 0) = (0, 0, 0, 0x41) := by decide +kernel

/-! ### Witnesses: a concrete state and operands that meet the hypotheses of each statement -/

theorem readable_of_no_error {s : State} (h : s.params.inErr = []) (a : Addr) : s.params.readFails a = false := by
  simp [Params.readFails, h]

theorem at_of_bounded {α : Type} {l : List α} {f : Nat → α} (h : ∀ k < l.length, l[k]? = some (f k)) :
    ∀ k v, l[k]? = some v → f k = v := by
  intro k v hk
  have hl := (List.getElem?_eq_some_iff.1 hk).1
  rw [h k hl] at hk
  exact Option.some.inj hk

theorem next_of_hasNext {o : Host.Outcome State Fault Refusal} (h : hasNext o = true) : o = .next (stateOf o) := by
  cases o <;> simp_all [hasNext, stateOf]

/-- Three entries out of order, one byte value in two of them (R243). -/
def freeEntries : List (Byte × Code) := [(0x42, [true, false]), (0x41, [false]), (0x42, [true, true])]

theorem freeEntries_ok : EntriesOk freeEntries := ⟨by decide, by decide, by decide⟩

/-- The bits of a byte value as a code, lowest first. -/
def bitsOf (b : Byte) : Code := (List.range 8).map b.getLsbD

theorem bitsOf_prefix {b c : Byte} (h : bitsOf b <+: bitsOf c) : b = c := by
  have he := h.eq_of_length (by simp [bitsOf])
  refine BitVec.eq_of_getLsbD_eq fun i hi => ?_
  exact List.map_inj_left.1 he i (List.mem_range.2 hi)

/-- The bounds: one entry with a code of 255 bits, and 256 entries with all codes of 8 bits. -/
theorem entriesOk_at_the_bounds :
    EntriesOk [(0x00, List.replicate 255 true)] ∧ EntriesOk (allBytes.map fun b => (0x41, bitsOf b)) := by
  refine ⟨⟨by decide, by decide +kernel, by decide +kernel⟩, by simp [allBytes_length], ?_, ?_⟩
  · intro e he
    obtain ⟨b, -, rfl⟩ := List.mem_map.1 he
    simp [bitsOf]
  · exact List.pairwise_map.2 (allBytes_nodup.imp fun hne =>
      ⟨fun h => hne (bitsOf_prefix h), fun h => hne (bitsOf_prefix h).symm⟩)

/-- "AAAB" counted and its tree built: the leaves A/3 and B/1, B left of A (R166). -/
def builtTree : State := after [.fscan, .tbuild] (loaded threeAB)

def builtShape : HTree := .fork 4 (.leaf 0x42 1) (.leaf 0x41 3)

theorem builtTree_treeOf : TreeOf builtTree builtShape := by
  refine ⟨⟨2, some 1, some 0, by decide +kernel, by decide +kernel, ⟨1, rfl, by decide +kernel⟩,
    ⟨0, rfl, by decide +kernel⟩⟩, by decide +kernel, rfl, rfl, by decide +kernel⟩

/-- "AAAA" compressed up to its header, `OUT` exactly large enough for the archive. -/
def headerWritten : State := after [.fscan, .tbuild, .cderive, .hpack] (withParams 6 [] (loaded fourA))

/-- The archive of "AAAA" with its header read. -/
def headerRead (payload : Byte) : State := after [.hunpack] (loaded [0x00, 0x41, 0x01, 0x30, 0x04, payload])

def degenerateShape : HTree := .fork 0 (.leaf 0x41 0) .null

theorem headerRead_represents (v : Byte) (hv : v = 0x00 ∨ v = 0x80) :
    Represents (headerRead v) (headerRead v).root degenerateShape := by
  rcases hv with rfl | rfl <;>
  exact ⟨0, some 1, none, by decide +kernel, by decide +kernel, ⟨1, rfl, by decide +kernel⟩, rfl⟩

/-- A state in which a command was turned away. -/
def faultedState : State := after [.tbuild] State.reset

theorem witness_StepRunsTheDecodedCommand :
    ({ State.reset with host := [.writeCmd 0x03] } : State).host = .writeCmd 0x03 :: [] ∧
      decode 0x03 = .ok .cderive ∧ decodeTableWord 8 0x03 = some .cderive := ⟨rfl, rfl, rfl⟩

theorem witness_IllegalWordRaisesIllegalCommand :
    State.reset.accepting ∧ State.reset.phase = .idle ∧
      ∀ w ∈ [0x00, 0x0B, 0x0F, 0x10, 0xFF],
        ¬ (zeroField w = 0 ∧ 1 ≤ (opField w).toNat ∧ (opField w).toNat ≤ 10) := by decide

theorem witness_FaultedBlockAcceptsOnlyClear :
    faultedState.busy = false ∧ faultedState.status = some .sequenceFault := by decide +kernel

theorem witness_ClearGivesResetStateAndKeepsMemories : faultedState.busy = false := by decide +kernel

/-- The archive of "AAAA" is `00 41 01 30 04 00`: a reset inside its stream, and one that comes after it. -/
theorem witness_ResetDuringCommandLeavesResetState :
    let r := stateOf (exec .compress (loaded fourA))
    let t := stateOf (step { loaded fourA with host := [.resetDuring 0x08 3] })
    (hasNext (step { loaded fourA with host := [.resetDuring 0x08 3] }) = true ∧
      hasNext (step { loaded fourA with host := [.resetDuring 0x08 9] }) = true ∧ r.status = none ∧
      (3 : Addr) ≤ r.outLen ∧ r.outLen ≤ 9 ∧ t.outAt 1 = 0x41 ∧ t.outAt 3 = 0x00) ∧
      decode 0x08 = .ok .compress ∧ exec .compress (loaded fourA) = .next r :=
  ⟨by decide +kernel, rfl, next_of_hasNext (by decide +kernel)⟩

theorem witness_HostWriteOfInLen :
    (State.reset.busy = false ∧ State.reset.status = none) ∧
      (faultedState.busy = false ∧ faultedState.status ≠ none) ∧
      ({ State.reset with busy := true } : State).busy = true := by decide +kernel

theorem witness_HostWriteOfInput :
    State.reset.busy = false ∧ Memory.wf State.reset.inMem := by decide

theorem witness_HostReadsOfControlRegisters :
    (State.reset.busy = false ∧ State.reset.phase = .idle ∧ State.reset.status = none) ∧
      (∀ c ∈ [Cause.inputFault, .outputFault, .corruptArchive, .sequenceFault, .illegalCommand, .missingCode],
        ({ State.reset with status := some c } : State).busy = false) ∧
      (∀ u ∈ [Phase.idle, .freqScanner, .treeBuilder, .codeDeriver, .headerPacker, .headerUnpacker, .bitPacker,
          .bitUnpacker], ({ State.reset with status := some .inputFault, faultUnit := u } : State).busy = false) ∧
      ({ State.reset with host := [.read .phase] } : State).host = .read .phase :: [] := by decide

/-- At the bound, and just below it with and without a read error. -/
theorem witness_InByteReadsBelowTheLength :
    (loaded fourA).inLen ≤ 4 ∧
      ((3 : Addr) < (loaded fourA).inLen ∧ (loaded fourA).params.readFails 3 = false) ∧
      ((3 : Addr) < (withParams 9 [3] (loaded fourA)).inLen ∧
        (withParams 9 [3] (loaded fourA)).params.readFails 3 = true) := by decide +kernel

/-- At the capacity, and one byte below it. -/
theorem witness_EmitAppendsOneByteBelowTheCapacity :
    Memory.wf State.reset.outMem ∧
      (let s := { withParams 2 [] State.reset with outLen := 2 }; s.params.outCap ≤ s.outLen) ∧
      (let s := { withParams 2 [] State.reset with outLen := 1 }; s.outLen < s.params.outCap) := by decide

theorem witness_MissingPrerequisiteRaisesSequenceFault :
    State.reset.accepting ∧ State.reset.valid = Valid.allClear ∧
      (let s := { headerWritten with outLen := 4 }
       s.accepting ∧ s.valid.code = true ∧ s.valid.hdrw = true ∧ s.outLen ≠ s.hdrLen) := by decide +kernel

/-- For FscanCountsEveryByte and FscanMeasuresTheAlphabet. -/
theorem witness_Fscan : (loaded fourA).accepting ∧ (loaded fourA).inputReadable :=
  ⟨by decide, fun a _ => readable_of_no_error rfl a⟩

theorem witness_FscanReportsTheLowestFailingAddress :
    let s := withParams 100 [2, 3] (loaded fourA)
    s.accepting ∧ (2 : Addr) < s.inLen ∧ s.params.readFails 2 = true ∧
      ∀ b : Addr, b < 2 → s.params.readFails b = false := by
  refine ⟨by decide, by decide, by decide, fun b hb => ?_⟩
  have h2 : b ≠ 2 := by bv_omega
  have h3 : b ≠ 3 := by bv_omega
  simpa [withParams, Params.readFails] using ⟨h2, h3⟩

theorem witness_TbuildOfTheEmptyAlphabet :
    let s := { State.reset with valid := { Valid.allClear with freq := true } }
    s.accepting ∧ s.valid.freq = true ∧ ∀ b, s.freq.get b = 0 :=
  ⟨by decide, rfl, fun b => Table.get_const 0 b⟩

theorem witness_TbuildOfOneSymbol :
    let s := { State.reset with
      valid := { Valid.allClear with freq := true }, freq := (Table.const 0).set 0x41 4 }
    s.accepting ∧ s.valid.freq = true ∧ s.freq.get 0x41 ≠ 0 ∧ ∀ c, c ≠ 0x41 → s.freq.get c = 0 := by
  refine ⟨by decide, rfl, by decide +kernel, fun c hc => ?_⟩
  have : (0x41 : Byte) ≠ c := fun e => hc e.symm
  exact (Table.get_set_ne _ _ this).trans (Table.get_const 0 c)

/-- For TbuildAllocatesLeavesThenMerges and TbuildBuildsAWeightedTree. -/
theorem witness_TbuildAllocatesLeavesThenMerges :
    let s := after [.fscan] (loaded threeAB)
    s.accepting ∧ s.valid.freq = true ∧ 2 ≤ (counted s.freq).length := by decide +kernel

theorem witness_MergePassTakesTheLastTwo :
    ({ State.reset with list := [3, 0, 1] } : State).list = [3] ++ [0, 1] := rfl

/-- For CderiveGivesEveryLeafItsPath and CderiveCodesArePrefixFree. -/
theorem witness_Cderive :
    builtTree.accepting ∧ builtTree.valid.tree = true ∧ TreeOf builtTree builtShape :=
  ⟨by decide +kernel, by decide +kernel, builtTree_treeOf⟩

theorem witness_HpackWritesTheHeader :
    let s := withParams 5 [] (after [.fscan, .tbuild, .cderive] (loaded fourA))
    s.accepting ∧ s.valid.code = true ∧ Memory.wf s.outMem ∧ present s.code ≠ [] ∧
      headerLength s.code ≤ s.params.outCap.toNat := by decide +kernel

theorem witness_HpackOfTheEmptyTable :
    let s := { State.reset with valid := { Valid.allClear with freq := true, tree := true, code := true } }
    s.accepting ∧ s.valid.code = true ∧ ∀ b, s.code.get b = [] :=
  ⟨by decide, rfl, fun b => Table.get_const [] b⟩

theorem witness_HpackFaultsWhenOutIsFull :
    let s := withParams 4 [] (after [.fscan, .tbuild, .cderive] (loaded fourA))
    s.accepting ∧ s.valid.code = true ∧ s.params.outCap.toNat < headerLength s.code := by decide +kernel

theorem witness_BpackWritesTheCodeBits :
    let s := headerWritten
    (s.accepting ∧ s.valid.code = true ∧ s.valid.hdrw = true ∧ s.outLen = s.hdrLen ∧ Memory.wf s.outMem ∧
      (∀ b ∈ s.input, s.code.get b ≠ []) ∧
      s.hdrLen.toNat + ((codeBits s.code s.input).length + 7) / 8 ≤ s.params.outCap.toNat) ∧ s.inputReadable :=
  ⟨by decide +kernel, fun a _ => readable_of_no_error (by decide +kernel) a⟩

theorem witness_BpackReportsTheFirstByteWithoutCode :
    let s := headerWritten.storeIn 3 0x42
    (s.accepting ∧ s.valid.code = true ∧ s.valid.hdrw = true ∧ s.outLen = s.hdrLen ∧ s.input[3]? = some 0x42 ∧
      s.code.get 0x42 = [] ∧ (∀ c ∈ s.input.take 3, s.code.get c ≠ []) ∧
      s.hdrLen.toNat + (codeBits s.code (s.input.take 3)).length / 8 ≤ s.params.outCap.toNat) ∧
      ∀ a : Addr, a.toNat ≤ 3 → s.params.readFails a = false :=
  ⟨by decide +kernel, fun a _ => readable_of_no_error (by decide +kernel) a⟩

/-- For HunpackOfTheEmptyArchive and HunpackAlwaysEnds. -/
theorem witness_Hunpack :
    (State.reset.accepting ∧ State.reset.inLen = 0) ∧ ((loaded [0xFF]).accepting ∧ (loaded [0xFF]).inLen ≠ 0) := by
  decide

theorem witness_HunpackRebuildsTheCodeTree :
    let h := headerOf freeEntries 5
    let s := loaded h
    (s.accepting ∧ h.length ≤ s.inLen.toNat) ∧ s.inputReadable ∧ EntriesOk freeEntries ∧
      ∀ k v, h[k]? = some v → s.inAt k = v :=
  ⟨by decide +kernel, fun a _ => readable_of_no_error rfl a, freeEntries_ok, at_of_bounded (by decide +kernel)⟩

/-- The clauses in order: R240, R242, R245 (a) and (b), R241; the byte is at the cursor, 0. -/
theorem witness_HeaderChecksNameTheOffendingByte :
    let s240 := loaded [0x41, 0x00]
    let s242 := loaded [0x32]
    let nd : Node := { kind := .internal, left := some 1, right := none, sym := 0, weight := 0 }
    let s245 := { loaded [0x30] with node := [nd, Node.bareLeaf 0x41], nodeCount := 2 }
    let s241 := loaded [0x08]
    (∀ s ∈ [s240, s242, s245, s241], s.inPtr < s.inLen ∧ s.params.readFails s.inPtr = false) ∧
      (s240.inPtr + 1 < s240.inLen ∧ s240.params.readFails (s240.inPtr + 1) = false ∧
        s240.inAt (s240.inPtr + 1).toNat = 0) ∧
      (s242.inAt s242.inPtr.toNat ≠ 0x30 ∧ s242.inAt s242.inPtr.toNat ≠ 0x31) ∧
      (s245.inAt s245.inPtr.toNat = 0x30 ∧ nd.left = some 1 ∧ s245.nodeAt 0 = some nd ∧
        s245.nodeAt 1 = some (Node.bareLeaf 0x41) ∧ (Node.bareLeaf 0x41).kind = .leaf) ∧
      7 < (s241.inAt s241.inPtr.toNat).toNat := by decide +kernel

theorem witness_BunpackDecodesLeafPaths :
    let s := withParams 4 [] (headerRead 0x00)
    let pieces : List (Code × Byte) := List.replicate 4 ([false], 0x41)
    (s.accepting ∧ s.valid.hdrr = true ∧ degenerateShape.isFork = true ∧ s.hdrLen < s.inLen ∧ Memory.wf s.outMem ∧
      payloadBits s = pieces.flatMap Prod.fst ∧ (∀ pc ∈ pieces, degenerateShape.leafAt pc.1 = some pc.2) ∧
      pieces.length ≤ s.params.outCap.toNat) ∧
      s.inputReadable ∧ Represents s s.root degenerateShape :=
  ⟨by decide +kernel, fun a _ => readable_of_no_error rfl a,
    ⟨0, some 1, none, by decide +kernel, by decide +kernel, ⟨1, rfl, by decide +kernel⟩, rfl⟩⟩

theorem witness_BunpackEmptyCases :
    (let s := after [.hunpack] (loaded []); s.accepting ∧ s.valid.hdrr = true ∧ s.root = none) ∧
      (let s := after [.hunpack] (loaded [0x00, 0x41, 0x01, 0x30, 0x04])
       s.accepting ∧ s.valid.hdrr = true ∧ s.root ≠ none ∧ s.inLen = s.hdrLen) := by decide +kernel

/-- R296, the second row: bit 7 of the payload byte selects the `NULL` right child. -/
theorem witness_BunpackFaultsOnANullChild :
    let s := headerRead 0x80
    (s.accepting ∧ s.valid.hdrr = true ∧ degenerateShape.isFork = true ∧ s.hdrLen < s.inLen ∧
      payloadBits s = [] ++ [] ++ true :: [false, false, false] ∧
      degenerateShape.sub [] = .fork 0 (.leaf 0x41 0) .null) ∧
      s.inputReadable ∧ Represents s s.root degenerateShape :=
  ⟨by decide +kernel, fun a _ => readable_of_no_error (by decide +kernel) a,
    headerRead_represents _ (.inr rfl)⟩

/-- R296, the fourth row. -/
theorem witness_BunpackFaultsInsideACode :
    let s := after [.hunpack] (loaded [0x01, 0x41, 0x01, 0x30, 0x42, 0x02, 0x31, 0x30, 0x07, 0x80])
    let T : HTree := .fork 0 (.leaf 0x41 0) (.fork 0 (.leaf 0x42 0) .null)
    (s.accepting ∧ s.valid.hdrr = true ∧ T.isFork = true ∧ s.hdrLen < s.inLen ∧
      payloadBits s = ([] : List Bool) ++ [true] ∧ (T.sub [true]).isFork = true) ∧
      s.inputReadable ∧ Represents s s.root T :=
  ⟨by decide +kernel, fun a _ => readable_of_no_error (by decide +kernel) a,
    ⟨0, some 1, some 2, by decide +kernel, by decide +kernel, ⟨1, rfl, by decide +kernel⟩,
      ⟨2, some 3, none, rfl, by decide +kernel, ⟨3, rfl, by decide +kernel⟩, rfl⟩⟩⟩

theorem witness_BunpackIgnoresPaddingBits :
    let s := headerRead 0x00
    let m := Memory.write 5 0x0F s.inMem
    (s.hdrLen ≤ s.inLen ∧ s.inLen.toNat = 6 ∧ (∀ a < 5, Memory.read a m = s.inAt a) ∧
      (∀ pos < 8, s.padding.toNat ≤ pos → (Memory.read 5 m).getLsbD pos = (s.inAt 5).getLsbD pos)) ∧
      exec .bunpack s = .next (stateOf (exec .bunpack s)) :=
  ⟨by decide +kernel, next_of_hasNext (by decide +kernel)⟩

/-- For CompositesEqualTheirUnitSequences, CompressHasOnlyItsTwoFaults and DecompressHasOnlyItsThreeFaults. -/
theorem witness_Composites : (loaded fourA).accepting ∧ (loaded []).accepting := by decide

theorem witness_CompressSucceeds :
    let s := withParams 66049 [] (loaded [0x41])
    (s.accepting ∧ 65794 + 255 * s.inLen.toNat ≤ s.params.outCap.toNat) ∧ s.inputReadable :=
  ⟨by decide +kernel, fun a _ => readable_of_no_error rfl a⟩

/-- The entries `42 41` sent: code bits "100", so five padding bits, here not all 0. -/
theorem witness_DecompressDecodesArchives :
    let sent : List (Byte × Code) := [(0x42, [true, false]), (0x41, [false])]
    let h := headerOf freeEntries 5
    let bits := sent.flatMap Prod.snd
    let s := withParams 2 [] (loaded (h ++ [0x8F]))
    (s.accepting ∧ Memory.wf s.outMem ∧ sent ≠ [] ∧ (∀ e ∈ sent, e ∈ freeEntries) ∧
      (5 : BitVec 3).toNat = (8 - bits.length % 8) % 8 ∧
      s.inLen.toNat = h.length + (bits.length + 7) / 8 ∧ sent.length ≤ s.params.outCap.toNat) ∧
      s.inputReadable ∧ EntriesOk freeEntries ∧ (∀ k v, h[k]? = some v → s.inAt k = v) ∧
      ∀ k bit, bits[k]? = some bit → streamBit s.inAt h.length k = bit :=
  ⟨by decide +kernel, fun a _ => readable_of_no_error rfl a, freeEntries_ok,
    at_of_bounded (by decide +kernel), at_of_bounded (by decide +kernel)⟩

theorem witness_PaddingAccountsForThePayload :
    let s := loaded threeAB
    let t := stateOf (exec .compress s)
    (s.accepting ∧ s.inLen ≠ 0 ∧ t.status = none) ∧ exec .compress s = .next t :=
  ⟨by decide +kernel, next_of_hasNext (by decide +kernel)⟩

theorem witness_ArchiveOfOneSymbol :
    let s := withParams 6 [] (loaded fourA)
    (s.accepting ∧ Memory.wf s.outMem ∧ s.inLen ≠ 0 ∧ (∀ c ∈ s.input, c = 0x41) ∧
      5 + (s.inLen.toNat + 7) / 8 ≤ s.params.outCap.toNat) ∧ s.inputReadable :=
  ⟨by decide +kernel, fun a _ => readable_of_no_error rfl a⟩

theorem witness_DecompressInvertsCompress :
    let s := loaded threeAB
    let t := stateOf (exec .compress s)
    let u := withParams 4 [] (loaded [0x01, 0x41, 0x01, 0x31, 0x42, 0x01, 0x30, 0x04, 0xE0])
    (s.accepting ∧ Memory.wf s.outMem ∧ t.status = none ∧ u.accepting ∧ Memory.wf u.outMem ∧ u.input = t.output ∧
      s.inLen ≤ u.params.outCap) ∧ exec .compress s = .next t ∧ u.inputReadable :=
  ⟨by decide +kernel, next_of_hasNext (by decide +kernel), fun a _ => readable_of_no_error rfl a⟩

/-- A state that meets the invariant with a tree in the arena, and whose next step has an effect. -/
def armed : State := { builtTree with host := [.writeCmd 0x03] }

theorem armed_nodes : armed.node =
    [{ kind := .leaf, left := none, right := none, sym := 0x41, weight := 3 },
     { kind := .leaf, left := none, right := none, sym := 0x42, weight := 1 },
     { kind := .internal, left := some 1, right := some 0, sym := 0, weight := 4 }] := by decide +kernel

theorem armed_arenaOk : ArenaOk armed where
  count := by decide +kernel
  cap := by rw [armed_nodes]; decide
  tree := fun _ => by
    have hr : armed.root = some 2 := by decide +kernel
    rw [armed_nodes, hr]
    refine ⟨?_, fun i hi => ?_⟩
    · intro i n h
      rcases i with _ | _ | _ | i <;> simp at h <;> subst h <;>
        refine ⟨fun j hj => ?_, fun j hj => ?_⟩ <;> simp at hj <;> subst hj <;> decide
    · cases hi; decide
  header := fun h => absurd h (by decide +kernel)

theorem armed_inv : Inv armed where
  idle := by decide +kernel
  noFault := fun _ => by decide +kernel
  faulted := fun h => absurd (by decide +kernel) h
  stage := by decide +kernel
  inForm := by decide +kernel
  outForm := by decide +kernel
  outLen := by decide +kernel
  arena := fun _ => armed_arenaOk
  workList := fun _ => by decide +kernel
  hdrLen := fun h => absurd h (by decide +kernel)
  padding := fun h => absurd h (by decide +kernel)
  packed := fun h => absurd h (by decide +kernel)

/-- For StepKeepsTheInvariant, FlagsVouchForTreeAndCodes and InvariantStatesAlwaysStep. -/
theorem witness_Invariant : Inv armed ∧ step armed = .next (stateOf (step armed)) :=
  ⟨armed_inv, next_of_hasNext (by decide +kernel)⟩

/-- With the flag `V_TREE` set; `V_CODE` is set in the next witness. -/
theorem witness_FlagsVouchForTreeAndCodes : Vouched armed where
  tree := fun _ => ⟨builtShape, ⟨2, some 1, some 0, by decide +kernel, by decide +kernel,
    ⟨1, rfl, by decide +kernel⟩, ⟨0, rfl, by decide +kernel⟩⟩, by decide +kernel, rfl, rfl, by decide +kernel⟩
  codes := fun h => absurd h (by decide +kernel)
  fit := fun _ b => by
    have h : armed.code = Table.const [] := by decide +kernel
    rw [h, Table.get_const]
    decide

/-- The code table of "AAAA": `CODE`, `TOTAL_BITS` and `PADDING` of the degenerate tree (R200, R201). -/
def derived : State := after [.fscan, .tbuild, .cderive] (loaded fourA)

theorem derived_code : derived.code = (Table.const []).set 0x41 [false] := by decide +kernel

theorem derived_freq : derived.freq = (Table.const 0).set 0x41 4 := by decide +kernel

theorem witness_Vouched_with_codes : derived.valid.code = true ∧ Vouched derived := by
  have hT : TreeOf derived (.fork 4 (.leaf 0x41 4) .null) :=
    ⟨⟨1, some 0, none, by decide +kernel, by decide +kernel, ⟨0, rfl, by decide +kernel⟩, rfl⟩,
      by decide +kernel, rfl, rfl, by decide +kernel⟩
  refine ⟨by decide +kernel, fun _ => ⟨_, hT⟩, fun _ => ⟨?_, _, hT, ?_, ?_, by decide +kernel⟩, ?_⟩
  · intro b c hbc hb hc
    simp only [derived_code, Table.get_set, Table.get_const] at hb hc
    split at hb <;> split at hc <;> simp_all
  · intro b p hp
    simp only [derived_code, Table.get_set, Table.get_const]
    match p with
    | [] => exact absurd rfl hp
    | [false] => simp [HTree.leafAt, HTree.sub]
    | [true] => split <;> simp [HTree.leafAt, HTree.sub]
    | false :: _ :: _ => split <;> simp [HTree.leafAt, HTree.sub]
    | true :: _ :: _ => split <;> simp [HTree.leafAt, HTree.sub]
  · have ht : derived.totalBits = 4 := by decide +kernel
    rw [ht, derived_code, derived_freq]
    decide +kernel
  · intro _ b
    simp only [derived_code, Table.get_set, Table.get_const]
    split <;> simp

theorem witness_FaultRecordIsSticky :
    let s := { faultedState with host := [.writeIn 0 0x41] }
    s.status = some .sequenceFault ∧ hasNext (step s) = true ∧
      (∀ rest, s.host ≠ .writeCmd 0x0A :: rest) ∧ (∀ rest, s.host ≠ .hardReset :: rest) ∧
      ∀ w cut rest, s.host ≠ .resetDuring w cut :: rest :=
  ⟨by decide +kernel, by decide +kernel, by simp, by simp, by simp⟩

theorem witness_OnlyTheHostWritesInput :
    let s := { loaded fourA with host := [.writeCmd 0x08] }
    step s = .next (stateOf (step s)) ∧ ∀ a v rest, s.host ≠ .writeIn a v :: rest :=
  ⟨next_of_hasNext (by decide +kernel), by simp⟩

/-- `OUT` one byte too small for the payload. -/
theorem witness_NoCommandWritesAtTheCapacity :
    let s := { headerWritten with params := { outCap := 5, inErr := [] } }
    let t := stateOf (exec .bpack s)
    (s.accepting ∧ s.outLen ≤ s.params.outCap ∧ t.status = some .outputFault) ∧ exec .bpack s = .next t :=
  ⟨by decide +kernel, next_of_hasNext (by decide +kernel)⟩

theorem witness_FaultTableByUnit :
    Inv armed ∧ armed.status = none ∧ exec .hpack armed = .next (stateOf (exec .hpack armed)) ∧
      (stateOf (exec .hpack armed)).status = some .sequenceFault :=
  ⟨armed_inv, by decide +kernel, next_of_hasNext (by decide +kernel), by decide +kernel⟩

theorem witness_FrameOfAFault :
    exec .hpack armed = .next (stateOf (exec .hpack armed)) ∧ armed.status = none ∧
      (stateOf (exec .hpack armed)).status ≠ none :=
  ⟨next_of_hasNext (by decide +kernel), by decide +kernel, by decide +kernel⟩

/-- Each command, from a state in which it ends without a fault. -/
theorem witness_Frames :
    ∀ c ∈ [(Instr.fscan, loaded fourA), (.tbuild, after [.fscan] (loaded fourA)), (.cderive, builtTree),
        (.hunpack, loaded fourAArchive), (.hpack, after [.cderive] builtTree), (.bpack, headerWritten),
        (.bunpack, headerRead 0x00), (.compress, loaded fourA), (.decompress, loaded fourAArchive)],
      hasNext (exec c.1 c.2) = true ∧ (stateOf (exec c.1 c.2)).status = c.2.status := by decide +kernel

end Sys2Proof.Tests
end

/-! ## Where a run ends

`Run.Ends` is the partial counterpart of `Run.Meets`: nothing is asked of a run that stops the model, so the frames
below hold of every state. -/

namespace Sys2Proof.Machine

section Ends

variable {α β : Type}

/-- Where a part of a unit ends: `Q` of its result and state if it goes on, `R` of the state if a fault of the
block ends it. -/
def Run.Ends (r : Run α) (Q : α → State → Prop) (R : State → Prop) : Prop :=
  match r with
  | .ok a s => Q a s
  | .raised s => R s
  | .stuck _ => True

theorem Run.Meets.ends {r : Run α} {Q : α → State → Prop} {R : State → Prop} (h : r.Meets Q R) :
    r.Ends Q R := by
  cases r with
  | ok a s => exact h
  | raised s => exact h
  | stuck f => exact h.elim

theorem Run.Ends.mono {r : Run α} {Q Q' : α → State → Prop} {R R' : State → Prop} (h : r.Ends Q R)
    (hQ : ∀ a s, Q a s → Q' a s) (hR : ∀ s, R s → R' s) : r.Ends Q' R' := by
  cases r with
  | ok a s => exact hQ a s h
  | raised s => exact hR s h
  | stuck f => trivial

theorem Run.Ends.andThen {r : Run α} {k : α → State → Run β} {P : α → State → Prop}
    {Q : β → State → Prop} {R : State → Prop} (h : r.Ends P R) (hk : ∀ a s, P a s → (k a s).Ends Q R) :
    (r.andThen k).Ends Q R := by
  cases r with
  | ok a s => exact hk a s h
  | raised s => exact h
  | stuck f => trivial

/-- A loop over a list keeps what its body keeps. -/
theorem forEach_ends {I R : State → Prop} {body : α → State → Run Unit} (xs : List α)
    (hb : ∀ x s, I s → (body x s).Ends (fun _ t => I t) R) {s : State} (hs : I s) :
    (forEach body xs s).Ends (fun _ t => I t) R := by
  induction xs generalizing s with
  | nil => exact hs
  | cons x xs ih => exact (hb x s hs).andThen fun _ _ ht => ih ht

/-- A loop over addresses keeps what its body keeps. -/
theorem forAddr_ends {I R : State → Prop} {body : Addr → State → Run Unit} (n : Nat) (a : Addr)
    (hb : ∀ a s, I s → (body a s).Ends (fun _ t => I t) R) {s : State} (hs : I s) :
    (forAddr body n a s).Ends (fun _ t => I t) R := by
  induction n generalizing a s with
  | zero => exact hs
  | succ n ih => exact (hb a s hs).andThen fun _ _ ht => ih (a + 1) ht

theorem require_meets {met : Bool} {word : Byte} {s : State} {k : State → Run α} {Q : α → State → Prop}
    {R : State → Prop} (hk : met = true → (k s).Meets Q R)
    (hr : R (s.enterFault .sequenceFault (word.setWidth 64))) : (require met word s k).Meets Q R := by
  cases met with
  | true => exact hk rfl
  | false => exact hr

theorem Run.meets_ite {c : Prop} [Decidable c] {r q : Run α} {Q : α → State → Prop} {R : State → Prop}
    (hr : c → r.Meets Q R) (hq : ¬ c → q.Meets Q R) : (if c then r else q).Meets Q R := by
  split
  · exact hr ‹_›
  · exact hq ‹_›

theorem require_ends {met : Bool} {word : Byte} {s : State} {k : State → Run α} {Q : α → State → Prop}
    {R : State → Prop} (hk : met = true → (k s).Ends Q R)
    (hr : R (s.enterFault .sequenceFault (word.setWidth 64))) : (require met word s k).Ends Q R := by
  cases met with
  | true => exact hk rfl
  | false => exact hr

end Ends

/-! ## What every command does to the memories

`IN`, `IN_LEN`, the parameters and the script stay; `OUT` stays in canonical form and below its capacity. -/

/-- What every unit, and every part of one, keeps from `s` to `t` (R351, R77). -/
structure Stores (s t : State) : Prop where
  inLen   : t.inLen = s.inLen
  inMem   : t.inMem = s.inMem
  params  : t.params = s.params
  host    : t.host = s.host
  outForm : Memory.wf s.outMem → Memory.wf t.outMem
  outLen  : s.outLen ≤ s.params.outCap → t.outLen ≤ s.params.outCap
  above   : ∀ a, s.params.outCap.toNat ≤ a → t.outAt a = s.outAt a

theorem Stores.refl (s : State) : Stores s s := ⟨rfl, rfl, rfl, rfl, id, id, fun _ _ => rfl⟩

theorem Stores.trans {s t u : State} (h : Stores s t) (k : Stores t u) : Stores s u where
  inLen := k.inLen.trans h.inLen
  inMem := k.inMem.trans h.inMem
  params := k.params.trans h.params
  host := k.host.trans h.host
  outForm := fun hs => k.outForm (h.outForm hs)
  outLen := fun hs => h.params ▸ k.outLen (h.params.symm ▸ h.outLen hs)
  above := fun a ha => (k.above a (h.params.symm ▸ ha)).trans (h.above a ha)

/-- A state that a fault has ended: what U6 leaves defined (R350). -/
structure FaultFrom (s t : State) : Prop where
  stores : Stores s t
  status : t.status ≠ none
  valid  : t.valid = Valid.allClear
  phase  : t.phase = .idle
  busy   : t.busy = false

theorem Stores.fault {s t : State} (h : Stores s t) (c : Cause) (info : BitVec 64) :
    FaultFrom s (t.enterFault c info) :=
  ⟨⟨h.inLen, h.inMem, h.params, h.host, h.outForm, h.outLen, h.above⟩, Option.some_ne_none c, rfl, rfl, rfl⟩

theorem FaultFrom.of_stores {s t u : State} (h : Stores s t) (k : FaultFrom t u) : FaultFrom s u :=
  ⟨h.trans k.stores, k.status, k.valid, k.phase, k.busy⟩

theorem Run.Meets.faultFrom {α : Type} {r : Run α} {Q : α → State → Prop} {s t : State}
    (h : r.Meets Q (FaultFrom t)) (hs : Stores s t) : r.Meets Q (FaultFrom s) :=
  h.mono (fun _ _ => id) fun _ hf => hf.of_stores hs

theorem Run.Ends.faultFrom {α : Type} {r : Run α} {Q : α → State → Prop} {s t : State}
    (h : r.Ends Q (FaultFrom t)) (hs : Stores s t) : r.Ends Q (FaultFrom s) :=
  h.mono (fun _ _ => id) fun _ hf => hf.of_stores hs

/-- `in_byte` moves the input cursor only (R76). -/
theorem inByte_meets (a : Addr) (s : State) :
    (inByte a s).Meets
      (fun v t => v = Memory.read a.toNat s.inMem ∧ a < s.inLen ∧ t = { s with inPtr := a + 1 })
      (FaultFrom s) := by
  have hf : ∀ c, FaultFrom s (s.enterFault c a) := fun c => (Stores.refl s).fault c a
  rcases inByte_cases a s with ⟨ha, -, h⟩ | ⟨-, -, h⟩ | ⟨-, -, h⟩ | ⟨-, -, h⟩ <;> rw [h]
  · exact ⟨rfl, ha, rfl⟩
  · exact hf _
  · exact hf _
  · exact hf _

/-- A byte appended below the capacity keeps what every command keeps. -/
theorem stores_append {s : State} (v : Byte) (h : s.outLen < s.params.outCap) :
    Stores s { s with outMem := Memory.write s.outLen.toNat v s.outMem, outLen := s.outLen + 1 } where
  inLen := rfl
  inMem := rfl
  params := rfl
  host := rfl
  outForm := Memory.write_wf v s.outLen.isLt
  outLen := fun _ => BitVec.le_def.2 (by rw [outLen_succ h]; exact h)
  above := fun _ ha => Memory.read_write_ne v _ (Nat.ne_of_lt (Nat.lt_of_lt_of_le h ha))

/-- `emit` writes `OUT` and its cursor only (R77). -/
theorem emit_meets (v : Byte) (s : State) :
    (emit v s).Meets
      (fun _ t => Stores s t ∧ t.outLen = s.outLen + 1 ∧ ∃ m n, t = { s with outMem := m, outLen := n })
      (FaultFrom s) := by
  rcases emit_cases v s with ⟨hlt, h⟩ | ⟨-, h⟩ <;> rw [h]
  · exact ⟨stores_append v hlt, rfl, _, _, rfl⟩
  · exact (Stores.refl s).fault _ _

end Sys2Proof.Machine

/-! ## The frame of each unit that builds no arena

Each is stated once, of every state: what the unit requires, which fields it writes and which flags it leaves. A frame
`∃ …, t = { s with … }` names the written fields; what is not named is kept. -/

namespace Sys2Proof.Machine

/-- A state with the same `IN`, `OUT`, cursor, parameters and script. -/
theorem Stores.of_same {s t : State} (hl : t.inLen = s.inLen) (hi : t.inMem = s.inMem)
    (hp : t.params = s.params) (hh : t.host = s.host) (hm : t.outMem = s.outMem) (hn : t.outLen = s.outLen) :
    Stores s t where
  inLen := hl
  inMem := hi
  params := hp
  host := hh
  outForm := fun h => hm ▸ h
  outLen := fun h => hn ▸ h
  above := fun a _ => congrArg (Memory.read a) hm

/-- The stream of `OUT` starts at 0 again (R215, R283). -/
theorem Stores.restart {s t : State} (hl : t.inLen = s.inLen) (hi : t.inMem = s.inMem)
    (hp : t.params = s.params) (hh : t.host = s.host) (hm : t.outMem = s.outMem) (hn : t.outLen = 0) :
    Stores s t where
  inLen := hl
  inMem := hi
  params := hp
  host := hh
  outForm := fun h => hm ▸ h
  outLen := fun _ => hn ▸ BitVec.le_def.2 (Nat.zero_le _)
  above := fun a _ => congrArg (Memory.read a) hm

theorem stores_startUnit (p : Phase) (s : State) : Stores s (s.startUnit p) :=
  Stores.of_same rfl rfl rfl rfl rfl rfl

/-! ### FSCAN (R141) -/

/-- The fields the scan loop writes. -/
def ScannedFrom (s t : State) : Prop := ∃ f n p, t = { s with freq := f, alpha := n, inPtr := p }

theorem scanByte_meets (a : Addr) {s u : State} (h : ScannedFrom s u) :
    (scanByte a u).Meets (fun _ t => ScannedFrom s t) (FaultFrom s) := by
  obtain ⟨f, n, p, rfl⟩ := h
  refine ((inByte_meets a _).faultFrom ?_).andThen ?_
  · exact Stores.of_same rfl rfl rfl rfl rfl rfl
  · rintro v _ ⟨-, -, rfl⟩
    exact ⟨_, _, _, rfl⟩

/-- FSCAN's frame and flags. -/
theorem fscanUnit_meets (s : State) :
    (fscanUnit s).Meets
      (fun _ t => Stores s t ∧ ∃ f n p, t = { s with
        freq := f, alpha := n, inPtr := p, valid := { Valid.allClear with freq := true }, phase := .idle })
      (FaultFrom s) := by
  have hs : Stores s (s.startUnit .freqScanner).scanStart := Stores.of_same rfl rfl rfl rfl rfl rfl
  refine ((forAddr_meets (I := fun _ => ScannedFrom (s.startUnit .freqScanner).scanStart) _ 0
    (fun _ _ _ => scanByte_meets _) ⟨_, _, _, rfl⟩).faultFrom hs).andThen ?_
  rintro - _ ⟨f, n, p, rfl⟩
  exact ⟨Stores.of_same rfl rfl rfl rfl rfl rfl, _, _, _, rfl⟩

/-! ### CDERIVE (R191) -/

/-- The fields CDERIVE's walk writes. -/
def CodedFrom (s t : State) : Prop := ∃ c n, t = { s with code := c, totalBits := n }

theorem walk_ends (R : State → Prop) (fuel : Nat) (n : NodeIx) (path : Code) {s u : State} (h : CodedFrom s u) :
    (walk fuel n path u).Ends (fun _ t => CodedFrom s t) R := by
  induction fuel generalizing n path u with
  | zero => trivial
  | succ fuel ih =>
    have link : ∀ (l : Link) (p : Code) {u : State}, CodedFrom s u →
        (match l with
          | none => Run.ok () u
          | some i => walk fuel i p u : Run Unit).Ends (fun _ t => CodedFrom s t) R := fun l p _ hu => by
      cases l with
      | none => exact hu
      | some i => exact ih i p hu
    rw [walk]
    cases u.nodeAt n with
    | none => trivial
    | some nd =>
      cases hk : nd.kind with
      | leaf =>
        obtain ⟨c, m, rfl⟩ := h
        simp only [hk]
        exact ⟨_, _, rfl⟩
      | internal =>
        simp only [hk]
        exact (link nd.left _ h).andThen fun _ _ ht => link nd.right _ ht

/-- CDERIVE's prerequisite, frame and flags. -/
theorem cderiveUnit_ends (s : State) :
    (cderiveUnit s).Ends
      (fun _ t => s.valid.tree = true ∧ Stores s t ∧ ∃ c n, t = { s with
        code := c, totalBits := n, padding := paddingOf n, valid := { s.valid.atCderive with code := true }
        phase := .idle })
      (FaultFrom s) := by
  refine require_ends (fun hv => ?_) ((stores_startUnit _ s).fault _ _)
  have hw : (walkTree (s.startUnit .codeDeriver).deriveStart).Ends
      (fun _ t => CodedFrom (s.startUnit .codeDeriver).deriveStart t) (FaultFrom s) := by
    rw [walkTree]
    split
    · exact ⟨_, _, rfl⟩
    · exact walk_ends _ _ _ _ ⟨_, _, rfl⟩
  refine hw.andThen ?_
  rintro - _ ⟨c, n, rfl⟩
  exact ⟨hv, Stores.of_same rfl rfl rfl rfl rfl rfl, _, _, rfl⟩

/-! ### HPACK (R211) -/

/-- The fields `emit` writes. -/
def EmittedFrom (s t : State) : Prop := Stores s t ∧ ∃ m n, t = { s with outMem := m, outLen := n }

theorem emit_from (v : Byte) {s u : State} (h : EmittedFrom s u) :
    (emit v u).Meets (fun _ t => EmittedFrom s t) (FaultFrom s) := by
  obtain ⟨hs, m, n, rfl⟩ := h
  refine (emit_meets v _).mono ?_ fun _ h => h.of_stores hs
  rintro - _ ⟨ht, -, m', n', rfl⟩
  exact ⟨hs.trans ht, _, _, rfl⟩

/-- HPACK's prerequisite, frame and flags; the header is all of `OUT`. -/
theorem hpackUnit_meets (s : State) :
    (hpackUnit s).Meets
      (fun _ t => s.valid.code = true ∧ Stores s t ∧ ∃ m n, t = { s with
        outMem := m, outLen := n, hdrLen := n, valid := { s.valid.atHpack with hdrw := true }, phase := .idle })
      (FaultFrom s) := by
  refine require_meets (fun hv => ?_) ((stores_startUnit _ s).fault _ _)
  have hs : Stores s (s.startUnit .headerPacker).packStart := Stores.restart rfl rfl rfl rfl rfl rfl
  refine ((forEach_meets (I := EmittedFrom (s.startUnit .headerPacker).packStart) (fun v _ _ h => emit_from v h)
    ⟨Stores.refl _, _, _, rfl⟩).faultFrom hs).andThen ?_
  rintro - _ ⟨ht, m, n, rfl⟩
  exact ⟨hv, (hs.trans ht).trans (Stores.of_same rfl rfl rfl rfl rfl rfl), _, _, rfl⟩

/-! ### BPACK (R261) -/

/-- The fields BPACK's loop writes; what stands in `OUT` is the header and the payload bytes so far (R266). -/
def PackedFrom (s t : State) : Prop :=
  Stores s t ∧ t.outLen = t.hdrLen + t.payLen ∧ ∃ m n l acc pos k p, t = { s with
    outMem := m, outLen := n, payLen := l, pkAcc := acc, pkPos := pos, symCount := k, inPtr := p }

theorem flushByte_meets {s u : State} (h : PackedFrom s u) :
    (flushByte u).Meets (fun _ t => PackedFrom s t) (FaultFrom s) := by
  obtain ⟨hs, hn, m, n, l, acc, pos, k, p, rfl⟩ := h
  refine ((emit_meets acc _).faultFrom hs).andThen ?_
  rintro - _ ⟨ht, hlen, m', n', rfl⟩
  refine ⟨(hs.trans ht).trans (Stores.of_same rfl rfl rfl rfl rfl rfl), ?_, _, _, _, _, _, _, _, rfl⟩
  exact hlen.trans ((congrArg (· + 1) hn).trans (BitVec.add_assoc _ _ _))

theorem PackedFrom.registers {s u : State} (h : PackedFrom s u) (acc : Byte) (pos : BitVec 3) (k : BitVec 64)
    (p : Addr) : PackedFrom s { u with pkAcc := acc, pkPos := pos, symCount := k, inPtr := p } := by
  obtain ⟨hs, hn, m, n, l, acc', pos', k', p', rfl⟩ := h
  exact ⟨hs.trans (Stores.of_same rfl rfl rfl rfl rfl rfl), hn, _, _, _, _, _, _, _, rfl⟩

theorem packBit_meets (bit : Bool) {s u : State} (h : PackedFrom s u) :
    (packBit bit u).Meets (fun _ t => PackedFrom s t) (FaultFrom s) := by
  refine Run.meets_ite (fun _ => ?_) fun _ => ?_
  · exact flushByte_meets (h.registers _ u.pkPos u.symCount u.inPtr)
  · exact h.registers _ _ u.symCount u.inPtr

theorem packByte_meets (a : Addr) {s u : State} (h : PackedFrom s u) :
    (packByte a u).Meets (fun _ t => PackedFrom s t) (FaultFrom s) := by
  refine ((inByte_meets a u).faultFrom h.1).andThen ?_
  rintro v _ ⟨-, -, rfl⟩
  have hu := h.registers u.pkAcc u.pkPos u.symCount (a + 1)
  split
  · exact hu.1.fault _ _
  · exact (forEach_meets (fun bit _ _ => packBit_meets bit) hu).andThen fun _ t ht =>
      ht.registers t.pkAcc t.pkPos _ t.inPtr

theorem flushPartial_meets {s u : State} (h : PackedFrom s u) :
    (flushPartial u).Meets (fun _ t => PackedFrom s t) (FaultFrom s) := by
  rw [flushPartial]
  split
  · exact h
  · exact flushByte_meets h

theorem mayPack_iff (s : State) :
    s.mayPack = true ↔ s.valid.code = true ∧ s.valid.hdrw = true ∧ s.outLen = s.hdrLen := by
  simp [State.mayPack, and_assoc]

/-- BPACK's prerequisite, frame and flags, and the length of the archive. -/
theorem bpackUnit_meets (s : State) :
    (bpackUnit s).Meets
      (fun _ t => (s.valid.code = true ∧ s.valid.hdrw = true) ∧ Stores s t ∧ t.outLen = t.hdrLen + t.payLen ∧
        ∃ m n l acc pos k p, t = { s with
          outMem := m, outLen := n, payLen := l, pkAcc := acc, pkPos := pos, symCount := k, inPtr := p
          valid := { s.valid.atStream with cout := true }, phase := .idle })
      (FaultFrom s) := by
  refine require_meets (fun hv => ?_) ((stores_startUnit _ s).fault _ _)
  obtain ⟨hcode, hhdrw, hlen⟩ := (mayPack_iff s).1 hv
  have hs : Stores s (s.startUnit .bitPacker).streamStart := Stores.of_same rfl rfl rfl rfl rfl rfl
  have h0 : PackedFrom (s.startUnit .bitPacker).streamStart (s.startUnit .bitPacker).streamStart :=
    ⟨Stores.refl _, hlen.trans (BitVec.add_zero _).symm, _, _, _, _, _, _, _, rfl⟩
  have hloop := forAddr_meets (I := fun _ => PackedFrom _) s.inLen.toNat 0 (fun _ _ _ => packByte_meets _) h0
  refine Run.Meets.andThen (hloop.faultFrom hs) fun _ u hu => ?_
  refine ((flushPartial_meets hu).faultFrom hs).andThen ?_
  rintro - _ ⟨ht, hn, m, n, l, acc, pos, k, p, rfl⟩
  exact ⟨⟨hcode, hhdrw⟩, (hs.trans ht).trans (Stores.of_same rfl rfl rfl rfl rfl rfl), hn, _, _, _, _, _, _, _, rfl⟩

/-! ### BUNPACK (R281) -/

/-- The fields BUNPACK's loop writes. -/
def UnpackedFrom (s t : State) : Prop :=
  Stores s t ∧ ∃ m n k cur pos v p, t = { s with
    outMem := m, outLen := n, symCount := k, upCur := cur, upPos := pos, upByte := v, inPtr := p }

theorem UnpackedFrom.registers {s u : State} (h : UnpackedFrom s u) (k : BitVec 64) (cur : Link) (pos : BitVec 3)
    (v : Byte) (p : Addr) :
    UnpackedFrom s { u with symCount := k, upCur := cur, upPos := pos, upByte := v, inPtr := p } := by
  obtain ⟨hs, m, n, k', cur', pos', v', p', rfl⟩ := h
  exact ⟨hs.trans (Stores.of_same rfl rfl rfl rfl rfl rfl), _, _, _, _, _, _, _, rfl⟩

theorem emitSymbol_ends (sym : Byte) {s u : State} (h : UnpackedFrom s u) :
    (emitSymbol sym u).Ends (fun _ t => UnpackedFrom s t) (FaultFrom s) := by
  obtain ⟨hs, m, n, k, cur, pos, v, p, rfl⟩ := h
  refine (((emit_meets sym _).faultFrom hs).ends).andThen ?_
  rintro - _ ⟨ht, -, m', n', rfl⟩
  exact ⟨(hs.trans ht).trans (Stores.of_same rfl rfl rfl rfl rfl rfl), _, _, _, _, _, _, _, rfl⟩

theorem stepTo_ends (next : NodeIx) {s u : State} (h : UnpackedFrom s u) :
    (stepTo next u).Ends (fun _ t => UnpackedFrom s t) (FaultFrom s) := by
  have hu := h.registers u.symCount (some next) u.upPos u.upByte u.inPtr
  rw [stepTo]
  cases u.nodeAt next with
  | none => trivial
  | some n =>
    dsimp only
    cases n.kind with
    | leaf => exact emitSymbol_ends _ hu
    | internal => exact hu

theorem unpackBit_ends (a : Addr) (pos : Nat) {s u : State} (h : UnpackedFrom s u) :
    (unpackBit a pos u).Ends (fun _ t => UnpackedFrom s t) (FaultFrom s) := by
  have hu := h.registers u.symCount u.upCur (BitVec.ofNat 3 pos) u.upByte u.inPtr
  rw [unpackBit]
  generalize ({ u with upPos := BitVec.ofNat 3 pos } : State) = w at hu
  cases w.upCur with
  | none => trivial
  | some cur =>
    dsimp only
    cases w.nodeAt cur with
    | none => trivial
    | some nd =>
      dsimp only
      cases nd.child (w.upByte.getLsbD pos) with
      | none => exact hu.1.fault _ _
      | some next => exact stepTo_ends next hu

theorem unpackByte_ends (a : Addr) {s u : State} (h : UnpackedFrom s u) :
    (unpackByte a u).Ends (fun _ t => UnpackedFrom s t) (FaultFrom s) := by
  refine (((inByte_meets a u).faultFrom h.1).ends).andThen ?_
  rintro v _ ⟨-, -, rfl⟩
  exact forEach_ends _ (fun pos _ hw => unpackBit_ends a pos hw) (h.registers u.symCount u.upCur u.upPos v (a + 1))

theorem unpackPayload_ends (root : NodeIx) (s : State) :
    (unpackPayload root s).Ends (fun _ t => UnpackedFrom s t) (FaultFrom s) := by
  have h0 : UnpackedFrom s s := ⟨Stores.refl s, _, _, _, _, _, _, _, rfl⟩
  rw [unpackPayload]
  split
  · exact h0.1.fault _ _
  · refine (forAddr_ends _ _ (fun a _ hu => unpackByte_ends a hu)
      (h0.registers s.symCount (some root) s.upPos s.upByte s.inPtr)).andThen fun _ t ht => ?_
    split
    · exact ht
    · exact ht.1.fault _ _

/-- BUNPACK's prerequisite, frame and flags. -/
theorem bunpackUnit_ends (s : State) :
    (bunpackUnit s).Ends
      (fun _ t => s.valid.hdrr = true ∧ Stores s t ∧ ∃ m n l k cur v p, t = { s with
        outMem := m, outLen := n, payLen := l, symCount := k, upCur := cur, upPos := 7, upByte := v, inPtr := p
        valid := { s.valid.atStream with dout := true }, phase := .idle })
      (FaultFrom s) := by
  refine require_ends (fun hv => ?_) ((stores_startUnit _ s).fault _ _)
  have hs : Stores s (s.startUnit .bitUnpacker).decodeStart := Stores.restart rfl rfl rfl rfl rfl rfl
  refine Run.Ends.andThen (P := fun _ t => UnpackedFrom (s.startUnit .bitUnpacker).decodeStart t) ?_ ?_
  · split
    · exact ⟨Stores.refl _, _, _, _, _, _, _, _, rfl⟩
    · exact (unpackPayload_ends _ _).faultFrom hs
  · rintro - _ ⟨ht, m, n, k, cur, pos, v, p, rfl⟩
    exact ⟨hv, (hs.trans ht).trans (Stores.of_same rfl rfl rfl rfl rfl rfl), _, _, _, _, _, _, _, rfl⟩

end Sys2Proof.Machine

/-! ## Trees in the arena -/

namespace Sys2Proof.Machine

/-- A tree stays where nodes are only added. -/
theorem Represents.mono {s t : State} (h : ∀ i n, s.nodeAt i = some n → t.nodeAt i = some n) {T : HTree}
    {l : Link} (hT : Represents s l T) : Represents t l T := by
  induction T generalizing l with
  | null => exact hT
  | leaf b w => exact hT.imp fun i hi => ⟨hi.1, h _ _ hi.2⟩
  | fork w L R ihL ihR =>
    obtain ⟨i, nl, nr, hl, hn, hL, hR⟩ := hT
    exact ⟨i, nl, nr, hl, h _ _ hn, ihL hL, ihR hR⟩

theorem Represents.congr {s t : State} (h : t.node = s.node) {T : HTree} {l : Link} (hT : Represents s l T) :
    Represents t l T :=
  hT.mono fun i n hn => by rw [State.nodeAt, h]; exact hn

/-- Only the empty tree hangs at `NULL`. -/
theorem represents_none_iff {s : State} {T : HTree} : Represents s none T ↔ T = .null := by
  cases T <;> simp [Represents]

theorem not_represents_some_null {s : State} {i : NodeIx} : ¬ Represents s (some i) .null :=
  Option.some_ne_none i

theorem nodeAt_lt {s : State} {i : NodeIx} {n : Node} (h : s.nodeAt i = some n) : i.toNat < s.node.length :=
  (List.getElem?_eq_some_iff.1 h).1

theorem Represents.lt {s : State} {i : NodeIx} {T : HTree} (hT : Represents s (some i) T) :
    i.toNat < s.node.length := by
  cases T with
  | null => exact absurd hT not_represents_some_null
  | leaf b w => obtain ⟨j, hj, hn⟩ := hT; cases hj; exact nodeAt_lt hn
  | fork w l r => obtain ⟨j, nl, nr, hj, hn, -, -⟩ := hT; cases hj; exact nodeAt_lt hn

theorem Represents.weight_eq {s : State} {i : NodeIx} {T : HTree} (hT : Represents s (some i) T) :
    s.weight i = T.weight := by
  cases T with
  | null => exact absurd hT not_represents_some_null
  | leaf b w => obtain ⟨j, hj, hn⟩ := hT; cases hj; rw [State.weight, hn]; rfl
  | fork w l r => obtain ⟨j, nl, nr, hj, hn, -, -⟩ := hT; cases hj; rw [State.weight, hn]; rfl

theorem Link.below_none (n : Nat) : Link.below none n := fun _ h => nomatch h

theorem Link.below_some {i : NodeIx} {n : Nat} : Link.below (some i) n ↔ i.toNat < n :=
  ⟨fun h => h i rfl, fun h _ hj => Option.some.inj hj ▸ h⟩

theorem Link.below.mono {l : Link} {m n : Nat} (h : Link.below l m) (hmn : m ≤ n) : Link.below l n :=
  fun i hi => Nat.lt_of_lt_of_le (h i hi) hmn

/-- Where children stand below their parents, a tree is no higher than the indices above its root. -/
theorem Represents.height_le {s : State} (h : childrenBelow s.node) {T : HTree} {l : Link} {k : Nat}
    (hl : Link.below l k) (hT : Represents s l T) : T.height ≤ k := by
  induction T generalizing l k with
  | null => exact Nat.zero_le k
  | leaf b w => obtain ⟨i, rfl, -⟩ := hT; exact Nat.one_le_of_lt (Link.below_some.1 hl)
  | fork w L R ihL ihR =>
    obtain ⟨i, nl, nr, rfl, hn, hL, hR⟩ := hT
    have hc := h _ _ hn
    have h1 := ihL hc.1 hL
    have h2 := ihR hc.2 hR
    have hi := Link.below_some.1 hl
    simp only [HTree.height]
    omega

theorem alloc_nodeAt {s : State} (m : Node) {i : NodeIx} {n : Node} (h : s.nodeAt i = some n) :
    (s.alloc m).2.nodeAt i = some n :=
  (List.getElem?_append_left (nodeAt_lt h)).trans h

theorem alloc_nodeAt_new {s : State} (hc : s.node.length = s.nodeCount.toNat) (m : Node) :
    (s.alloc m).2.nodeAt s.nodeCount = some m := by
  rw [State.nodeAt, State.alloc_node, ← hc, List.getElem?_concat_length]

theorem alloc_count {s : State} (hc : s.node.length = s.nodeCount.toNat) (hs : s.node.length < 131071) (m : Node) :
    (s.alloc m).2.node.length = (s.alloc m).2.nodeCount.toNat := by
  rw [State.alloc_node, State.alloc_nodeCount, List.length_append, BitVec.toNat_add, ← hc]
  have h1 : (1 : NodeIx).toNat = 1 := rfl
  rw [List.length_singleton, h1]
  omega

theorem childrenBelow_append {nodes : List Node} (h : childrenBelow nodes) {n : Node}
    (hl : Link.below n.left nodes.length) (hr : Link.below n.right nodes.length) :
    childrenBelow (nodes ++ [n]) := by
  intro i m hm
  rcases Nat.lt_trichotomy i nodes.length with hi | rfl | hi
  · rw [List.getElem?_append_left hi] at hm
    exact h i m hm
  · rw [List.getElem?_concat_length] at hm
    cases hm
    exact ⟨hl, hr⟩
  · rw [List.getElem?_eq_none (by simpa using hi)] at hm
    cases hm

/-! ## TBUILD: from a forest to one tree (R162 to R171) -/

theorem placeFromTail_perm (w : NodeIx → Count) (i : NodeIx) (l : List NodeIx) :
    (placeFromTail w i l).Perm (i :: l) := by
  induction l with
  | nil => exact .refl _
  | cons x xs ih =>
    rw [placeFromTail]
    split
    · exact (ih.cons x).trans (.swap i x xs)
    · exact .refl _

theorem insertSorted_perm (w : NodeIx → Count) (i : NodeIx) (l : List NodeIx) :
    (insertSorted w i l).Perm (i :: l) :=
  (List.reverse_perm _).trans ((placeFromTail_perm w i _).trans ((List.reverse_perm l).cons i))

/-- At `NODE[i]` stands the tree `T`, every internal node with two children and the sum of their weights. -/
def Stands (s : State) (i : NodeIx) (T : HTree) : Prop :=
  Represents s (some i) T ∧ T.full = true ∧ T.weighted = true

/-- The fields TBUILD's loops write. -/
def BuiltFrom (s t : State) : Prop :=
  ∃ nodes n l m, t = { s with node := nodes, nodeCount := n, list := l, listLen := m }

theorem BuiltFrom.refl (s : State) : BuiltFrom s s := ⟨_, _, _, _, rfl⟩

/-- TBUILD between two passes: the elements of `LIST` are the roots of trees `f i`, which have together the leaves
`L`. A pass takes two roots away and adds a node and a root, so `size` bounds the arena throughout. -/
structure Forest (size : Nat) (L : List (Byte × Count)) (f : NodeIx → HTree) (s : State) : Prop where
  count  : s.node.length = s.nodeCount.toNat
  below  : childrenBelow s.node
  trees  : ∀ i ∈ s.list, Stands s i (f i)
  leaves : (s.list.flatMap fun i => (f i).leaves).Perm L
  size   : s.node.length + s.list.length ≤ size
  len    : s.listLen = BitVec.ofNat 9 s.list.length

/-- A node is allocated as the root of `T` and takes its place in `LIST` among the `rest` of the roots. -/
theorem Forest.plant {size size' : Nat} {L L' : List (Byte × Count)} {f : NodeIx → HTree} {s : State}
    (h : Forest size L f s) {n : Node} {T : HTree} {rest l : List NodeIx}
    (hn : Link.below n.left s.node.length ∧ Link.below n.right s.node.length)
    (hT : Stands (s.alloc n).2 s.nodeCount T) (hrest : ∀ i ∈ rest, i ∈ s.list)
    (hl : l.Perm (s.nodeCount :: rest)) (hL : (T.leaves ++ rest.flatMap fun i => (f i).leaves).Perm L')
    (hsize : s.node.length + rest.length + 2 ≤ size') (hmax : size' ≤ 512) :
    Forest size' L' (Function.update f s.nodeCount T) ((s.alloc n).2.setList l) := by
  have old : ∀ i ∈ rest, Function.update f s.nodeCount T i = f i := fun i hi => by
    refine Function.update_of_ne (fun e => ?_) _ _
    have := (h.trees i (hrest i hi)).1.lt
    rw [e, h.count] at this
    exact Nat.lt_irrefl _ this
  have hlen : l.length = rest.length + 1 := hl.length_eq
  refine ⟨alloc_count h.count (by omega) n, childrenBelow_append h.below hn.1 hn.2, fun i hi => ?_, ?_, ?_, rfl⟩
  · have keep : ∀ {j U}, Stands (s.alloc n).2 j U → Stands ((s.alloc n).2.setList l) j U :=
      fun hU => hU.imp_left fun hr => hr.congr (by rfl)
    rcases List.mem_cons.1 (hl.mem_iff.1 hi) with rfl | hi
    · rw [Function.update_self]
      exact keep hT
    · rw [old i hi]
      exact keep ((h.trees i (hrest i hi)).imp_left fun hr => hr.mono fun _ _ => alloc_nodeAt n)
  · refine ((hl.flatMap_right _).trans (.of_eq ?_)).trans hL
    rw [List.flatMap_cons, Function.update_self]
    congr 1
    exact List.flatMap_congr fun i hi => by rw [old i hi]
  · rw [State.setList_node, State.setList_list, State.alloc_node, List.length_append, List.length_singleton]
    omega

/-- Every tree is a single leaf: before the first pass. -/
def Leafy (f : NodeIx → HTree) (l : List NodeIx) : Prop := ∀ i ∈ l, ∃ b w, f i = .leaf b w

theorem addLeaf_forest {size : Nat} {L : List (Byte × Count)} {f : NodeIx → HTree} {s : State}
    (h : Forest size L f s) (hf : Leafy f s.list) (hmax : size + 2 ≤ 512) {e : Byte × Count} (he : e.2 ≠ 0) :
    ∃ f', Forest (size + 2) (e :: L) f' (addLeaf s e) ∧ Leafy f' (addLeaf s e).list := by
  have hsize := h.size
  rw [addLeaf, if_neg he]
  refine ⟨_, h.plant (T := .leaf e.1 e.2) ⟨Link.below_none _, Link.below_none _⟩
    ⟨⟨_, rfl, alloc_nodeAt_new h.count _⟩, rfl, rfl⟩ (fun _ => id) (insertSorted_perm _ _ _) (h.leaves.cons e)
    (by omega) hmax, fun i hi => ?_⟩
  by_cases hi' : i = s.nodeCount
  · exact ⟨e.1, e.2, by rw [hi', Function.update_self]⟩
  · have hmem : i ∈ s.nodeCount :: s.list := (insertSorted_perm _ _ _).mem_iff.1 hi
    rw [Function.update_of_ne hi']
    exact hf i (List.mem_of_ne_of_mem hi' hmem)

/-- Step 1 of TBUILD: one leaf for each counted byte value (R162). -/
theorem addLeaves_forest (es : List (Byte × Count)) {size : Nat} {L : List (Byte × Count)} {f : NodeIx → HTree}
    {s : State} (h : Forest size L f s) (hf : Leafy f s.list) (hmax : size + 2 * es.length ≤ 512) :
    ∃ f', Forest (size + 2 * es.length) ((es.filter fun e => e.2 ≠ 0) ++ L) f' (es.foldl addLeaf s) ∧
      Leafy f' (es.foldl addLeaf s).list := by
  induction es generalizing size L f s with
  | nil => exact ⟨f, h, hf⟩
  | cons e es ih =>
    rw [List.length_cons] at hmax
    by_cases he : e.2 = 0
    · have hskip : addLeaf s e = s := if_pos he
      obtain ⟨f', h', hf'⟩ := ih h hf (by omega)
      rw [List.foldl_cons, hskip, List.filter_cons_of_neg (by simpa using he)]
      exact ⟨f', { h' with size := h'.size.trans (by rw [List.length_cons]; omega) }, hf'⟩
    · obtain ⟨f₁, h₁, hf₁⟩ := addLeaf_forest h hf (by omega) he
      obtain ⟨f', h', hf'⟩ := ih h₁ hf₁ (by omega)
      rw [List.foldl_cons, List.filter_cons_of_pos (by simpa using he)]
      exact ⟨f', { h' with
        leaves := h'.leaves.trans List.perm_middle
        size := h'.size.trans (by rw [List.length_cons]; omega) }, hf'⟩

/-- A pass of the merge loop: the last two trees become the subtrees of a new one (R164 to R167). -/
theorem mergeTwo_forest {size : Nat} {L : List (Byte × Count)} {f : NodeIx → HTree} {s : State} {a b : NodeIx}
    {rest : List NodeIx} (h : Forest size L f s) (hmax : size ≤ 512) (hl : s.list.reverse = a :: b :: rest) :
    Forest size L (Function.update f s.nodeCount (.fork (s.weight a + s.weight b) (f a) (f b)))
      (mergeTwo a b rest.reverse s) := by
  have hlist : s.list.Perm (a :: b :: rest.reverse) :=
    (List.reverse_perm _).symm.trans (hl ▸ (((List.reverse_perm rest).symm.cons b).cons a))
  have hlen : s.list.length = rest.length + 2 := by rw [← List.length_reverse, hl]; rfl
  have hsize := h.size
  obtain ⟨hra, hfa, hwa⟩ := h.trees a (hlist.mem_iff.2 (by simp))
  obtain ⟨hrb, hfb, hwb⟩ := h.trees b (hlist.mem_iff.2 (by simp))
  refine h.plant ⟨Link.below_some.2 hra.lt, Link.below_some.2 hrb.lt⟩ ⟨⟨_, some a, some b, rfl,
    alloc_nodeAt_new h.count _, hra.mono fun _ _ => alloc_nodeAt _, hrb.mono fun _ _ => alloc_nodeAt _⟩, ?_, ?_⟩
    (fun i hi => hlist.mem_iff.2 (by simp [List.mem_reverse.1 hi])) (insertSorted_perm _ _ _) ?_ ?_ hmax
  · simp [HTree.full, hfa, hfb]
  · simp [HTree.weighted, hwa, hwb, hra.weight_eq, hrb.weight_eq]
  · refine List.Perm.trans (.of_eq ?_) ((hlist.flatMap_right _).symm.trans h.leaves)
    simp [HTree.leaves]
  · rw [List.length_reverse]; omega

theorem exists_cons_cons {α : Type} {l : List α} (h : 2 ≤ l.length) : ∃ a b rest, l = a :: b :: rest := by
  match l with
  | a :: b :: rest => exact ⟨a, b, rest, rfl⟩
  | [_] => simp at h
  | [] => simp at h

theorem mergeAll_succ {n : Nat} {s : State} {a b : NodeIx} {rest : List NodeIx}
    (hl : s.list.reverse = a :: b :: rest) : mergeAll (n + 1) s = mergeAll n (mergeTwo a b rest.reverse s) := by
  rw [mergeAll, hl]

theorem mergeAll_singleton (n : Nat) {s : State} {i : NodeIx} (hl : s.list = [i]) : mergeAll n s = s := by
  cases n with
  | zero => rfl
  | succ n => rw [mergeAll, hl]; rfl

/-- The merge loop ends with one tree, whose root is an internal node (R165). -/
theorem mergeAll_forest (n : Nat) {size : Nat} {L : List (Byte × Count)} {f : NodeIx → HTree} {s : State}
    (h : Forest size L f s) (hmax : size ≤ 512) (h2 : 2 ≤ s.list.length) (hn : s.list.length ≤ n + 1) :
    ∃ f' i, Forest size L f' (mergeAll n s) ∧ (mergeAll n s).list = [i] ∧ (f' i).isFork = true := by
  induction n generalizing f s with
  | zero => omega
  | succ n ih =>
    obtain ⟨a, b, rest, hl⟩ := exists_cons_cons (h2.trans_eq List.length_reverse.symm)
    have hm := mergeTwo_forest h hmax hl
    have hlen : s.list.length = rest.length + 2 := by rw [← List.length_reverse, hl]; rfl
    have hlen' : (mergeTwo a b rest.reverse s).list.length = rest.length + 1 :=
      ((insertSorted_perm _ _ _).length_eq).trans (by simp)
    rw [mergeAll_succ hl]
    cases rest with
    | nil =>
      have hone : (mergeTwo a b [].reverse s).list = [s.nodeCount] := rfl
      rw [mergeAll_singleton n hone]
      exact ⟨_, _, hm, hone, by rw [Function.update_self]; rfl⟩
    | cons c rest =>
      simp only [List.length_cons] at hlen hlen'
      exact ih hm (by rw [hlen']; omega) (by rw [hlen']; omega)

theorem HTree.huffmanShape_of_full {T : HTree} (hfork : T.isFork = true) (hfull : T.full = true) :
    T.huffmanShape = true := by
  match T with
  | .fork _ l .null => simp [HTree.full] at hfull
  | .fork _ l (.leaf _ _) => cases l <;> exact hfull
  | .fork _ l (.fork _ _ _) => cases l <;> exact hfull

/-- What TBUILD leaves in the arena: a tree with the leaves `L` of one of the three shapes (R168 to R171). -/
structure Built (L : List (Byte × Count)) (s : State) : Prop where
  count : s.node.length = s.nodeCount.toNat
  below : childrenBelow s.node
  root  : Link.below s.root s.node.length
  size  : s.node.length ≤ 512
  list  : s.list.length ≤ 1
  len   : s.listLen = BitVec.ofNat 9 s.list.length
  tree  : ∃ T, Represents s s.root T ∧ T.huffmanShape = true ∧ T.weighted = true ∧ T.leaves.Perm L

theorem joinLeaves_of_nil {s : State} (h : s.list = []) : joinLeaves s = { s with root := none } := by
  simp [joinLeaves, h]

theorem joinLeaves_of_single {s : State} {i : NodeIx} (h : s.list = [i]) :
    joinLeaves s = { addParent i s with root := some s.nodeCount } := by
  simp [joinLeaves, h, addParent]

theorem joinLeaves_of_many {s : State} (h : 2 ≤ s.list.length) :
    joinLeaves s = { mergeAll s.list.length s with root := (mergeAll s.list.length s).list.head? } := by
  rcases hl : s.list with _ | ⟨a, _ | ⟨b, rest⟩⟩
  · simp [hl] at h
  · simp [hl] at h
  · simp [joinLeaves, hl]

/-- The degenerate case: the only leaf gets a parent (R168). -/
theorem joinLeaves_built_of_single {size : Nat} {L : List (Byte × Count)} {f : NodeIx → HTree} {s : State}
    (h : Forest size L f s) (hmax : size ≤ 512) {i : NodeIx} (hl : s.list = [i]) {b : Byte} {w : Count}
    (hf : f i = .leaf b w) : Built L (joinLeaves s) := by
  have hsize := h.size
  have hL := h.leaves
  obtain ⟨hr, -, -⟩ := h.trees i (by simp [hl])
  rw [hf] at hr
  rw [hl, List.length_singleton] at hsize
  rw [hl, List.flatMap_singleton, hf] at hL
  have hnew := alloc_nodeAt_new h.count
    { kind := .internal, left := some i, right := none, sym := 0, weight := s.weight i }
  rw [joinLeaves_of_single hl]
  refine ⟨alloc_count h.count (by omega) _, childrenBelow_append h.below (Link.below_some.2 hr.lt)
    (Link.below_none _), Link.below_some.2 (nodeAt_lt hnew), ?_, Nat.le_refl 1, rfl,
    .fork (s.weight i) (.leaf b w) .null, ⟨_, some i, none, rfl, hnew, ?_, rfl⟩, rfl, ?_, hL⟩
  · show (s.node ++ [_]).length ≤ 512
    rw [List.length_append, List.length_singleton]
    omega
  · exact (hr.mono fun _ _ => alloc_nodeAt _).congr (by rfl)
  · simp [HTree.weighted, hr.weight_eq, HTree.weight]

/-- Two leaves or more: the merge loop (R165). -/
theorem joinLeaves_built_of_many {size : Nat} {L : List (Byte × Count)} {f : NodeIx → HTree} {s : State}
    (h : Forest size L f s) (hmax : size ≤ 512) (h2 : 2 ≤ s.list.length) : Built L (joinLeaves s) := by
  obtain ⟨f', i, h', hlist, hfork⟩ := mergeAll_forest s.list.length h hmax h2 (Nat.le_succ _)
  obtain ⟨hr, hfull, hw⟩ := h'.trees i (by simp [hlist])
  have hnodes : (mergeAll s.list.length s).node.length ≤ 512 := by have := h'.size; omega
  have hL := h'.leaves
  rw [hlist, List.flatMap_singleton] at hL
  rw [joinLeaves_of_many h2, hlist]
  refine ⟨h'.count, h'.below, Link.below_some.2 hr.lt, hnodes, by simp [hlist], h'.len, f' i, ?_,
    HTree.huffmanShape_of_full hfork hfull, hw, hL⟩
  exact hr.congr (by rfl)

/-- Steps 2 to 4 of TBUILD, from the leaves to the tree; the empty alphabet has the empty tree (R171). -/
theorem joinLeaves_built {size : Nat} {L : List (Byte × Count)} {f : NodeIx → HTree} {s : State}
    (h : Forest size L f s) (hmax : size ≤ 512) (hf : Leafy f s.list) : Built L (joinLeaves s) := by
  rcases hl : s.list with _ | ⟨i, _ | ⟨j, rest⟩⟩
  · have hnodes : s.node.length ≤ 512 := by have := h.size; omega
    have hL := h.leaves
    rw [hl] at hL
    rw [joinLeaves_of_nil hl]
    exact ⟨h.count, h.below, Link.below_none _, hnodes, by simp [hl], h.len, .null, rfl, rfl, rfl, hL⟩
  · obtain ⟨b, w, hfi⟩ := hf i (by simp [hl])
    exact joinLeaves_built_of_single h hmax hl hfi
  · exact joinLeaves_built_of_many h hmax (by simp [hl])

theorem addLeaf_frame {s u : State} (h : BuiltFrom s u) (e : Byte × Count) : BuiltFrom s (addLeaf u e) := by
  obtain ⟨nodes, n, l, m, rfl⟩ := h
  rw [addLeaf]
  split
  · exact ⟨_, _, _, _, rfl⟩
  · exact ⟨_, _, _, _, rfl⟩

theorem addLeaves_frame (es : List (Byte × Count)) {s u : State} (h : BuiltFrom s u) :
    BuiltFrom s (es.foldl addLeaf u) := by
  induction es generalizing u with
  | nil => exact h
  | cons e es ih => exact ih (addLeaf_frame h e)

theorem mergeAll_frame (n : Nat) {s u : State} (h : BuiltFrom s u) : BuiltFrom s (mergeAll n u) := by
  induction n generalizing u with
  | zero => exact h
  | succ n ih =>
    rw [mergeAll]
    split
    · obtain ⟨nodes, n, l, m, rfl⟩ := h
      exact ih ⟨_, _, _, _, rfl⟩
    · exact h

theorem joinLeaves_frame {s u : State} (h : BuiltFrom s u) :
    ∃ nodes n l m r, joinLeaves u = { s with node := nodes, nodeCount := n, list := l, listLen := m, root := r } := by
  have close : ∀ {v : State}, BuiltFrom s v → ∀ r, ∃ nodes n l m r', ({ v with root := r } : State) =
      { s with node := nodes, nodeCount := n, list := l, listLen := m, root := r' } := by
    rintro _ ⟨nodes, n, l, m, rfl⟩ r
    exact ⟨_, _, _, _, _, rfl⟩
  rcases hl : u.list with _ | ⟨i, _ | ⟨j, rest⟩⟩
  · rw [joinLeaves_of_nil hl]
    exact close h _
  · rw [joinLeaves_of_single hl]
    obtain ⟨nodes, n, l, m, rfl⟩ := h
    exact ⟨_, _, _, _, _, rfl⟩
  · rw [joinLeaves_of_many (by simp [hl])]
    exact close (mergeAll_frame _ h) _

theorem entries_length {α : Type} (t : Table α) : t.entries.length = 256 := by
  rw [Table.entries_eq_map, List.length_map, allBytes_length]

/-- TBUILD's prerequisite, frame and flags, and the tree over the counted byte values. -/
theorem tbuildUnit_meets (s : State) :
    (tbuildUnit s).Meets
      (fun _ t => s.valid.freq = true ∧ Stores s t ∧ Built (counted s.freq) t ∧ ∃ nodes n l m r, t = { s with
        node := nodes, nodeCount := n, list := l, listLen := m, root := r
        valid := { s.valid.atTbuild with tree := true }, phase := .idle })
      (FaultFrom s) := by
  refine require_meets (fun hv => ?_) ((stores_startUnit _ s).fault _ _)
  have h0 : Forest 0 [] (fun _ => .null) (s.startUnit .treeBuilder).treeStart :=
    ⟨rfl, (fun i n h => nomatch h), (fun i h => nomatch h), List.Perm.nil, Nat.le_refl 0, rfl⟩
  obtain ⟨f, hforest, hleafy⟩ := addLeaves_forest s.freq.entries h0 (fun i h => nomatch h) (by rw [entries_length])
  have hb := joinLeaves_built hforest (by rw [entries_length]) hleafy
  obtain ⟨nodes, n, l, m, r, hfr⟩ := joinLeaves_frame (addLeaves_frame s.freq.entries
    (BuiltFrom.refl (s.startUnit .treeBuilder).treeStart))
  have hframe := congrArg (fun u : State => u.endUnit { u.valid with tree := true }) hfr
  rw [List.append_nil] at hb
  refine ⟨hv, ?_, ⟨hb.count, hb.below, hb.root, hb.size, hb.list, hb.len, ?_⟩, nodes, n, l, m, r, hframe⟩
  · exact hframe.symm ▸ Stores.of_same rfl rfl rfl rfl rfl rfl
  · exact hb.tree.imp fun T hT => ⟨hT.1.congr (by rfl), hT.2⟩

end Sys2Proof.Machine

/-! ## HUNPACK: the arena of a header (R231) -/

namespace Sys2Proof.Machine

theorem linksInside_append {nodes : List Node} (h : linksInside nodes) {n : Node}
    (hl : Link.below n.left nodes.length) (hr : Link.below n.right nodes.length) :
    linksInside (nodes ++ [n]) := by
  have hle : nodes.length ≤ (nodes ++ [n]).length := by simp
  intro m hm
  rcases List.mem_append.1 hm with hm | hm
  · exact ⟨(h m hm).1.mono hle, (h m hm).2.mono hle⟩
  · obtain rfl := List.mem_singleton.1 hm
    exact ⟨hl.mono hle, hr.mono hle⟩

theorem withChild_below {n : Node} {c : NodeIx} {k : Nat} (hn : Link.below n.left k ∧ Link.below n.right k)
    (hc : c.toNat < k) (bit : Bool) :
    Link.below (n.withChild bit c).left k ∧ Link.below (n.withChild bit c).right k := by
  cases bit
  · exact ⟨Link.below_some.2 hc, hn.2⟩
  · exact ⟨hn.1, Link.below_some.2 hc⟩

theorem linksInside_withChild {nodes : List Node} (h : linksInside nodes) (i : Nat) (bit : Bool) {c : NodeIx}
    (hc : c.toNat < nodes.length) : linksInside (nodes.modify i fun n => n.withChild bit c) := by
  intro m hm
  obtain ⟨j, hj⟩ := List.mem_iff_getElem?.1 hm
  rw [List.getElem?_modify] at hj
  obtain ⟨n, hn, rfl⟩ := Option.map_eq_some_iff.1 hj
  have hb := h n (List.mem_of_getElem? hn)
  rw [List.length_modify]
  split
  · exact withChild_below hb hc bit
  · exact hb

/-- The fields the loops of HUNPACK write. -/
def HeaderFrom (s t : State) : Prop :=
  ∃ nodes n p c, t = { s with node := nodes, nodeCount := n, inPtr := p, huCount := c }

/-- HUNPACK between two bytes of a header, with room for `spare` more nodes. -/
structure Reading (spare : Nat) (s t : State) : Prop where
  frame : HeaderFrom s t
  count : t.node.length = t.nodeCount.toNat
  links : linksInside t.node
  room  : t.node.length + spare ≤ Config.nodeCap
  root  : t.root = some 0 ∧ 0 < t.node.length
  ptr   : t.inPtr ≤ t.inLen

variable {spare : Nat} {s u : State}

theorem HeaderFrom.stores (h : HeaderFrom s u) : Stores s u := by
  obtain ⟨nodes, n, p, c, rfl⟩ := h
  exact Stores.of_same rfl rfl rfl rfl rfl rfl

theorem Reading.corrupt {α : Type} {Q : α → State → Prop} (h : Reading spare s u) :
    (corruptHere u : Run α).Meets Q (FaultFrom s) :=
  h.frame.stores.fault _ _

theorem Reading.mono {spare' : Nat} (h : Reading spare s u) (hle : spare' ≤ spare) : Reading spare' s u :=
  { h with room := (Nat.add_le_add_left hle _).trans h.room }

/-- Reading a byte moves the cursor, to `IN_LEN` at most. -/
theorem nextByte_meets (u : State) :
    (nextByte u).Meets (fun _ t => u.inPtr + 1 ≤ u.inLen ∧ t = { u with inPtr := u.inPtr + 1 }) (FaultFrom u) := by
  refine (inByte_meets u.inPtr u).mono (fun _ t h => ⟨?_, h.2.2⟩) fun _ => id
  rw [BitVec.le_def, outLen_succ h.2.1]
  exact h.2.1

theorem Reading.nextByte (h : Reading spare s u) :
    (nextByte u).Meets (fun _ t => Reading spare s t ∧ t.node = u.node) (FaultFrom s) := by
  refine (nextByte_meets u).mono ?_ fun _ hf => hf.of_stores h.frame.stores
  rintro - _ ⟨hp, rfl⟩
  obtain ⟨⟨nodes, n, p, c, rfl⟩, hcount, hlinks, hroom, hroot, -⟩ := h
  exact ⟨⟨⟨_, _, _, _, rfl⟩, hcount, hlinks, hroom, hroot, hp⟩, rfl⟩

/-- A node without children is allocated as a child of `NODE[cur]`. -/
theorem Reading.addChild (h : Reading (spare + 1) s u) (cur : NodeIx) (bit : Bool) {n : Node}
    (hl : n.left = none) (hr : n.right = none) :
    Reading spare s ((u.alloc n).2.linkChild cur bit u.nodeCount) ∧
      u.nodeCount.toNat < ((u.alloc n).2.linkChild cur bit u.nodeCount).node.length := by
  have hroom := h.room
  rw [Config.nodeCap] at hroom
  have hlen : ((u.alloc n).2.linkChild cur bit u.nodeCount).node.length = u.node.length + 1 := by simp
  have hnew : u.nodeCount.toNat < ((u.alloc n).2.linkChild cur bit u.nodeCount).node.length := by
    rw [hlen, h.count]; exact Nat.lt_succ_self _
  refine ⟨⟨?_, ?_, ?_, ?_, ⟨h.root.1, by omega⟩, h.ptr⟩, hnew⟩
  · obtain ⟨nodes, k, p, c, rfl⟩ := h.frame
    exact ⟨_, _, _, _, rfl⟩
  · rw [State.linkChild_node, List.length_modify]
    exact alloc_count h.count (by omega) n
  · rw [State.linkChild_node]
    refine linksInside_withChild (linksInside_append h.links ?_ ?_) _ _ ?_
    · rw [hl]; exact Link.below_none _
    · rw [hr]; exact Link.below_none _
    · rw [List.length_append, List.length_singleton, ← hlen]
      exact hnew
  · rw [hlen, Config.nodeCap]
    omega

theorem child_below {nodes : List Node} (h : linksInside nodes) {i : Nat} {nd : Node} (hn : nodes[i]? = some nd)
    {bit : Bool} {c : NodeIx} (hc : nd.child bit = some c) : c.toNat < nodes.length := by
  obtain ⟨hl, hr⟩ := h nd (List.mem_of_getElem? hn)
  cases bit
  · exact hl c hc
  · exact hr c hc

theorem nodeAt_of_lt {i : NodeIx} (h : i.toNat < u.node.length) : ∃ n, u.nodeAt i = some n :=
  ⟨_, List.getElem?_eq_getElem h⟩

theorem innerStep_meets (h : Reading (spare + 1) s u) {cur : NodeIx} {nd : Node} (hn : u.nodeAt cur = some nd)
    (bit : Bool) :
    (innerStep cur nd bit u).Meets (fun next t => Reading spare s t ∧ next.toNat < t.node.length)
      (FaultFrom s) := by
  rw [innerStep]
  cases hc : nd.child bit with
  | none => exact h.addChild cur bit rfl rfl
  | some ch =>
    have hlt := child_below h.links hn hc
    obtain ⟨n, hch⟩ := nodeAt_of_lt hlt
    dsimp only
    rw [hch]
    dsimp only
    cases n.kind with
    | leaf => exact h.corrupt
    | internal => exact ⟨h.mono (Nat.le_succ _), hlt⟩

theorem lastStep_meets (h : Reading (spare + 1) s u) (sym : Byte) (cur : NodeIx) (nd : Node) (bit : Bool) :
    (lastStep sym cur nd bit u).Meets (fun _ t => Reading spare s t) (FaultFrom s) := by
  rw [lastStep]
  cases nd.child bit with
  | none => exact (h.addChild cur bit rfl rfl).1
  | some ch => exact h.corrupt

/-- A path adds at most one node for each of its bits. -/
theorem walkPath_meets (sym : Byte) (left : Nat) {cur : NodeIx} (h : Reading (spare + left) s u)
    (hcur : cur.toNat < u.node.length) :
    (walkPath sym left cur u).Meets (fun _ t => Reading spare s t) (FaultFrom s) := by
  induction left generalizing cur u with
  | zero => exact h
  | succ left ih =>
    rw [walkPath]
    refine h.nextByte.andThen fun c v ⟨hv, hnode⟩ => ?_
    rw [← hnode] at hcur
    obtain ⟨nd, hn⟩ := nodeAt_of_lt hcur
    cases codeBit c with
    | none => exact hv.corrupt
    | some bit =>
      dsimp only
      rw [hn]
      cases left with
      | zero => exact lastStep_meets hv sym cur nd bit
      | succ left => exact (innerStep_meets hv hn bit).andThen fun next t ⟨ht, hnext⟩ => ih ht hnext

/-- An entry adds at most 255 nodes. -/
theorem readEntry_meets (h : Reading (spare + 255) s u) :
    (readEntry u).Meets (fun _ t => Reading spare s t) (FaultFrom s) := by
  refine h.nextByte.andThen fun sym v ⟨hv, _⟩ => hv.nextByte.andThen fun len w ⟨hw, _⟩ => ?_
  refine Run.meets_ite (fun _ => hw.corrupt) fun _ => ?_
  obtain ⟨hroot, hpos⟩ := hw.root
  rw [hroot]
  exact walkPath_meets sym len.toNat (hw.mono (by have := len.isLt; omega)) hpos

theorem Reading.setHuCount (h : Reading spare s u) (c : BitVec 9) : Reading spare s { u with huCount := c } := by
  obtain ⟨⟨nodes, n, p, c', rfl⟩, hcount, hlinks, hroom, hroot, hp⟩ := h
  exact ⟨⟨_, _, _, _, rfl⟩, hcount, hlinks, hroom, hroot, hp⟩

theorem readEntries_meets (n : Nat) (h : Reading (255 * n) s u) :
    (readEntries n u).Meets (fun _ t => Reading 0 s t) (FaultFrom s) := by
  induction n generalizing u with
  | zero => exact h
  | succ n ih => exact (readEntry_meets h).andThen fun _ t ht => ih (ht.setHuCount _)

/-- What HUNPACK leaves: an arena whose links lead inside it, and the length of the header read (R234 to R237). -/
structure HeaderRead (t : State) : Prop where
  count  : t.node.length = t.nodeCount.toNat
  cap    : t.node.length ≤ Config.nodeCap
  links  : linksInside t.node
  root   : Link.below t.root t.node.length
  hdrLen : t.hdrLen ≤ t.inLen

/-- The fields HUNPACK writes before its flags. -/
def UnpackedHeader (s t : State) : Prop :=
  HeaderRead t ∧ ∃ nodes n p c r a pad h, t = { s with
    node := nodes, nodeCount := n, inPtr := p, huCount := c, root := r, alpha := a, padding := pad, hdrLen := h }

theorem readPadding_meets (h : Reading spare s u) :
    (readPadding u).Meets (fun _ t => UnpackedHeader s t) (FaultFrom s) := by
  refine h.nextByte.andThen fun pad v ⟨hv, _⟩ => ?_
  refine Run.meets_ite (fun _ => hv.corrupt) fun _ => ?_
  obtain ⟨hroot, hpos⟩ := hv.root
  have hcap := (Nat.le_add_right _ _).trans hv.room
  refine ⟨⟨hv.count, hcap, hv.links, ?_, hv.ptr⟩, ?_⟩
  · show Link.below v.root _
    rw [hroot]
    exact Link.below_some.2 hpos
  · obtain ⟨nodes, n, p, c, rfl⟩ := hv.frame
    exact ⟨_, _, _, _, _, _, _, _, rfl⟩

/-- The root stands alone in the arena; 256 entries of 255 nodes fit beside it (R40). -/
theorem openHeader_reading (n : Byte) (hnode : u.node = []) (hcount : u.nodeCount = 0) (hp : u.inPtr ≤ u.inLen) :
    Reading (255 * 256) (u.openHeader n) (u.openHeader n) := by
  have hnodes : (u.openHeader n).node = [Node.bare] := by simp [State.openHeader, hnode]
  have hnc : (u.openHeader n).nodeCount = 1 := by simp [State.openHeader, hcount]
  have hroot : (u.openHeader n).root = some 0 := congrArg some hcount
  refine ⟨⟨_, _, _, _, rfl⟩, ?_, ?_, ?_, ⟨hroot, ?_⟩, hp⟩ <;> rw [hnodes]
  · rw [hnc]; rfl
  · exact linksInside_append (nodes := []) (fun n h => nomatch h) (Link.below_none _) (Link.below_none _)
  · exact Nat.le_refl 65281
  · exact Nat.one_pos

theorem openHeader_huCount_le (n : Byte) (u : State) : (u.openHeader n).huCount.toNat ≤ 256 := by
  have h : (u.openHeader n).huCount = n.setWidth 9 + 1 := rfl
  rw [h]
  bv_omega

theorem readHeader_meets (hnode : u.node = []) (hcount : u.nodeCount = 0) :
    (readHeader u).Meets (fun _ t => UnpackedHeader u t) (FaultFrom u) := by
  refine (nextByte_meets u).andThen ?_
  rintro n _ ⟨hp, rfl⟩
  have hs : Stores u (({ u with inPtr := u.inPtr + 1 } : State).openHeader n) :=
    Stores.of_same rfl rfl rfl rfl rfl rfl
  have h0 := openHeader_reading (u := { u with inPtr := u.inPtr + 1 }) n hnode hcount hp
  have hle := Nat.mul_le_mul_left 255 (openHeader_huCount_le n { u with inPtr := u.inPtr + 1 })
  refine Run.Meets.mono ((readEntries_meets _ (h0.mono hle)).andThen fun _ t ht => readPadding_meets ht)
    ?_ fun _ h => h.of_stores hs
  rintro - _ ⟨hr, nodes, n, p, c, r, a, pad, h, rfl⟩
  exact ⟨hr, _, _, _, _, _, _, _, _, rfl⟩

/-- HUNPACK's frame and flags, and the arena it builds. -/
theorem hunpackUnit_meets (s : State) :
    (hunpackUnit s).Meets
      (fun _ t => Stores s t ∧ HeaderRead t ∧ ∃ nodes n p c r a pad h, t = { s with
        node := nodes, nodeCount := n, inPtr := p, huCount := c, root := r, alpha := a, padding := pad, hdrLen := h
        valid := { Valid.allClear with hdrr := true }, phase := .idle })
      (FaultFrom s) := by
  have hs : Stores s (s.startUnit .headerUnpacker).unpackStart := Stores.of_same rfl rfl rfl rfl rfl rfl
  refine Run.Meets.andThen (P := fun _ t => UnpackedHeader (s.startUnit .headerUnpacker).unpackStart t) ?_ ?_
  · refine Run.meets_ite (fun _ => ?_) fun _ => ?_
    · refine ⟨⟨rfl, Nat.zero_le _, (fun n h => nomatch h), Link.below_none _, BitVec.le_def.2 (Nat.zero_le _)⟩, ?_⟩
      exact ⟨_, _, _, _, _, _, _, _, rfl⟩
    · exact (readHeader_meets rfl rfl).faultFrom hs
  · rintro - _ ⟨hr, nodes, n, p, c, r, a, pad, h, rfl⟩
    exact ⟨Stores.of_same rfl rfl rfl rfl rfl rfl, ⟨hr.count, hr.cap, hr.links, hr.root, hr.hdrLen⟩,
      _, _, _, _, _, _, _, _, rfl⟩

end Sys2Proof.Machine

/-! ## CDERIVE: the code table of a tree (R192 to R196) -/

namespace Sys2Proof.Machine

/-- The leaves with the paths to them, left to right, of a tree that hangs at the path `p`. -/
def HTree.codesFrom : HTree → Code → List (Byte × Code × Count)
  | .null, _ => []
  | .leaf b w, p => [(b, p, w)]
  | .fork _ l r, p => l.codesFrom (p ++ [false]) ++ r.codesFrom (p ++ [true])

/-- The codes recorded in turn, as CDERIVE's walk does. -/
def State.recordAll (s : State) (l : List (Byte × Code × Count)) : State :=
  l.foldl (fun s e => s.recordCode e.1 e.2.1 e.2.2) s

theorem State.recordAll_append (s : State) (l m : List (Byte × Code × Count)) :
    s.recordAll (l ++ m) = (s.recordAll l).recordAll m := List.foldl_append

theorem State.recordAll_frame (s : State) (l : List (Byte × Code × Count)) : CodedFrom s (s.recordAll l) := by
  induction l generalizing s with
  | nil => exact ⟨_, _, rfl⟩
  | cons e l ih =>
    obtain ⟨c, n, h⟩ := ih (s.recordCode e.1 e.2.1 e.2.2)
    exact ⟨c, n, h⟩

theorem State.recordAll_node (s : State) (l : List (Byte × Code × Count)) : (s.recordAll l).node = s.node := by
  obtain ⟨c, n, h⟩ := s.recordAll_frame l
  rw [h]

/-- The walk of a tree in the arena records its leaves (R192). -/
theorem walk_eq {s : State} {T : HTree} {fuel : Nat} {n : NodeIx} (path : Code)
    (hT : Represents s (some n) T) (hfuel : T.height ≤ fuel) :
    walk fuel n path s = .ok () (s.recordAll (T.codesFrom path)) := by
  induction T generalizing s fuel n path with
  | null => exact absurd hT not_represents_some_null
  | leaf b w =>
    obtain ⟨i, hi, hn⟩ := hT
    obtain rfl := Option.some.inj hi
    obtain ⟨fuel, rfl⟩ := Nat.exists_eq_add_of_le' hfuel
    rw [HTree.height, walk, hn]
    rfl
  | fork w L R ihL ihR =>
    obtain ⟨i, nl, nr, hi, hn, hL, hR⟩ := hT
    obtain rfl := Option.some.inj hi
    obtain ⟨fuel, rfl⟩ : ∃ k, fuel = k + 1 := Nat.exists_eq_add_of_le' ((Nat.le_add_right 1 _).trans hfuel)
    have hmax : max L.height R.height ≤ fuel := by simp only [HTree.height] at hfuel; omega
    have subtree : ∀ {T : HTree} {l : Link} (p : Code) (s : State), Represents s l T →
        (∀ {n}, Represents s (some n) T → walk fuel n p s = .ok () (s.recordAll (T.codesFrom p))) →
        (match l with
          | none => Run.ok () s
          | some i => walk fuel i p s) = .ok () (s.recordAll (T.codesFrom p)) := by
      intro T l p s hT ih
      cases l with
      | none => rw [represents_none_iff.1 hT]; rfl
      | some i => exact ih hT
    have hleft := subtree (path ++ [false]) s hL fun h => ihL _ h ((le_max_left _ _).trans hmax)
    have hright := subtree (path ++ [true]) (s.recordAll (L.codesFrom (path ++ [false])))
      (hR.congr (s.recordAll_node _)) fun h => ihR _ h ((le_max_right _ _).trans hmax)
    rw [walk, hn]
    dsimp only
    rw [HTree.codesFrom, State.recordAll_append]
    exact (congrArg (Run.andThen · _) hleft).trans hright

theorem walkTree_eq {s : State} {T : HTree} (hT : Represents s s.root T) (hh : T.height ≤ s.nodeCount.toNat) :
    walkTree s = .ok () (s.recordAll (T.codesFrom [])) := by
  rw [walkTree]
  cases hr : s.root with
  | none =>
    rw [hr, represents_none_iff] at hT
    rw [hT]
    rfl
  | some r =>
    rw [hr] at hT
    exact walk_eq [] hT hh

/-! ### Paths and leaves -/

theorem HTree.leafAt_null (p : Code) : HTree.null.leafAt p = none := by
  cases p <;> rfl

theorem HTree.leafAt_leaf {b c : Byte} {w : Count} {p : Code} :
    (HTree.leaf b w).leafAt p = some c ↔ p = [] ∧ b = c := by
  cases p with
  | nil => simp [HTree.leafAt, HTree.sub]
  | cons bit p => simp [HTree.leafAt, HTree.sub]

/-- The recorded codes are the paths that lead to a leaf. -/
theorem HTree.mem_codesFrom {T : HTree} {path q : Code} {b : Byte} :
    (∃ w, (b, q, w) ∈ T.codesFrom path) ↔ ∃ p, q = path ++ p ∧ T.leafAt p = some b := by
  induction T generalizing path with
  | null => simp [HTree.codesFrom, HTree.leafAt_null]
  | leaf c w =>
    constructor
    · rintro ⟨w', h⟩
      obtain ⟨rfl, rfl, rfl⟩ : b = c ∧ q = path ∧ w' = w := by simpa [HTree.codesFrom] using h
      exact ⟨[], (List.append_nil q).symm, rfl⟩
    · rintro ⟨p, rfl, h⟩
      obtain ⟨rfl, rfl⟩ := HTree.leafAt_leaf.1 h
      exact ⟨w, by simp [HTree.codesFrom]⟩
  | fork w l r ihl ihr =>
    simp only [HTree.codesFrom, List.mem_append, exists_or, ihl, ihr]
    constructor
    · rintro (⟨p, rfl, h⟩ | ⟨p, rfl, h⟩)
      · exact ⟨false :: p, by simp, h⟩
      · exact ⟨true :: p, by simp, h⟩
    · rintro ⟨p, rfl, h⟩
      match p with
      | [] => exact nomatch h
      | false :: p => exact .inl ⟨p, by simp, h⟩
      | true :: p => exact .inr ⟨p, by simp, h⟩

theorem HTree.codesFrom_map_leaf (T : HTree) (path : Code) :
    (T.codesFrom path).map (fun e => (e.1, e.2.2)) = T.leaves := by
  induction T generalizing path with
  | null => rfl
  | leaf b w => rfl
  | fork w l r ihl ihr => rw [HTree.codesFrom, List.map_append, ihl, ihr, HTree.leaves]

theorem HTree.sub_append (T : HTree) (p q : Code) : T.sub (p ++ q) = (T.sub p).sub q := by
  induction p generalizing T with
  | nil => cases T <;> rfl
  | cons bit p ih =>
    cases T with
    | null => cases q <;> rfl
    | leaf b w => cases q <;> rfl
    | fork w l r => exact ih _

theorem HTree.leafAt_eq_some {T : HTree} {p : Code} {b : Byte} :
    T.leafAt p = some b ↔ ∃ w, T.sub p = .leaf b w := by
  rw [HTree.leafAt]
  cases T.sub p <;> simp

/-- No path to a leaf goes on to another leaf. -/
theorem HTree.leafAt_append {T : HTree} {p q : Code} {b c : Byte} (hb : T.leafAt p = some b)
    (hc : T.leafAt (p ++ q) = some c) : b = c := by
  obtain ⟨w, hw⟩ := HTree.leafAt_eq_some.1 hb
  obtain ⟨w', hw'⟩ := HTree.leafAt_eq_some.1 hc
  rw [HTree.sub_append, hw] at hw'
  cases q with
  | nil => cases hw'; rfl
  | cons bit q => cases hw'

theorem HTree.length_lt_height {T : HTree} {p : Code} {b : Byte} (h : T.leafAt p = some b) : p.length < T.height := by
  induction T generalizing p with
  | null => rw [HTree.leafAt_null] at h; cases h
  | leaf c w =>
    obtain ⟨rfl, -⟩ := HTree.leafAt_leaf.1 h
    exact Nat.one_pos
  | fork w l r ihl ihr =>
    match p with
    | [] => exact nomatch h
    | false :: p =>
      have := ihl h
      simp only [List.length_cons, HTree.height]
      omega
    | true :: p =>
      have := ihr h
      simp only [List.length_cons, HTree.height]
      omega

theorem HTree.height_le_of_full {T : HTree} (h : T.full = true) : T.height ≤ T.leaves.length ∧ 1 ≤ T.height := by
  induction T with
  | null => exact nomatch h
  | leaf b w => exact ⟨Nat.le_refl 1, Nat.le_refl 1⟩
  | fork w l r ihl ihr =>
    rw [HTree.full, Bool.and_eq_true] at h
    obtain ⟨hl, hl1⟩ := ihl h.1
    obtain ⟨hr, hr1⟩ := ihr h.2
    simp only [HTree.height, HTree.leaves, List.length_append]
    omega

/-- A tree of one of the three shapes over at most 256 leaves has at most 256 levels. -/
theorem HTree.height_le_of_huffmanShape {T : HTree} (h : T.huffmanShape = true) (hl : T.leaves.length ≤ 256) :
    T.height ≤ 256 := by
  match T with
  | .null => exact Nat.zero_le _
  | .leaf _ _ => exact nomatch h
  | .fork _ (.leaf _ _) .null => simp [HTree.height]
  | .fork _ .null r => exact nomatch h
  | .fork w (.leaf b u) (.leaf c v) => simp [HTree.height]
  | .fork w (.leaf b u) (.fork v l r) =>
    exact (HTree.height_le_of_full (T := .fork w (.leaf b u) (.fork v l r)) h).1.trans hl
  | .fork w (.fork v l r) R => exact (HTree.height_le_of_full (T := .fork w (.fork v l r) R) h).1.trans hl

/-! ### The table -/

theorem State.recordAll_code_of_notMem {l : List (Byte × Code × Count)} {b : Byte} (h : b ∉ l.map Prod.fst)
    (s : State) :
    (s.recordAll l).code.get b = s.code.get b := by
  induction l generalizing s with
  | nil => rfl
  | cons e l ih =>
    rw [List.map_cons, List.mem_cons, not_or] at h
    exact (ih h.2 _).trans (Table.get_set_ne _ _ (Ne.symm h.1))

theorem State.recordAll_code_of_mem {l : List (Byte × Code × Count)} (hl : (l.map Prod.fst).Nodup) {b : Byte}
    {p : Code} {w : Count} (h : (b, p, w) ∈ l) (s : State) : (s.recordAll l).code.get b = p := by
  induction l generalizing s with
  | nil => cases h
  | cons e l ih =>
    rw [List.map_cons, List.nodup_cons] at hl
    rcases List.mem_cons.1 h with rfl | h
    · exact (State.recordAll_code_of_notMem hl.1 _).trans (Table.get_set_self _ _ _)
    · exact ih hl.2 h _

theorem State.recordAll_totalBits (s : State) (l : List (Byte × Code × Count)) :
    (s.recordAll l).totalBits =
      s.totalBits + BitVec.ofNat 72 (l.map fun e => e.2.1.length * e.2.2.toNat).sum := by
  induction l generalizing s with
  | nil => exact (BitVec.add_zero _).symm
  | cons e l ih =>
    have hw : e.2.2.setWidth 72 = BitVec.ofNat 72 e.2.2.toNat := BitVec.eq_of_toNat_eq (by simp)
    refine (ih _).trans ?_
    rw [State.recordCode_totalBits, List.map_cons, List.sum_cons, BitVec.ofNat_add, BitVec.ofNat_mul, hw,
      BitVec.add_assoc]

theorem counted_eq_map (t : Table Count) :
    counted t = (allBytes.filter fun b => t.get b ≠ 0).map fun b => (b, t.get b) := by
  rw [counted, Table.entries_eq_map, List.filter_map]
  rfl

theorem counted_map_fst (t : Table Count) : (counted t).map Prod.fst = allBytes.filter fun b => t.get b ≠ 0 := by
  rw [counted_eq_map, List.map_map]
  exact List.map_id _

theorem counted_length_le (t : Table Count) : (counted t).length ≤ 256 :=
  (List.length_filter_le _ _).trans (entries_length t).le

theorem get_of_mem_counted {t : Table Count} {e : Byte × Count} (h : e ∈ counted t) : t.get e.1 = e.2 :=
  (Table.mem_entries t e.1 e.2).1 (List.mem_filter.1 h).1

theorem sum_filter_map {α : Type} (f : α → Nat) {p : α → Bool} (l : List α) (h : ∀ x, p x = false → f x = 0) :
    ((l.filter p).map f).sum = (l.map f).sum := by
  induction l with
  | nil => rfl
  | cons x l ih =>
    cases hx : p x with
    | false => rw [List.filter_cons_of_neg (by simp [hx]), ih, List.map_cons, List.sum_cons, h x hx, Nat.zero_add]
    | true => rw [List.filter_cons_of_pos hx, List.map_cons, List.map_cons, List.sum_cons, List.sum_cons, ih]

/-- The code bits of all occurrences of a byte value: its share of `TOTAL_BITS` (R194). -/
def bitsOfSymbol (code : Table Code) (freq : Table Count) (b : Byte) : Nat :=
  (code.get b).length * (freq.get b).toNat

section TreeOf

variable {s : State} {T : HTree} (hT : TreeOf s T)
include hT

theorem TreeOf.codes_keys_nodup : ((T.codesFrom []).map Prod.fst).Nodup := by
  obtain ⟨-, -, -, -, hperm⟩ := hT
  have hkeys : (T.codesFrom []).map Prod.fst = T.leaves.map Prod.fst := by
    rw [← HTree.codesFrom_map_leaf T [], List.map_map]
    rfl
  rw [hkeys, (hperm.map _).nodup_iff, counted_map_fst]
  exact allBytes_nodup.filter _

/-- Every code CDERIVE records is the path to its byte value's leaf, and a byte value without a leaf has none (R193). -/
theorem TreeOf.code_iff (hc : s.code = Table.const []) (b : Byte) (p : Code) (hp : p ≠ []) :
    (s.recordAll (T.codesFrom [])).code.get b = p ↔ T.leafAt p = some b := by
  have hmem : ∀ q, (∃ w, (b, q, w) ∈ T.codesFrom []) ↔ T.leafAt q = some b := fun q => by
    rw [HTree.mem_codesFrom]
    simp
  constructor
  · intro h
    by_cases hb : b ∈ (T.codesFrom []).map Prod.fst
    · obtain ⟨⟨c, q, w⟩, hq, rfl⟩ := List.mem_map.1 hb
      rw [State.recordAll_code_of_mem hT.codes_keys_nodup hq] at h
      rw [← h]
      exact (hmem q).1 ⟨w, hq⟩
    · rw [State.recordAll_code_of_notMem hb, hc, Table.get_const] at h
      exact absurd h.symm hp
  · intro h
    obtain ⟨w, hw⟩ := (hmem p).2 h
    exact State.recordAll_code_of_mem hT.codes_keys_nodup hw s

/-- `TOTAL_BITS` is the sum over the byte values of code length times frequency (R194). -/
theorem TreeOf.totalBits_eq (ht : s.totalBits = 0) :
    (s.recordAll (T.codesFrom [])).totalBits =
      BitVec.ofNat 72 (allBytes.map (bitsOfSymbol (s.recordAll (T.codesFrom [])).code s.freq)).sum := by
  have hnodup := hT.codes_keys_nodup
  obtain ⟨-, -, -, -, hperm⟩ := hT
  generalize hcode : (s.recordAll (T.codesFrom [])).code = code
  have hbits : ∀ e ∈ T.codesFrom [], e.2.1.length * e.2.2.toNat = bitsOfSymbol code s.freq e.1 := fun e he => by
    have hleaf : (e.1, e.2.2) ∈ T.leaves := by
      rw [← HTree.codesFrom_map_leaf T []]
      exact List.mem_map_of_mem he
    rw [bitsOfSymbol, ← hcode, State.recordAll_code_of_mem hnodup he, get_of_mem_counted (hperm.mem_iff.1 hleaf)]
  rw [State.recordAll_totalBits, ht]
  refine (BitVec.zero_add _).trans (congrArg _ ?_)
  calc ((T.codesFrom []).map fun e => e.2.1.length * e.2.2.toNat).sum
      = ((T.codesFrom []).map fun e => bitsOfSymbol code s.freq e.1).sum := by rw [List.map_congr_left hbits]
    _ = ((T.leaves.map Prod.fst).map (bitsOfSymbol code s.freq)).sum := by
        rw [← HTree.codesFrom_map_leaf T [], List.map_map, List.map_map]
        rfl
    _ = (((counted s.freq).map Prod.fst).map (bitsOfSymbol code s.freq)).sum := ((hperm.map _).map _).sum_eq
    _ = (allBytes.map (bitsOfSymbol code s.freq)).sum := by
        rw [counted_map_fst]
        refine sum_filter_map _ allBytes fun b hb => ?_
        have h0 : s.freq.get b = 0 := by simpa using hb
        rw [bitsOfSymbol, h0]
        rfl

theorem TreeOf.height_le : T.height ≤ 256 :=
  HTree.height_le_of_huffmanShape hT.2.2.1 (hT.2.2.2.2.length_eq.trans_le (counted_length_le s.freq))

end TreeOf

/-- No code of a tree begins another byte value's code (R196). -/
theorem CodeTableOf.prefixFree {s : State} {T : HTree} (h : CodeTableOf s T) : prefixFree s.code := by
  rintro b c hbc hb hc ⟨q, hq⟩
  have h1 := (h.codes b _ hb).1 rfl
  have h2 := (h.codes c _ hc).1 rfl
  rw [← hq] at h2
  exact hbc (HTree.leafAt_append h1 h2)

/-- A code of a tree over at most 256 byte values has at most 255 bits (R35). -/
theorem CodeTableOf.codesFit {s : State} {T : HTree} (hT : TreeOf s T) (h : CodeTableOf s T) : codesFit s.code := by
  intro b
  by_cases hb : s.code.get b = []
  · rw [hb]; exact Nat.zero_le _
  · have := HTree.length_lt_height ((h.codes b _ hb).1 rfl)
    have := hT.height_le
    omega

theorem paddingOf_toNat (n : BitVec 72) : (paddingOf n).toNat = (8 - n.toNat % 8) % 8 := by
  rw [paddingOf, BitVec.toNat_ofNat]
  omega

end Sys2Proof.Machine

/-! ## What a command can do

A property `K` of the states between units that every unit keeps is kept by every command; `CommandEnds` lists the
ways in which a command word ends. -/

namespace Sys2Proof.Machine

/-- From a state with `K` the unit ends in one with `K`, or in a fault. -/
def Keeps (K : State → Prop) (unit : State → Run Unit) : Prop :=
  ∀ s, K s → (unit s).Ends (fun _ t => K t ∧ Stores s t) (FaultFrom s)

/-- All seven units keep `K`. -/
structure UnitsKeep (K : State → Prop) : Prop where
  fscan   : Keeps K fscanUnit
  tbuild  : Keeps K tbuildUnit
  cderive : Keeps K cderiveUnit
  hpack   : Keeps K hpackUnit
  hunpack : Keeps K hunpackUnit
  bpack   : Keeps K bpackUnit
  bunpack : Keeps K bunpackUnit

/-- How a command word ends in `t` from an idle state `s`: `clears` says that the word is `CLEAR`'s. -/
inductive CommandEnds (K : State → Prop) (clears : Prop) (s : State) : State → Prop where
  /-- `CLEAR` (R312). -/
  | cleared (h : clears) : CommandEnds K clears s s.cleared
  /-- The faulted block ignores the word (R301). -/
  | ignored (h : s.status ≠ none) : CommandEnds K clears s s
  /-- The command ran to its end (R300). -/
  | done {u : State} (h : s.status = none) (hK : K u) (hs : Stores s u) :
    CommandEnds K clears s { u with busy := false }
  /-- A fault ended it, or the word is illegal (R350, R346). -/
  | faulted {t : State} (h : s.status = none) (hf : FaultFrom s t) : CommandEnds K clears s t

variable {K : State → Prop} {clears : Prop} {s t : State}

theorem CommandEnds.imp {clears' : Prop} (h : CommandEnds K clears s t) (hc : clears → clears') :
    CommandEnds K clears' s t := by
  cases h with
  | cleared h => exact .cleared (hc h)
  | ignored h => exact .ignored h
  | done h hK hs => exact .done h hK hs
  | faulted h hf => exact .faulted h hf

theorem Keeps.andThen {u v : State → Run Unit} (hu : Keeps K u) (hv : Keeps K v) :
    Keeps K fun s => (u s).andThen fun _ s => v s := fun s hs =>
  (hu s hs).andThen fun _ _ ⟨ht, hst⟩ =>
    (hv _ ht).mono (fun _ _ ⟨hK, htu⟩ => ⟨hK, hst.trans htu⟩) fun _ hf => hf.of_stores hst

theorem UnitsKeep.compress (h : UnitsKeep K) : Keeps K compressUnits :=
  h.fscan.andThen (h.tbuild.andThen (h.cderive.andThen (h.hpack.andThen h.bpack)))

theorem UnitsKeep.decompress (h : UnitsKeep K) : Keeps K decompressUnits :=
  h.hunpack.andThen h.bunpack

theorem accept_ends {unit : State → Run Unit} (hu : Keeps K unit) (hK : s.status = none → K { s with busy := true })
    (h : accept unit s = .next t) : s.busy = false ∧ CommandEnds K clears s t := by
  rcases accept_cases unit s with ⟨-, ha⟩ | ⟨hb, ⟨c, hc⟩, ha⟩ | ⟨hb, hs, ha⟩ <;> rw [ha] at h
  · cases h
  · cases h
    exact ⟨hb, .ignored (by simp [hc])⟩
  · have hbusy : Stores s { s with busy := true } := Stores.of_same rfl rfl rfl rfl rfl rfl
    have hrun := hu _ (hK hs)
    cases hr : unit { s with busy := true } <;> rw [hr] at h hrun <;> cases h
    · exact ⟨hb, .done hs hrun.1 (hbusy.trans hrun.2)⟩
    · exact ⟨hb, .faulted hs (hrun.of_stores hbusy)⟩

/-- Every way in which a command can end in a next state (R300). -/
theorem exec_ends (hu : UnitsKeep K) {i : Instr} (hK : s.status = none → K { s with busy := true })
    (h : exec i s = .next t) : s.busy = false ∧ CommandEnds K (i = .clear) s t := by
  cases i with
  | fscan => exact accept_ends hu.fscan hK h
  | tbuild => exact accept_ends hu.tbuild hK h
  | cderive => exact accept_ends hu.cderive hK h
  | hpack => exact accept_ends hu.hpack hK h
  | hunpack => exact accept_ends hu.hunpack hK h
  | bpack => exact accept_ends hu.bpack hK h
  | bunpack => exact accept_ends hu.bunpack hK h
  | compress => exact accept_ends hu.compress hK h
  | decompress => exact accept_ends hu.decompress hK h
  | clear =>
    rw [exec, execClear] at h
    cases hb : s.busy <;> rw [hb] at h <;> cases h
    exact ⟨rfl, .cleared rfl⟩

theorem illegalCommand_ends {w : Byte} (h : illegalCommand w s = .next t) :
    s.busy = false ∧ CommandEnds K clears s t := by
  rw [illegalCommand] at h
  cases hb : s.busy <;> cases hs : s.status <;> rw [hb, hs] at h <;> cases h
  · exact ⟨rfl, .faulted hs ((Stores.refl s).fault _ _)⟩
  · exact ⟨rfl, .ignored (by simp [hs])⟩

/-- Every way in which a word written to `CMD` can end in a next state (R300). -/
theorem writeCmd_ends (hu : UnitsKeep K) {w : Byte} (hK : s.status = none → K { s with busy := true })
    (h : writeCmd w s = .next t) : s.busy = false ∧ CommandEnds K (decode w = .ok .clear) s t := by
  rw [writeCmd] at h
  cases hd : decode w with
  | error e => rw [hd] at h; exact illegalCommand_ends h
  | ok i =>
    rw [hd] at h
    obtain ⟨hb, he⟩ := exec_ends hu hK h
    exact ⟨hb, he.imp fun hi => congrArg _ hi⟩

theorem whenIdle_eq_next {f : State → State} : whenIdle f s = .next t ↔ s.busy = false ∧ t = f s := by
  rw [whenIdle]
  cases s.busy <;> simp [eq_comm]

theorem hostMove_read_eq_next {p : HostPort} : hostMove (.read p) s = .next t ↔ s.busy = false ∧ t = s :=
  whenIdle_eq_next (f := fun s => s)

theorem setInLen_of_none (n : Addr) (h : s.status = none) :
    s.setInLen n = { s with inLen := n, valid := Valid.allClear } := by
  rw [State.setInLen, h]

theorem setInLen_of_faulted (n : Addr) (h : s.status ≠ none) : s.setInLen n = s := by
  obtain ⟨c, hc⟩ := Option.ne_none_iff_exists'.1 h
  rw [State.setInLen, hc]

theorem resetDuring_eq_next {w : Byte} {cut : Addr} (h : resetDuring w cut s = .next t) :
    ∃ u, writeCmd w (s.capAt cut) = .next u ∧ t = ({ s with outMem := u.outMem } : State).cleared := by
  rw [resetDuring] at h
  cases hw : writeCmd w (s.capAt cut) <;> rw [hw] at h <;> cases h
  exact ⟨_, rfl, rfl⟩

/-- The units keep what holds of every state: they touch of the memories only `OUT`, and end or fault. -/
theorem unitsKeep_true : UnitsKeep fun _ => True where
  fscan := fun s _ => (fscanUnit_meets s).ends.mono (fun _ _ h => ⟨trivial, h.1⟩) fun _ => id
  tbuild := fun s _ => (tbuildUnit_meets s).ends.mono (fun _ _ h => ⟨trivial, h.2.1⟩) fun _ => id
  cderive := fun s _ => (cderiveUnit_ends s).mono (fun _ _ h => ⟨trivial, h.2.1⟩) fun _ => id
  hpack := fun s _ => (hpackUnit_meets s).ends.mono (fun _ _ h => ⟨trivial, h.2.1⟩) fun _ => id
  hunpack := fun s _ => (hunpackUnit_meets s).ends.mono (fun _ _ h => ⟨trivial, h.1⟩) fun _ => id
  bpack := fun s _ => (bpackUnit_meets s).ends.mono (fun _ _ h => ⟨trivial, h.2.1⟩) fun _ => id
  bunpack := fun s _ => (bunpackUnit_ends s).mono (fun _ _ h => ⟨trivial, h.2.1⟩) fun _ => id

theorem CommandEnds.outForm (h : CommandEnds K clears s t) (hs : Memory.wf s.outMem) : Memory.wf t.outMem := by
  cases h with
  | cleared h => exact hs
  | ignored h => exact hs
  | done h hK hst => exact hst.outForm hs
  | faulted h hf => exact hf.stores.outForm hs

end Sys2Proof.Machine

/-! ## The invariant of the block -/

namespace Sys2Proof.Machine

/-- The invariant as it stands between the units of a command: all of `Inv` but `BUSY` and the memories. -/
structure Ready (s : State) : Prop where
  status   : s.status = none
  phase    : s.phase = .idle
  record   : s.faultInfo = 0 ∧ s.faultUnit = .idle
  stage    : s.valid ∈ stages
  arena    : ArenaOk s
  workList : s.list.length = s.listLen.toNat ∧ s.list.length ≤ 256
  hdrLen   : s.valid.hdrr = true → s.hdrLen ≤ s.inLen
  padding  : s.valid.code = true → s.padding = paddingOf s.totalBits
  packed   : s.valid.hdrw = true → s.outLen = if s.valid.cout then s.hdrLen + s.payLen else s.hdrLen

/-- What `Inv` says of the memories. -/
structure MemoriesOk (s : State) : Prop where
  inForm  : Memory.wf s.inMem
  outForm : Memory.wf s.outMem
  outLen  : s.outLen ≤ s.params.outCap

variable {s t : State}

theorem Inv.memoriesOk (h : Inv s) : MemoriesOk s := ⟨h.inForm, h.outForm, h.outLen⟩

theorem Stores.memoriesOk (h : Stores s t) (hs : MemoriesOk s) : MemoriesOk t :=
  ⟨h.inMem ▸ hs.inForm, h.outForm hs.outForm, h.params ▸ h.outLen hs.outLen⟩

theorem ArenaOk.congr (h : ArenaOk s) (hn : t.node = s.node) (hc : t.nodeCount = s.nodeCount) (hr : t.root = s.root)
    (htree : t.valid.tree = true → s.valid.tree = true) (hhdrr : t.valid.hdrr = true → s.valid.hdrr = true) :
    ArenaOk t where
  count := by rw [hn, hc, h.count]
  cap := hn ▸ h.cap
  tree := fun ht => by rw [hn, hr]; exact h.tree (htree ht)
  header := fun ht => by rw [hn, hr]; exact h.header (hhdrr ht)

theorem Inv.ready (h : Inv s) (hs : s.status = none) (b : Bool) : Ready { s with busy := b } where
  status := hs
  phase := h.idle.2
  record := h.noFault hs
  stage := h.stage
  arena := (h.arena hs).congr rfl rfl rfl id id
  workList := h.workList hs
  hdrLen := h.hdrLen
  padding := h.padding
  packed := h.packed

theorem Ready.inv (h : Ready s) (hm : MemoriesOk s) : Inv { s with busy := false } where
  idle := ⟨rfl, h.phase⟩
  noFault := fun _ => h.record
  faulted := fun hs => absurd h.status hs
  stage := h.stage
  inForm := hm.inForm
  outForm := hm.outForm
  outLen := hm.outLen
  arena := fun _ => h.arena.congr rfl rfl rfl id id
  workList := fun _ => h.workList
  hdrLen := h.hdrLen
  padding := h.padding
  packed := h.packed

theorem FaultFrom.inv (h : FaultFrom s t) (hm : MemoriesOk s) : Inv t := by
  obtain ⟨hstores, hstatus, hvalid, hphase, hbusy⟩ := h
  obtain ⟨hi, ho, hl⟩ := hstores.memoriesOk hm
  refine ⟨⟨hbusy, hphase⟩, fun h => absurd h hstatus, fun _ => hvalid, ?_, hi, ho, hl, fun h => absurd h hstatus,
    fun h => absurd h hstatus, ?_, ?_, ?_⟩ <;> rw [hvalid]
  · decide
  · exact nofun
  · exact nofun
  · exact nofun

/-- The reset values with any canonical memories (R312, R380). -/
theorem cleared_ready (s : State) : Ready s.cleared where
  status := rfl
  phase := rfl
  record := ⟨rfl, rfl⟩
  stage := by show Valid.allClear ∈ stages; decide
  arena := ⟨rfl, Nat.zero_le _, nofun, nofun⟩
  workList := ⟨rfl, Nat.zero_le _⟩
  hdrLen := nofun
  padding := nofun
  packed := nofun

theorem cleared_inv (hi : Memory.wf s.inMem) (ho : Memory.wf s.outMem) : Inv s.cleared :=
  (cleared_ready s).inv ⟨hi, ho, BitVec.le_def.2 (Nat.zero_le _)⟩

/-! ### Every unit keeps it -/

theorem fscan_keeps_ready : Keeps Ready fscanUnit := fun s h => by
  refine (fscanUnit_meets s).ends.mono ?_ fun _ => id
  rintro - _ ⟨hs, f, n, p, rfl⟩
  exact ⟨{ h with
    phase := rfl
    stage := by show ({ Valid.allClear with freq := true } : Valid) ∈ stages; decide
    arena := h.arena.congr rfl rfl rfl nofun nofun
    hdrLen := nofun
    padding := nofun
    packed := nofun }, hs⟩

theorem stage_after_tbuild : ∀ v ∈ stages, v.freq = true → { v.atTbuild with tree := true } ∈ stages := by decide

theorem stage_after_cderive : ∀ v ∈ stages, v.tree = true → { v.atCderive with code := true } ∈ stages := by decide

theorem stage_after_hpack : ∀ v ∈ stages, v.code = true → { v.atHpack with hdrw := true } ∈ stages := by decide

theorem stage_after_bpack :
    ∀ v ∈ stages, v.code = true ∧ v.hdrw = true → { v.atStream with cout := true } ∈ stages := by decide

theorem stage_after_bunpack : ∀ v ∈ stages, v.hdrr = true → { v.atStream with dout := true } ∈ stages := by decide

/-- A header is read only while no header is written (R32). -/
theorem not_hdrw_of_hdrr : ∀ v ∈ stages, v.hdrr = true → v.hdrw = false := by decide

theorem not_hdrr_of_code : ∀ v ∈ stages, v.code = true → v.hdrr = false := by decide

theorem tbuild_keeps_ready : Keeps Ready tbuildUnit := fun s h => by
  refine (tbuildUnit_meets s).ends.mono ?_ fun _ => id
  rintro - _ ⟨hv, hs, hb, nodes, n, l, m, r, rfl⟩
  have hlist : l.length ≤ 1 := hb.list
  have hlen : (BitVec.ofNat 9 l.length).toNat = l.length := by
    rw [BitVec.toNat_ofNat]
    omega
  exact ⟨{ h with
    phase := rfl
    stage := stage_after_tbuild _ h.stage hv
    arena := ⟨hb.count, hb.size.trans (by decide), fun _ => ⟨hb.below, hb.root⟩, nofun⟩
    workList := ⟨hlen.symm.trans (congrArg BitVec.toNat hb.len.symm), hlist.trans (by decide)⟩
    hdrLen := nofun
    padding := nofun
    packed := nofun }, hs⟩

theorem cderive_keeps_ready : Keeps Ready cderiveUnit := fun s h => by
  refine (cderiveUnit_ends s).mono ?_ fun _ => id
  rintro - _ ⟨hv, hs, c, n, rfl⟩
  exact ⟨{ h with
    phase := rfl
    stage := stage_after_cderive _ h.stage hv
    arena := h.arena.congr rfl rfl rfl id id
    padding := fun _ => rfl
    packed := nofun }, hs⟩

theorem hpack_keeps_ready : Keeps Ready hpackUnit := fun s h => by
  refine (hpackUnit_meets s).ends.mono ?_ fun _ => id
  rintro - _ ⟨hv, hs, m, n, rfl⟩
  exact ⟨{ h with
    phase := rfl
    stage := stage_after_hpack _ h.stage hv
    arena := h.arena.congr rfl rfl rfl id id
    hdrLen := fun hr => absurd hr (Bool.eq_false_iff.1 (not_hdrr_of_code s.valid h.stage hv))
    packed := fun _ => rfl }, hs⟩

theorem hunpack_keeps_ready : Keeps Ready hunpackUnit := fun s h => by
  refine (hunpackUnit_meets s).ends.mono ?_ fun _ => id
  rintro - _ ⟨hs, hr, nodes, n, p, c, r, a, pad, l, rfl⟩
  exact ⟨{ h with
    phase := rfl
    stage := by show ({ Valid.allClear with hdrr := true } : Valid) ∈ stages; decide
    arena := ⟨hr.count, hr.cap, nofun, fun _ => ⟨hr.links, hr.root⟩⟩
    hdrLen := fun _ => hr.hdrLen
    padding := nofun
    packed := nofun }, hs⟩

theorem bpack_keeps_ready : Keeps Ready bpackUnit := fun s h => by
  refine (bpackUnit_meets s).ends.mono ?_ fun _ => id
  rintro - _ ⟨hv, hs, hn, m, n, l, acc, pos, k, p, rfl⟩
  exact ⟨{ h with
    phase := rfl
    stage := stage_after_bpack _ h.stage hv
    arena := h.arena.congr rfl rfl rfl id id
    packed := fun _ => hn }, hs⟩

theorem bunpack_keeps_ready : Keeps Ready bunpackUnit := fun s h => by
  refine (bunpackUnit_ends s).mono ?_ fun _ => id
  rintro - _ ⟨hv, hs, m, n, l, k, cur, v, p, rfl⟩
  exact ⟨{ h with
    phase := rfl
    stage := stage_after_bunpack _ h.stage hv
    arena := h.arena.congr rfl rfl rfl id id
    packed := fun hw => absurd hw (Bool.eq_false_iff.1 (not_hdrw_of_hdrr s.valid h.stage hv)) }, hs⟩

theorem unitsKeep_ready : UnitsKeep Ready where
  fscan := fscan_keeps_ready
  tbuild := tbuild_keeps_ready
  cderive := cderive_keeps_ready
  hpack := hpack_keeps_ready
  hunpack := hunpack_keeps_ready
  bpack := bpack_keeps_ready
  bunpack := bunpack_keeps_ready

/-! ### Every host move keeps it -/

theorem Inv.setHost (h : Inv s) (moves : List HostMove) : Inv { s with host := moves } :=
  { h with arena := fun hs => (h.arena hs).congr rfl rfl rfl id id }

theorem Inv.storeIn (h : Inv s) (a : Addr) (v : Byte) : Inv (s.storeIn a v) :=
  { h with
    inForm := Memory.write_wf v a.isLt h.inForm
    arena := fun hs => (h.arena hs).congr rfl rfl rfl id id }

theorem Inv.setInLen (h : Inv s) (n : Addr) : Inv (s.setInLen n) := by
  by_cases hs : s.status = none
  · rw [setInLen_of_none n hs]
    exact { h with
      faulted := fun _ => rfl
      stage := by show Valid.allClear ∈ stages; decide
      arena := fun hs => (h.arena hs).congr rfl rfl rfl nofun nofun
      hdrLen := nofun
      padding := nofun
      packed := nofun }
  · rw [setInLen_of_faulted n hs]
    exact h

theorem Inv.writeCmd (h : Inv s) {w : Byte} (he : writeCmd w s = .next t) : Inv t := by
  obtain ⟨-, hend⟩ := writeCmd_ends unitsKeep_ready (fun hs => h.ready hs true) he
  cases hend with
  | cleared => exact cleared_inv h.inForm h.outForm
  | ignored => exact h
  | done hs hK hst => exact hK.inv (hst.memoriesOk h.memoriesOk)
  | faulted hs hf => exact hf.inv h.memoriesOk

theorem Inv.resetDuring (h : Inv s) {w : Byte} {cut : Addr} (he : resetDuring w cut s = .next t) : Inv t := by
  obtain ⟨u, hu, rfl⟩ := resetDuring_eq_next he
  obtain ⟨-, hend⟩ := writeCmd_ends unitsKeep_true (fun _ => trivial) hu
  exact cleared_inv (s := { s with outMem := u.outMem }) h.inForm (hend.outForm h.outForm)

theorem Inv.hostMove (h : Inv s) {m : HostMove} (he : hostMove m s = .next t) : Inv t := by
  cases m with
  | writeIn a v => obtain ⟨-, rfl⟩ := whenIdle_eq_next.1 he; exact h.storeIn a v
  | writeInLen n => obtain ⟨-, rfl⟩ := whenIdle_eq_next.1 he; exact h.setInLen n
  | writeCmd w => exact h.writeCmd he
  | read p => obtain ⟨-, rfl⟩ := hostMove_read_eq_next.1 he; exact h
  | hardReset => cases he; exact cleared_inv h.inForm h.outForm
  | resetDuring w cut => exact h.resetDuring he

/-- A step is the idle step or the host's next move, taken off the script. -/
theorem step_eq_next (h : step s = .next t) :
    (s.host = [] ∧ t = s) ∨ ∃ m rest, s.host = m :: rest ∧ hostMove m { s with host := rest } = .next t := by
  rw [step] at h
  cases hh : s.host with
  | nil => rw [hh] at h; cases h; exact .inl ⟨rfl, rfl⟩
  | cons m rest => rw [hh] at h; exact .inr ⟨m, rest, rfl, h⟩

/-- Settles O50: the invariant splits into what stands between units (`Ready`), kept by each unit's frame, and what the
memories satisfy, kept by `Stores`. -/
theorem stepKeepsTheInvariant : Obligations.StepKeepsTheInvariant := by
  unfold Obligations.StepKeepsTheInvariant
  intro s t h he
  obtain ⟨-, rfl⟩ | ⟨m, rest, -, hm⟩ := step_eq_next he
  · exact h
  · exact (h.setHost rest).hostMove hm

/-- Settles O49: the reset state is ready and its memories are empty. -/
theorem resetMeetsTheInvariant : Obligations.ResetMeetsTheInvariant := by
  unfold Obligations.ResetMeetsTheInvariant
  exact cleared_inv (s := State.reset) Memory.reset_wf.1 Memory.reset_wf.2

end Sys2Proof.Machine

/-! ## What the flags vouch for -/

namespace Sys2Proof.Machine

variable {s t : State}

/-- The clause of `Vouched` between the units of a command. -/
def VouchedLive (s : State) : Prop := s.status = none ∧ Vouched s

theorem TreeOf.congr {T : HTree} (h : TreeOf s T) (hn : t.node = s.node) (hc : t.nodeCount = s.nodeCount)
    (hr : t.root = s.root) (hf : t.freq = s.freq) : TreeOf t T := by
  obtain ⟨hrep, hh, hshape, hw, hperm⟩ := h
  exact ⟨hr ▸ hrep.congr hn, hc ▸ hh, hshape, hw, hf ▸ hperm⟩

theorem CodeTableOf.congr {T : HTree} (h : CodeTableOf s T) (hc : t.code = s.code) (hf : t.freq = s.freq)
    (ht : t.totalBits = s.totalBits) (hp : t.padding = s.padding) : CodeTableOf t T where
  codes := hc ▸ h.codes
  total := by rw [ht, hc, hf]; exact h.total
  padding := by rw [hp, ht]; exact h.padding

/-- Where the tree and the code table stay and no flag is set for them, what they vouch for stays. -/
theorem Vouched.congr (h : Vouched s) (hn : t.node = s.node) (hcount : t.nodeCount = s.nodeCount)
    (hr : t.root = s.root) (hf : t.freq = s.freq) (hc : t.code = s.code) (htotal : t.totalBits = s.totalBits)
    (hp : t.padding = s.padding) (htree : t.valid.tree = true → s.valid.tree = true)
    (hcode : t.valid.code = true → s.valid.code = true) (hs : t.status = none → s.status = none) : Vouched t where
  tree := fun ht => (h.tree (htree ht)).imp fun _ hT => hT.congr hn hcount hr hf
  codes := fun ht => by
    obtain ⟨hprefix, T, hT, htable⟩ := h.codes (hcode ht)
    exact ⟨hc ▸ hprefix, T, hT.congr hn hcount hr hf, htable.congr hc hf htotal hp⟩
  fit := fun ht => hc ▸ h.fit (hs ht)

/-- Cleared flags vouch for nothing but the size of the codes. -/
theorem vouched_of_clear (htree : t.valid.tree = false) (hcode : t.valid.code = false)
    (hfit : t.status = none → codesFit t.code) : Vouched t where
  tree := fun h => by rw [htree] at h; cases h
  codes := fun h => by rw [hcode] at h; cases h
  fit := hfit

theorem FaultFrom.vouched (h : FaultFrom s t) : Vouched t :=
  vouched_of_clear (by rw [h.valid]; rfl) (by rw [h.valid]; rfl) fun hs => absurd hs h.status

theorem cleared_vouched (s : State) : Vouched s.cleared :=
  vouched_of_clear rfl rfl fun _ b => by
    rw [show s.cleared.code = Table.const [] from rfl, Table.get_const]
    exact Nat.zero_le _

theorem fscan_keeps_vouched : Keeps VouchedLive fscanUnit := fun s ⟨hstatus, h⟩ => by
  refine (fscanUnit_meets s).ends.mono ?_ fun _ => id
  rintro - _ ⟨hs, f, n, p, rfl⟩
  exact ⟨⟨hstatus, vouched_of_clear rfl rfl h.fit⟩, hs⟩

theorem hunpack_keeps_vouched : Keeps VouchedLive hunpackUnit := fun s ⟨hstatus, h⟩ => by
  refine (hunpackUnit_meets s).ends.mono ?_ fun _ => id
  rintro - _ ⟨hs, -, nodes, n, p, c, r, a, pad, l, rfl⟩
  exact ⟨⟨hstatus, vouched_of_clear rfl rfl h.fit⟩, hs⟩

/-- A tree built is the tree over the counts (R169, R170). -/
theorem Built.treeOf (h : Built (counted s.freq) s) : ∃ T, TreeOf s T := by
  obtain ⟨T, hrep, hshape, hw, hperm⟩ := h.tree
  exact ⟨T, hrep, (hrep.height_le h.below h.root).trans_eq h.count, hshape, hw, hperm⟩

theorem tbuild_keeps_vouched : Keeps VouchedLive tbuildUnit := fun s ⟨hstatus, h⟩ => by
  refine (tbuildUnit_meets s).ends.mono ?_ fun _ => id
  rintro - _ ⟨-, hs, hb, nodes, n, l, m, r, rfl⟩
  exact ⟨⟨hstatus, ⟨fun _ => Built.treeOf hb, nofun, h.fit⟩⟩, hs⟩

/-- CDERIVE on a tree: it ends without a fault, with the tree's code table (R193 to R195). -/
theorem cderiveUnit_eq {T : HTree} (hv : s.valid.tree = true) (hT : TreeOf s T) :
    ∃ t, cderiveUnit s = .ok () t ∧ TreeOf t T ∧ CodeTableOf t T := by
  have hT0 : TreeOf (s.startUnit .codeDeriver).deriveStart T := hT.congr rfl rfl rfl rfl
  obtain ⟨c, n, hframe⟩ := State.recordAll_frame (s.startUnit .codeDeriver).deriveStart (T.codesFrom [])
  have hcodes := hT0.code_iff rfl
  have htotal := hT0.totalBits_eq rfl
  have hwalk := walkTree_eq hT0.1 hT0.2.1
  rw [hframe] at hcodes htotal hwalk
  refine ⟨_, by rw [cderiveUnit, hv, require_met, hwalk]; rfl, ?_⟩
  exact ⟨hT.congr rfl rfl rfl rfl, hcodes, htotal, paddingOf_toNat n⟩

theorem cderive_keeps_vouched : Keeps VouchedLive cderiveUnit := fun s ⟨hstatus, h⟩ => by
  have hframe := cderiveUnit_ends s
  cases hr : cderiveUnit s with
  | stuck f => trivial
  | raised t => rw [hr] at hframe; exact hframe
  | ok _ t =>
    rw [hr] at hframe
    obtain ⟨hv, hs, c, n, ht⟩ := hframe
    obtain ⟨T, hT⟩ := h.tree hv
    obtain ⟨u, hu, hTu, htable⟩ := cderiveUnit_eq hv hT
    obtain rfl : t = u := by rw [hr] at hu; cases hu; rfl
    exact ⟨⟨(congrArg State.status ht).trans hstatus, fun _ => ⟨T, hTu⟩, fun _ => ⟨htable.prefixFree, T, hTu, htable⟩,
      fun _ => htable.codesFit hTu⟩, hs⟩

theorem hpack_keeps_vouched : Keeps VouchedLive hpackUnit := fun s ⟨hstatus, h⟩ => by
  refine (hpackUnit_meets s).ends.mono ?_ fun _ => id
  rintro - _ ⟨-, hs, m, n, rfl⟩
  exact ⟨⟨hstatus, h.congr rfl rfl rfl rfl rfl rfl rfl id id id⟩, hs⟩

theorem bpack_keeps_vouched : Keeps VouchedLive bpackUnit := fun s ⟨hstatus, h⟩ => by
  refine (bpackUnit_meets s).ends.mono ?_ fun _ => id
  rintro - _ ⟨-, hs, -, m, n, l, acc, pos, k, p, rfl⟩
  exact ⟨⟨hstatus, h.congr rfl rfl rfl rfl rfl rfl rfl id id id⟩, hs⟩

theorem bunpack_keeps_vouched : Keeps VouchedLive bunpackUnit := fun s ⟨hstatus, h⟩ => by
  refine (bunpackUnit_ends s).mono ?_ fun _ => id
  rintro - _ ⟨-, hs, m, n, l, k, cur, v, p, rfl⟩
  exact ⟨⟨hstatus, h.congr rfl rfl rfl rfl rfl rfl rfl id id id⟩, hs⟩

theorem unitsKeep_vouched : UnitsKeep VouchedLive where
  fscan := fscan_keeps_vouched
  tbuild := tbuild_keeps_vouched
  cderive := cderive_keeps_vouched
  hpack := hpack_keeps_vouched
  hunpack := hunpack_keeps_vouched
  bpack := bpack_keeps_vouched
  bunpack := bunpack_keeps_vouched

theorem Vouched.setInLen (h : Vouched s) (n : Addr) : Vouched (s.setInLen n) := by
  by_cases hs : s.status = none
  · rw [setInLen_of_none n hs]
    exact vouched_of_clear rfl rfl h.fit
  · rw [setInLen_of_faulted n hs]
    exact h

theorem Vouched.writeCmd (h : Vouched s) {w : Byte} (he : writeCmd w s = .next t) : Vouched t := by
  have hlive : s.status = none → VouchedLive { s with busy := true } := fun hs =>
    ⟨hs, h.congr rfl rfl rfl rfl rfl rfl rfl id id id⟩
  obtain ⟨-, hend⟩ := writeCmd_ends unitsKeep_vouched hlive he
  cases hend with
  | cleared => exact cleared_vouched s
  | ignored => exact h
  | done hs hK hst => exact hK.2.congr rfl rfl rfl rfl rfl rfl rfl id id id
  | faulted hs hf => exact hf.vouched

theorem Vouched.hostMove (h : Vouched s) {m : HostMove} (he : hostMove m s = .next t) : Vouched t := by
  cases m with
  | writeIn a v => obtain ⟨-, rfl⟩ := whenIdle_eq_next.1 he; exact h.congr rfl rfl rfl rfl rfl rfl rfl id id id
  | writeInLen n => obtain ⟨-, rfl⟩ := whenIdle_eq_next.1 he; exact h.setInLen n
  | writeCmd w => exact h.writeCmd he
  | read p => obtain ⟨-, rfl⟩ := hostMove_read_eq_next.1 he; exact h
  | hardReset => cases he; exact cleared_vouched s
  | resetDuring w cut => obtain ⟨u, -, rfl⟩ := resetDuring_eq_next he; exact cleared_vouched _

/-- Settles O51: TBUILD establishes the tree and CDERIVE its code table; every other unit keeps both or clears their
flags. -/
theorem flagsVouchForTreeAndCodes : Obligations.FlagsVouchForTreeAndCodes := by
  unfold Obligations.FlagsVouchForTreeAndCodes
  intro s t _ h he
  obtain ⟨-, rfl⟩ | ⟨m, rest, -, hm⟩ := step_eq_next he
  · exact h
  · have h' : Vouched { s with host := rest } := h.congr rfl rfl rfl rfl rfl rfl rfl id id id
    exact h'.hostMove hm

end Sys2Proof.Machine

/-! ## The fault record, the reset values and the host's ports -/

namespace Sys2Proof.Machine

variable {s t : State}

/-- Only the word 0x0A is `CLEAR`'s (R101). -/
theorem word_of_decode_clear : ∀ w : Byte, decode w = .ok .clear → w = 0x0A := by decide +kernel

/-- Settles O53: the faulted block ignores every word but `CLEAR`'s and a write of `IN_LEN`. -/
theorem faultRecordIsSticky : Obligations.FaultRecordIsSticky := by
  unfold Obligations.FaultRecordIsSticky
  intro s t c hc he hclear hreset hduring
  obtain ⟨-, rfl⟩ | ⟨m, rest, hhost, hm⟩ := step_eq_next he
  · rfl
  have hfaulted : s.status ≠ none := by simp [hc]
  cases m with
  | writeIn a v => obtain ⟨-, rfl⟩ := whenIdle_eq_next.1 hm; rfl
  | writeInLen n =>
    obtain ⟨-, rfl⟩ := whenIdle_eq_next.1 hm
    rw [setInLen_of_faulted (s := { s with host := rest }) n hfaulted]
  | writeCmd w =>
    obtain ⟨-, hend⟩ := writeCmd_ends unitsKeep_true (fun _ => trivial) hm
    cases hend with
    | cleared hw => exact absurd (word_of_decode_clear w hw ▸ hhost) (hclear rest)
    | ignored => rfl
    | done hs => exact absurd hs hfaulted
    | faulted hs => exact absurd hs hfaulted
  | read p => obtain ⟨-, rfl⟩ := hostMove_read_eq_next.1 hm; rfl
  | hardReset => exact absurd hhost (hreset rest)
  | resetDuring w cut => exact absurd hhost (hduring w cut rest)

/-- Settles O8: each register by its definition, each entry of `FREQ` and `CODE` by the constant table. -/
theorem resetValues : Obligations.ResetValues := by
  unfold Obligations.ResetValues
  have hfreq : ∀ b, State.reset.freq.get b = 0 := Table.get_const 0
  have hcode : ∀ b, State.reset.code.get b = [] := Table.get_const []
  have hempty : ∀ b, Code.len (State.reset.code.get b) = 0 ∧ Code.bits (State.reset.code.get b) = 0 := fun b => by
    rw [hcode b]
    exact ⟨rfl, rfl⟩
  exact ⟨rfl, rfl, rfl, rfl, rfl, rfl, rfl, rfl, rfl, rfl, rfl, rfl, rfl, rfl, rfl, rfl, rfl, rfl, rfl, rfl, rfl, rfl,
    rfl, rfl, hfreq, hempty⟩

theorem step_of_host {m : HostMove} {rest : List HostMove} (h : s.host = m :: rest) :
    step s = hostMove m { s with host := rest } := by
  rw [step, h]

theorem whenIdle_of_idle {f : State → State} (h : s.busy = false) : whenIdle f s = .next (f s) :=
  whenIdle_eq_next.2 ⟨h, rfl⟩

theorem whenIdle_of_busy {f : State → State} (h : s.busy = true) : whenIdle f s = .refused .hostActsWhileBusy := by
  rw [whenIdle, h]

/-- Settles O9: the three cases of the move, by `BUSY` and `STATUS`. -/
theorem hostWriteOfInLen : Obligations.HostWriteOfInLen := by
  unfold Obligations.HostWriteOfInLen
  intro s rest n hhost
  have hstep : step s = whenIdle (fun s => s.setInLen n) { s with host := rest } := step_of_host hhost
  rw [hstep]
  refine ⟨fun hb hs => ?_, fun hb hs => ?_, fun hb => ?_⟩
  · rw [whenIdle_of_idle (s := { s with host := rest }) hb, setInLen_of_none (s := { s with host := rest }) n hs]
  · rw [whenIdle_of_idle (s := { s with host := rest }) hb, setInLen_of_faulted (s := { s with host := rest }) n hs]
  · exact whenIdle_of_busy (s := { s with host := rest }) hb

/-- A port that U6 leaves defined reads the same with and without a fault. -/
theorem hostRead_of_defined {p : HostPort} (hb : s.busy = false) (hp : p.definedAfterFault = true) :
    hostRead p s = portValue p s := by
  rw [hostRead, hb, hp, Bool.not_true, Bool.and_false]

theorem hostRead_status (hb : s.busy = false) : hostRead .status s = .value s.statusWord.toNat :=
  hostRead_of_defined hb rfl

theorem statusWord_of_fault {c : Cause} (h : s.status = some c) : s.statusWord = c.code := by
  rw [State.statusWord, h]

theorem statusWord_of_none (h : s.status = none) : s.statusWord = 0 := by
  rw [State.statusWord, h]

theorem hostRead_faultUnit (hb : s.busy = false) {u : Phase} (h : s.faultUnit = u) :
    hostRead .faultUnit s = .value u.code.toNat :=
  h ▸ hostRead_of_defined hb rfl

/-- `VALID` as a number (R31). -/
theorem Valid.word_toNat (v : Valid) :
    v.word.toNat = v.freq.toNat + 2 * v.tree.toNat + 4 * v.code.toNat + 8 * v.hdrw.toNat + 16 * v.hdrr.toNat +
      32 * v.cout.toNat + 64 * v.dout.toNat := by
  obtain ⟨freq, tree, code, hdrw, hdrr, cout, dout⟩ := v
  revert freq tree code hdrw hdrr cout dout
  decide

/-- Settles O11: each port by the code of what it holds. -/
theorem hostReadsOfControlRegisters : Obligations.HostReadsOfControlRegisters := by
  unfold Obligations.HostReadsOfControlRegisters
  intro s hb
  have hstatus : ∀ c, s.status = some c → hostRead .status s = .value c.code.toNat := fun c hc => by
    rw [hostRead_status hb, statusWord_of_fault hc]
  have hunit : ∀ u, s.faultUnit = u → hostRead .faultUnit s = .value u.code.toNat :=
    fun u => hostRead_faultUnit hb
  refine ⟨hostRead_of_defined hb rfl, ?_, fun hp => ?_, fun hs => ?_, hstatus _, hstatus _, hstatus _, hstatus _,
    hstatus _, hstatus _, hostRead_of_defined hb rfl, hunit _, hunit _, hunit _, hunit _, hunit _, hunit _, hunit _,
    hunit _, ?_, fun port rest hhost => ?_⟩
  · rw [hostRead_of_defined hb rfl, portValue, hb]
    rfl
  · rw [hostRead_of_defined hb rfl, portValue, hp]
    rfl
  · rw [hostRead_status hb, statusWord_of_none hs]
    rfl
  · rw [hostRead_of_defined hb rfl, portValue, Valid.word_toNat]
  · rw [step_of_host hhost]
    exact hostMove_read_eq_next.2 ⟨hb, rfl⟩

end Sys2Proof.Machine

/-! ## The byte memories: the two access primitives (R76, R77) and who writes `IN` (R70) -/

namespace Sys2Proof.Machine

variable {s t : State}

/-! ### `in_byte` and `emit`, an equation per case -/

theorem inByte_of_le {a : Addr} (h : s.inLen ≤ a) : inByte a s =
    raise (if s.phase = .headerUnpacker then .corruptArchive else .inputFault) a s := by
  rcases inByte_cases a s with ⟨hlt, -⟩ | ⟨hlt, -⟩ | ⟨-, hp, e⟩ | ⟨-, hp, e⟩
  · exact absurd hlt (BitVec.not_lt.2 h)
  · exact absurd hlt (BitVec.not_lt.2 h)
  · rw [e, if_pos hp]
  · rw [e, if_neg hp]

theorem inByte_of_readFails {a : Addr} (h : a < s.inLen) (hr : s.params.readFails a = true) :
    inByte a s = raise .inputFault a s := by
  rcases inByte_cases a s with ⟨-, hr', -⟩ | ⟨-, -, e⟩ | ⟨hle, -⟩ | ⟨hle, -⟩
  · rw [hr] at hr'; cases hr'
  · exact e
  · exact absurd h (BitVec.not_lt.2 hle)
  · exact absurd h (BitVec.not_lt.2 hle)

theorem inByte_of_lt {a : Addr} (h : a < s.inLen) (hr : s.params.readFails a = false) :
    inByte a s = .ok (s.inAt a.toNat) { s with inPtr := a + 1 } := by
  rcases inByte_cases a s with ⟨-, -, e⟩ | ⟨-, hr', -⟩ | ⟨hle, -⟩ | ⟨hle, -⟩
  · exact e
  · rw [hr] at hr'; cases hr'
  · exact absurd h (BitVec.not_lt.2 hle)
  · exact absurd h (BitVec.not_lt.2 hle)

theorem emit_of_full (v : Byte) (h : s.params.outCap ≤ s.outLen) : emit v s = raise .outputFault s.outLen s := by
  rcases emit_cases v s with ⟨hlt, -⟩ | ⟨-, e⟩
  · exact absurd hlt (BitVec.not_lt.2 h)
  · exact e

theorem emit_of_room (v : Byte) (h : s.outLen < s.params.outCap) : emit v s =
    .ok () { s with outMem := Memory.write s.outLen.toNat v s.outMem, outLen := s.outLen + 1 } := by
  rcases emit_cases v s with ⟨-, e⟩ | ⟨hle, -⟩
  · exact e
  · exact absurd h (BitVec.not_lt.2 hle)

/-- Settles O13: the three cases of `in_byte`, in the order of R76. -/
theorem inByteReadsBelowTheLength : Obligations.InByteReadsBelowTheLength := by
  unfold Obligations.InByteReadsBelowTheLength
  exact fun _ _ => ⟨inByte_of_le, inByte_of_readFails, inByte_of_lt⟩

/-- Settles O14: `emit` is one write at `OUT_LEN`, so `OUT` afterwards is read by the laws of `Memory.write`. -/
theorem emitAppendsOneByteBelowTheCapacity : Obligations.EmitAppendsOneByteBelowTheCapacity := by
  unfold Obligations.EmitAppendsOneByteBelowTheCapacity
  intro v s hform
  refine ⟨emit_of_full v, fun hroom => ⟨_, emit_of_room v hroom, rfl, ?_, fun a ha => ?_⟩⟩
  · exact Memory.read_write_self v hform
  · exact Memory.read_write_ne v s.outMem (Ne.symm ha)

/-! ### Only the host writes `IN` -/

/-- However a command word ends, `IN` and the parameters stay (R70, R351). -/
theorem CommandEnds.keepsInput {K : State → Prop} {clears : Prop} (h : CommandEnds K clears s t) :
    t.params = s.params ∧ t.inMem = s.inMem := by
  cases h with
  | cleared h => exact ⟨State.cleared_params s, State.cleared_inMem s⟩
  | ignored h => exact ⟨rfl, rfl⟩
  | done h hK hs => exact ⟨hs.params, hs.inMem⟩
  | faulted h hf => exact ⟨hf.stores.params, hf.stores.inMem⟩

theorem writeCmd_keepsInput {w : Byte} (h : writeCmd w s = .next t) : t.params = s.params ∧ t.inMem = s.inMem :=
  (writeCmd_ends unitsKeep_true (fun _ => trivial) h).2.keepsInput

theorem setInLen_keepsInput (n : Addr) (s : State) :
    (s.setInLen n).params = s.params ∧ (s.setInLen n).inMem = s.inMem := by
  by_cases hs : s.status = none
  · rw [setInLen_of_none n hs]
    exact ⟨rfl, rfl⟩
  · rw [setInLen_of_faulted n hs]
    exact ⟨rfl, rfl⟩

/-- A host move keeps the parameters, and `IN` unless it stores a byte there (R395). -/
theorem hostMove_keepsInput {m : HostMove} (h : hostMove m s = .next t) :
    t.params = s.params ∧ ((∀ a v, m ≠ .writeIn a v) → t.inMem = s.inMem) := by
  cases m with
  | writeIn a v =>
    obtain ⟨-, rfl⟩ := whenIdle_eq_next.1 h
    exact ⟨rfl, fun hm => absurd rfl (hm a v)⟩
  | writeInLen n =>
    obtain ⟨-, rfl⟩ := whenIdle_eq_next.1 h
    obtain ⟨hparams, hin⟩ := setInLen_keepsInput n s
    exact ⟨hparams, fun _ => hin⟩
  | writeCmd w =>
    obtain ⟨hparams, hin⟩ := writeCmd_keepsInput h
    exact ⟨hparams, fun _ => hin⟩
  | read p =>
    obtain ⟨-, rfl⟩ := hostMove_read_eq_next.1 h
    exact ⟨rfl, fun _ => rfl⟩
  | hardReset =>
    cases h
    exact ⟨State.cleared_params s, fun _ => State.cleared_inMem s⟩
  | resetDuring w cut =>
    obtain ⟨u, -, rfl⟩ := resetDuring_eq_next h
    exact ⟨State.cleared_params _, fun _ => State.cleared_inMem _⟩

/-- Settles O54: the idle step changes nothing, and of the host's moves only a store into `IN` changes it. -/
theorem onlyTheHostWritesInput : Obligations.OnlyTheHostWritesInput := by
  unfold Obligations.OnlyTheHostWritesInput
  intro s t he
  obtain ⟨-, rfl⟩ | ⟨m, rest, hhost, hm⟩ := step_eq_next he
  · exact ⟨rfl, fun _ => rfl⟩
  · obtain ⟨hparams, hin⟩ := hostMove_keepsInput hm
    exact ⟨hparams, fun hstore => hin fun a v e => hstore a v rest (e ▸ hhost)⟩

end Sys2Proof.Machine

/-! ## Command words: the decoder and the encoder agree (R100 to R104) -/

namespace Sys2Proof

/-- Every command's word is legal and decodes to it: the per-command laws of `Laws/PerInstr.lean` as one. -/
theorem wordOfCommand (i : Instr) : Laws.WordOfCommand.Statement i := by
  cases i with
  | fscan => exact Laws.WordOfCommand.fscan
  | tbuild => exact Laws.WordOfCommand.tbuild
  | cderive => exact Laws.WordOfCommand.cderive
  | hpack => exact Laws.WordOfCommand.hpack
  | hunpack => exact Laws.WordOfCommand.hunpack
  | bpack => exact Laws.WordOfCommand.bpack
  | bunpack => exact Laws.WordOfCommand.bunpack
  | compress => exact Laws.WordOfCommand.compress
  | decompress => exact Laws.WordOfCommand.decompress
  | clear => exact Laws.WordOfCommand.clear

@[simp] theorem decode_encode (i : Instr) : decode (encode i) = .ok i := by
  obtain ⟨-, -, -, h⟩ := wordOfCommand i
  exact h

@[simp] theorem opField_encode (i : Instr) : opField (encode i) = i.op := by
  obtain ⟨-, -, h, -⟩ := wordOfCommand i
  exact h

theorem legalWord_iff (w : Byte) :
    legalWord w = true ↔ zeroField w = 0 ∧ 1 ≤ (opField w).toNat ∧ (opField w).toNat ≤ 10 := by
  simp [legalWord, and_assoc]

theorem legalWord_encode (i : Instr) : legalWord (encode i) = true := by
  obtain ⟨-, h, -⟩ := wordOfCommand i
  exact h

@[simp] theorem zeroField_encode (i : Instr) : zeroField (encode i) = 0 :=
  ((legalWord_iff _).1 (legalWord_encode i)).1

/-- The two fields are the whole word (R100). -/
theorem zeroField_append_opField (w : Byte) : zeroField w ++ opField w = w := by
  rw [zeroField, opField, BitVec.extractLsb'_append_extractLsb'_eq_extractLsb' (by decide)]
  exact BitVec.extractLsb'_eq_self

/-- The operation numbers are pairwise different, so `decodeOp` inverts `Instr.op`. -/
theorem decodeOp_eq_ok {op : BitVec 4} {i : Instr} : decodeOp op = .ok i ↔ i.op = op := by
  constructor
  · intro h
    unfold decodeOp at h
    split at h <;> cases h <;> exact BitVec.eq_of_toNat_eq (Eq.symm ‹_›)
  · rintro rfl
    cases i <;> rfl

/-- The assigned operation numbers are 1 to 10 (R101). -/
theorem exists_mem_all_op_eq : ∀ {op : BitVec 4}, 1 ≤ op.toNat → op.toNat ≤ 10 → ∃ i ∈ Instr.all, i.op = op := by
  decide

theorem decode_eq_ok {w : Byte} {i : Instr} : decode w = .ok i ↔ zeroField w = 0 ∧ i.op = opField w := by
  rw [← decodeOp_eq_ok, decode]
  by_cases hzero : zeroField w = 0
  · rw [if_pos hzero, and_iff_right hzero]
  · rw [if_neg hzero]
    exact iff_of_false nofun fun h => hzero h.1

/-- A word that decodes to `i` has the fields of `i`'s word, so it is `i`'s word (R104). -/
theorem decode_eq_ok_iff_encode {w : Byte} {i : Instr} : decode w = .ok i ↔ encode i = w := by
  constructor
  · intro h
    obtain ⟨hzero, hop⟩ := decode_eq_ok.1 h
    calc encode i
      _ = zeroField (encode i) ++ opField (encode i) := (zeroField_append_opField _).symm
      _ = zeroField w ++ opField w := by rw [zeroField_encode, opField_encode, hzero, hop]
      _ = w := zeroField_append_opField w
  · rintro rfl
    exact decode_encode i

/-- The decoder accepts exactly the legal words (R103). -/
theorem exists_decode_iff_legalWord {w : Byte} : (∃ i, decode w = .ok i) ↔ legalWord w = true := by
  constructor
  · rintro ⟨i, h⟩
    exact decode_eq_ok_iff_encode.1 h ▸ legalWord_encode i
  · intro h
    obtain ⟨hzero, hpos, hle⟩ := (legalWord_iff w).1 h
    obtain ⟨i, -, hop⟩ := exists_mem_all_op_eq hpos hle
    exact ⟨i, decode_eq_ok.2 ⟨hzero, hop⟩⟩

/-- Settles O1: each word of the table is `encode`'s of its command. -/
theorem tenWordsDecodeToTheTenCommands : Obligations.TenWordsDecodeToTheTenCommands := by
  unfold Obligations.TenWordsDecodeToTheTenCommands
  exact ⟨decode_encode .fscan, decode_encode .tbuild, decode_encode .cderive, decode_encode .hpack,
    decode_encode .hunpack, decode_encode .bpack, decode_encode .bunpack, decode_encode .compress,
    decode_encode .decompress, decode_encode .clear⟩

/-- Settles O2: the legal words are those that decode, and a word decodes to `i` when it has `i`'s fields. -/
theorem legalWordsAreExactlyTheTen : Obligations.LegalWordsAreExactlyTheTen := by
  unfold Obligations.LegalWordsAreExactlyTheTen
  exact fun w => ⟨exists_decode_iff_legalWord.trans (legalWord_iff w), fun _ => decode_eq_ok_iff_encode⟩

end Sys2Proof

/-! ## FSCAN: the counts, the alphabet and the fault of a read error (R141 to R148) -/

namespace Sys2Proof.Machine

variable {s t : State}

/-! ### The counts of a list of bytes -/

/-- `FREQ` and `ALPHA` after the bytes of `l` were counted (R143, R144). -/
structure Counted (l : List Byte) (t : State) : Prop where
  freq  : ∀ b, (t.freq.get b).toNat = l.count b
  alpha : t.alpha.toNat = l.toFinset.card

theorem Counted.setInPtr {l : List Byte} (h : Counted l t) (p : Addr) : Counted l { t with inPtr := p } :=
  ⟨h.freq, h.alpha⟩

theorem Counted.freq_eq_zero_iff {l : List Byte} (h : Counted l t) (b : Byte) : t.freq.get b = 0 ↔ b ∉ l := by
  rw [← List.count_eq_zero, ← h.freq, ← BitVec.toNat_inj]
  rfl

/-- There are 256 byte values (R7), so `ALPHA` does not wrap. -/
theorem card_bytes_le (l : List Byte) : l.toFinset.card ≤ 256 := by
  have h := Finset.card_le_card (t := allBytes.toFinset) (s := l.toFinset) fun b _ =>
    List.mem_toFinset.2 (mem_allBytes b)
  rwa [List.toFinset_card_of_nodup allBytes_nodup, allBytes_length] at h

theorem toNat_add_one {w : Nat} {x : BitVec w} (h : x.toNat + 1 < 2 ^ w) : (x + 1).toNat = x.toNat + 1 := by
  rw [BitVec.toNat_add, BitVec.ofNat_eq_ofNat, BitVec.toNat_ofNat, Nat.add_mod_mod, Nat.mod_eq_of_lt h]

/-- A byte counted is one byte more; a list below 2^64 bytes overflows no entry (R143). -/
theorem Counted.countByte {l : List Byte} (h : Counted l t) (v : Byte) (hl : l.length + 1 < 2 ^ 64) :
    Counted (l ++ [v]) (t.countByte v) where
  freq b := by
    have hv : (t.freq.get v + 1).toNat = l.count v + 1 := by
      have hle : l.count v ≤ l.length := List.count_le_length
      rw [toNat_add_one (by rw [h.freq]; omega), h.freq]
    rw [State.countByte_freq, Table.get_set, List.count_append]
    split
    · next e => subst e; rw [hv, List.count_singleton_self]
    · next e => rw [h.freq, List.count_singleton, if_neg (by simpa using e), Nat.add_zero]
  alpha := by
    have hset : (l ++ [v]).toFinset = insert v l.toFinset := by ext b; simp
    rw [State.countByte_alpha, hset]
    split
    · next hz =>
      have hnew : v ∉ l.toFinset := fun hv => (h.freq_eq_zero_iff v).1 hz (List.mem_toFinset.1 hv)
      have hle := card_bytes_le l
      rw [Finset.card_insert_of_notMem hnew, toNat_add_one (by rw [h.alpha]; omega), h.alpha]
    · next hz =>
      have hold : v ∈ l := not_not.1 fun hv => hz ((h.freq_eq_zero_iff v).2 hv)
      rw [Finset.insert_eq_of_mem (List.mem_toFinset.2 hold), h.alpha]

/-- Every byte of a list is counted at exactly one byte value. -/
theorem sum_count_allBytes (l : List Byte) : (allBytes.map fun b => l.count b).sum = l.length := by
  have h := Multiset.sum_count_eq_card (s := allBytes.toFinset) (m := ↑l) fun b _ =>
    List.mem_toFinset.2 (mem_allBytes b)
  rw [List.sum_toFinset _ allBytes_nodup] at h
  simpa only [Multiset.coe_count, Multiset.coe_card] using h

theorem Counted.alpha_eq_length {l : List Byte} (h : Counted l t) :
    t.alpha.toNat = (allBytes.filter fun b => t.freq.get b ≠ 0).length := by
  rw [h.alpha, ← List.toFinset_card_of_nodup (allBytes_nodup.filter _)]
  congr 1
  ext b
  simp only [List.mem_toFinset, List.mem_filter, mem_allBytes, true_and, decide_eq_true_eq, ne_eq,
    h.freq_eq_zero_iff, not_not]

theorem Counted.alpha_eq_zero_iff {l : List Byte} (h : Counted l t) : t.alpha = 0 ↔ l = [] := by
  rw [← BitVec.toNat_inj, h.alpha]
  exact Finset.card_eq_zero.trans (List.toFinset_eq_empty_iff l)

/-! ### The scan -/

theorem scanByte_of_lt {a : Addr} (h : a < s.inLen) (hr : s.params.readFails a = false) :
    scanByte a s = .ok () (({ s with inPtr := a + 1 } : State).countByte (s.inAt a.toNat)) := by
  rw [scanByte, inByte_of_lt h hr, Run.ok_andThen]

theorem scanByte_of_readFails {a : Addr} (h : a < s.inLen) (hr : s.params.readFails a = true) :
    scanByte a s = raise .inputFault a s := by
  rw [scanByte, inByte_of_readFails h hr, raise_andThen]

/-- The scan leaves what it reads by: the input, its read errors, the unit (R141). -/
theorem ScannedFrom.keeps (h : ScannedFrom s t) :
    t.inLen = s.inLen ∧ t.inAt = s.inAt ∧ t.params = s.params ∧ t.phase = s.phase := by
  obtain ⟨f, n, p, rfl⟩ := h
  exact ⟨rfl, rfl, rfl, rfl⟩

theorem ScannedFrom.countByte (h : ScannedFrom s t) (v : Byte) (p : Addr) :
    ScannedFrom s (({ t with inPtr := p } : State).countByte v) := by
  obtain ⟨f, n, q, rfl⟩ := h
  exact ⟨_, _, _, rfl⟩

/-- The scan from `s` with `k` bytes read. -/
structure Scanned (s : State) (k : Nat) (t : State) : Prop where
  frame   : ScannedFrom s t
  inPtr   : t.inPtr = BitVec.ofNat 64 k
  counted : Counted ((List.range k).map s.inAt) t

theorem ofNat_lt_inLen {k : Nat} (h : k < s.inLen.toNat) :
    (BitVec.ofNat 64 k).toNat = k ∧ BitVec.ofNat 64 k < s.inLen := by
  have hk : (BitVec.ofNat 64 k).toNat = k := Nat.mod_eq_of_lt (h.trans s.inLen.isLt)
  exact ⟨hk, BitVec.lt_def.2 (hk.symm ▸ h)⟩

/-- A readable byte of the input extends the scan. -/
theorem Scanned.scanByte {k : Nat} (h : Scanned s k t) (hk : k < s.inLen.toNat)
    (hr : s.params.readFails (BitVec.ofNat 64 k) = false) :
    (scanByte (BitVec.ofNat 64 k) t).Meets (fun _ u => Scanned s (k + 1) u) fun _ => False := by
  obtain ⟨hlen, hin, hparams, -⟩ := h.frame.keeps
  obtain ⟨haddr, hlt⟩ := ofNat_lt_inLen hk
  have hbytes : ((List.range k).map s.inAt).length + 1 < 2 ^ 64 := by
    have := s.inLen.isLt
    rw [List.length_map, List.length_range]
    omega
  rw [scanByte_of_lt (hlen ▸ hlt) (hparams ▸ hr), haddr, hin]
  refine ⟨h.frame.countByte _ _, (BitVec.ofNat_add k 1).symm, ?_⟩
  rw [List.range_succ, List.map_append]
  exact (h.counted.setInPtr _).countByte (s.inAt k) hbytes

theorem scanStart_scanned (s : State) : Scanned s.scanStart 0 s.scanStart where
  frame := ⟨_, _, _, rfl⟩
  inPtr := rfl
  counted := ⟨fun b => congrArg BitVec.toNat (Table.get_const 0 b), rfl⟩

/-- What FSCAN leaves of a readable input (R143, R144). -/
structure InputScanned (s t : State) : Prop where
  status  : t.status = s.status
  valid   : t.valid = { Valid.allClear with freq := true }
  inPtr   : t.inPtr = s.inLen
  counted : Counted s.input t

theorem fscanUnit_of_readable (hr : s.inputReadable) :
    (fscanUnit s).Meets (fun _ t => InputScanned s t) fun _ => False := by
  have hloop := forAddr_meets (I := Scanned (s.startUnit .freqScanner).scanStart) (R := fun _ => False)
    (body := scanByte) s.inLen.toNat 0
    (fun k hk t ht => by
      rw [zero_add]
      exact ht.scanByte hk (hr _ (ofNat_lt_inLen hk).2))
    (scanStart_scanned _)
  refine Run.Meets.andThen hloop fun _ t ht => ?_
  obtain ⟨⟨f, n, p, rfl⟩, hp, hc⟩ := ht
  exact ⟨rfl, rfl, hp.trans (BitVec.ofNat_toNat ..), hc.freq, hc.alpha⟩

/-- FSCAN of a readable input ends without a fault. -/
theorem exec_fscan_of_readable (ha : s.accepting) (hr : s.inputReadable) :
    ∃ t, exec .fscan s = .next t ∧ InputScanned s t := by
  have hrun := fscanUnit_of_readable (s := { s with busy := true }) hr
  obtain ⟨t, ht, ⟨u, hu, rfl⟩ | hf⟩ := hrun.finish
  · exact ⟨_, (accept_run fscanUnit ha.1 ha.2).trans ht, hu.status, hu.valid, hu.inPtr, hu.counted.freq,
      hu.counted.alpha⟩
  · exact hf.elim

theorem length_input (s : State) : s.input.length = s.inLen.toNat := by
  rw [State.input, List.length_map, List.length_range]

theorem input_eq_nil_iff : s.input = [] ↔ s.inLen = 0 := by
  rw [← List.length_eq_zero_iff, length_input, ← BitVec.toNat_inj]
  rfl

/-- Settles O16: the counts are those of the list of input bytes, and each input byte has one value. -/
theorem fscanCountsEveryByte : Obligations.FscanCountsEveryByte := by
  unfold Obligations.FscanCountsEveryByte
  intro s ha hr
  obtain ⟨t, ht, h⟩ := exec_fscan_of_readable ha hr
  refine ⟨t, ht, h.status.trans ha.2, h.valid, h.inPtr, h.counted.freq, ?_⟩
  rw [funext h.counted.freq, sum_count_allBytes, length_input]

/-- Settles O17: `ALPHA` is the number of different bytes in the input. -/
theorem fscanMeasuresTheAlphabet : Obligations.FscanMeasuresTheAlphabet := by
  unfold Obligations.FscanMeasuresTheAlphabet
  intro s ha hr
  obtain ⟨t, ht, h⟩ := exec_fscan_of_readable ha hr
  refine ⟨t, ht, h.counted.alpha_eq_length, h.counted.alpha_eq_zero_iff.trans input_eq_nil_iff, ?_⟩
  rw [h.counted.alpha, ← length_input]
  exact le_min (List.toFinset_card_le _) (card_bytes_le _)

/-- The fault a read error at `a` raises in the scan (R145). -/
def ScanFails (a : Addr) (t : State) : Prop := ∃ u : State, u.phase = .freqScanner ∧ t = u.enterFault .inputFault a

/-- The scan reads every address below the lowest failing one and faults there (R145, R148). -/
theorem fscanUnit_of_readFails {a : Addr} (ha : a < s.inLen) (hf : s.params.readFails a = true)
    (hlow : ∀ b, b < a → s.params.readFails b = false) :
    (fscanUnit s).Meets (fun _ _ => False) (ScanFails a) := by
  have hloop := forAddr_meets (body := scanByte) s.inLen.toNat 0
    (I := fun k t => k ≤ a.toNat ∧ Scanned (s.startUnit .freqScanner).scanStart k t)
    (R := ScanFails a)
    (fun k hk t ⟨hka, ht⟩ => by
      rw [zero_add]
      rcases Nat.lt_or_eq_of_le hka with hlt | rfl
      · have hr := hlow (BitVec.ofNat 64 k) (BitVec.lt_def.2 ((ofNat_lt_inLen hk).1.symm ▸ hlt))
        exact (ht.scanByte hk hr).mono (fun _ _ hu => ⟨hlt, hu⟩) fun _ => False.elim
      · obtain ⟨hlen, -, hparams, hphase⟩ := ht.frame.keeps
        rw [BitVec.ofNat_toNat, BitVec.setWidth_eq, scanByte_of_readFails (hlen ▸ ha) (hparams ▸ hf)]
        exact ⟨t, hphase, rfl⟩)
    ⟨Nat.zero_le _, scanStart_scanned _⟩
  exact Run.Meets.andThen hloop fun _ t ⟨hle, _⟩ => Nat.not_le.2 (BitVec.lt_def.1 ha) hle

/-- Settles O18: the only way the scan ends is the fault entry at the lowest failing address. -/
theorem fscanReportsTheLowestFailingAddress : Obligations.FscanReportsTheLowestFailingAddress := by
  unfold Obligations.FscanReportsTheLowestFailingAddress
  intro s a hacc ha hf hlow
  have hrun := fscanUnit_of_readFails (s := { s with busy := true }) ha hf hlow
  obtain ⟨t, ht, ⟨_, h, -⟩ | ⟨u, hphase, rfl⟩⟩ := hrun.finish
  · exact h.elim
  · exact ⟨_, (accept_run fscanUnit hacc.1 hacc.2).trans ht, rfl, rfl, hphase, rfl, rfl, rfl⟩

end Sys2Proof.Machine

/-! ## The frames of the commands that leave both memories (R141, R161, R191, R231) -/

namespace Sys2Proof.Machine

variable {s t : State}

/-- A command that ends with the `STATUS` it found was ignored (R301) or its unit ran to the end (R300). -/
theorem accept_unfaulted {unit : State → Run Unit} {Q : State → Prop}
    (hu : (unit { s with busy := true }).Ends (fun _ u => Q u) (FaultFrom { s with busy := true }))
    (hst : t.status = s.status) (h : accept unit s = .next t) :
    t = s ∨ ∃ u, Q u ∧ t = { u with busy := s.busy } := by
  rcases accept_cases unit s with ⟨-, ha⟩ | ⟨-, -, ha⟩ | ⟨hb, hs, ha⟩ <;> rw [ha] at h
  · cases h
  · cases h
    exact .inl rfl
  · cases hr : unit { s with busy := true } <;> rw [hr] at h hu <;> cases h
    · exact .inr ⟨_, hu, by rw [hb]⟩
    · exact absurd (hst.trans hs) hu.status

/-- Settles O58: each unit's frame, with `BUSY` back at its value before the command. -/
theorem frameOfTheUnitsThatStoreNothing : Obligations.FrameOfTheUnitsThatStoreNothing := by
  unfold Obligations.FrameOfTheUnitsThatStoreNothing
  intro s t hst
  refine ⟨fun h => ?fscan, fun h => ?tbuild, fun h => ?cderive, fun h => ?hunpack⟩
  case fscan =>
    obtain rfl | ⟨_, ⟨-, f, n, p, rfl⟩, rfl⟩ := accept_unfaulted (fscanUnit_meets _).ends hst h
    · rfl
    · rfl
  case tbuild =>
    obtain rfl | ⟨_, ⟨-, -, -, nodes, n, l, m, r, rfl⟩, rfl⟩ := accept_unfaulted (tbuildUnit_meets _).ends hst h
    · exact ⟨rfl, rfl⟩
    · exact ⟨rfl, rfl⟩
  case cderive =>
    obtain rfl | ⟨_, ⟨-, -, c, n, rfl⟩, rfl⟩ := accept_unfaulted (cderiveUnit_ends _) hst h
    · rfl
    · rfl
  case hunpack =>
    obtain rfl | ⟨_, ⟨-, -, nodes, n, p, c, r, a, pad, l, rfl⟩, rfl⟩ :=
      accept_unfaulted (hunpackUnit_meets _).ends hst h
    · rfl
    · rfl

end Sys2Proof.Machine

/-! ## TBUILD: the sorted insertion, the merge passes, and where the nodes stand (R161 to R171) -/

namespace Sys2Proof.Machine

variable {s : State}

section Insertion

variable (w : NodeIx → Count) (i : NodeIx)

theorem placeFromTail_eq (l : List NodeIx) : placeFromTail w i l =
    l.takeWhile (fun x => w x < w i) ++ i :: l.dropWhile (fun x => w x < w i) := by
  induction l with
  | nil => rfl
  | cons x xs ih =>
    by_cases hx : w x < w i
    · simp [placeFromTail, hx, ih]
    · simp [placeFromTail, hx]

/-- The insertion passes the longest tail of strictly smaller weights (R163, R167). -/
theorem insertSorted_eq (l : List NodeIx) : insertSorted w i l =
    l.rdropWhile (fun x => w x < w i) ++ i :: l.rtakeWhile (fun x => w x < w i) := by
  rw [insertSorted, placeFromTail_eq, List.reverse_append, List.reverse_cons, List.append_assoc]
  rfl

/-- The list is split at the first element, seen from the tail, whose weight is not strictly less. -/
theorem exists_insertSorted_split (l : List NodeIx) :
    ∃ front back, l = front ++ back ∧ insertSorted w i l = front ++ i :: back ∧
      (∀ x ∈ back, w x < w i) ∧ ∀ x, front.getLast? = some x → w i ≤ w x := by
  refine ⟨_, _, List.rdropWhile_append_rtakeWhile.symm, insertSorted_eq w i l, fun x hx => ?_, fun x hx => ?_⟩
  · simpa using List.mem_rtakeWhile_imp hx
  · obtain ⟨hne, rfl⟩ := List.mem_getLast?_eq_getLast hx
    simpa using List.rdropWhile_last_not _ l hne

/-- In a sorted list the element before the new one bounds all weights in front of it. -/
theorem insertSorted_sorted {l : List NodeIx} (h : l.Pairwise fun x y => w y ≤ w x) :
    (insertSorted w i l).Pairwise fun x y => w y ≤ w x := by
  obtain ⟨front, back, rfl, heq, hback, hlast⟩ := exists_insertSorted_split w i l
  obtain ⟨hf, hb, hfb⟩ := List.pairwise_append.1 h
  have hfront : ∀ x ∈ front, w i ≤ w x := by
    rcases List.eq_nil_or_concat' front with rfl | ⟨init, z, rfl⟩
    · simp
    · have hz : w i ≤ w z := hlast z List.getLast?_concat
      intro x hx
      rcases List.mem_append.1 hx with hx | hx
      · exact BitVec.le_trans hz ((List.pairwise_append.1 hf).2.2 x hx z (List.mem_singleton_self z))
      · rwa [List.mem_singleton.1 hx]
  rw [heq]
  have hafter : (i :: back).Pairwise fun x y => w y ≤ w x :=
    List.pairwise_cons.2 ⟨fun y hy => BitVec.le_of_lt (hback y hy), hb⟩
  refine List.pairwise_append.2 ⟨hf, hafter, fun x hx y hy => ?_⟩
  rcases List.mem_cons.1 hy with rfl | hy
  · exact hfront x hx
  · exact hfb x hx y hy

end Insertion

/-- Settles O23: the insertion stops at the longest tail of strictly smaller weights. -/
theorem insertionStopsBehindEqualWeights : Obligations.InsertionStopsBehindEqualWeights := by
  unfold Obligations.InsertionStopsBehindEqualWeights
  exact fun w i l => ⟨exists_insertSorted_split w i l, insertSorted_sorted w i⟩

/-- Settles O24: the pass is `mergeTwo` on the last two elements, and the insertion permutes. -/
theorem mergePassTakesTheLastTwo : Obligations.MergePassTakesTheLastTwo := by
  unfold Obligations.MergePassTakesTheLastTwo
  intro s n rest a b hl
  have hrev : s.list.reverse = a :: b :: rest.reverse := by simp [hl]
  have hperm : (mergeTwo a b rest.reverse.reverse s).list.Perm (s.nodeCount :: rest) := by
    rw [List.reverse_reverse]
    exact insertSorted_perm _ _ _
  exact ⟨_, mergeAll_succ hrev, rfl, rfl, hperm.length_eq, hperm⟩

/-! ### The state TBUILD leaves -/

/-- A byte value without a count adds no leaf (R162). -/
theorem foldl_addLeaf_filter (es : List (Byte × Count)) (s : State) :
    es.foldl addLeaf s = (es.filter fun e => e.2 ≠ 0).foldl addLeaf s := by
  rw [List.foldl_filter]
  congr 1
  funext u e
  by_cases he : e.2 = 0
  · simp [addLeaf, he]
  · rw [if_pos (by simpa using he)]

/-- The leaves of the counted byte values are in place, before the first merge (R162, R163). -/
def State.placeLeaves (s : State) : State := (counted s.freq).foldl addLeaf (s.startUnit .treeBuilder).treeStart

/-- The state the command `TBUILD` leaves of a scanned input: the leaves are joined (R164). -/
def State.afterTbuild (s : State) : State :=
  let u := joinLeaves { s with busy := true }.placeLeaves
  { u.endUnit { u.valid with tree := true } with busy := false }

theorem tbuildUnit_eq (hv : s.valid.freq = true) : tbuildUnit s =
    .ok () ((joinLeaves s.placeLeaves).endUnit { (joinLeaves s.placeLeaves).valid with tree := true }) := by
  rw [tbuildUnit, hv, require_met, State.startUnit_freq, foldl_addLeaf_filter]
  rfl

/-- With `V_FREQ` set `TBUILD` raises no fault (R161). -/
theorem exec_tbuild (ha : s.accepting) (hv : s.valid.freq = true) : exec .tbuild s = .next s.afterTbuild :=
  (accept_run tbuildUnit ha.1 ha.2).trans (congrArg Run.finish (tbuildUnit_eq (s := { s with busy := true }) hv))

theorem Valid.atTbuild_of_freq {v : Valid} (hv : v.freq = true) :
    { v.atTbuild with tree := true } = { Valid.allClear with freq := true, tree := true } := by
  rw [Valid.atTbuild, hv]

/-- The tree and the frame of `tbuildUnit_meets`, of the state that the command leaves. -/
theorem State.afterTbuild_built (hv : s.valid.freq = true) : Built (counted s.freq) s.afterTbuild ∧
    ∃ nodes n l m r, s.afterTbuild = { s with
      node := nodes, nodeCount := n, list := l, listLen := m, root := r
      valid := { Valid.allClear with freq := true, tree := true }, phase := .idle, busy := false } := by
  have h := tbuildUnit_meets { s with busy := true }
  rw [tbuildUnit_eq (s := { s with busy := true }) hv] at h
  obtain ⟨-, -, ⟨hcount, hbelow, hroot, hsize, hlist, hlen, T, hT, hshape⟩, nodes, n, l, m, r, hframe⟩ := h
  refine ⟨⟨hcount, hbelow, hroot, hsize, hlist, hlen, T, hT.congr (by rfl), hshape⟩, nodes, n, l, m, r, ?_⟩
  rw [← Valid.atTbuild_of_freq hv]
  exact congrArg (fun u : State => { u with busy := false }) hframe

/-- Settles O22: the tree is the one of `Built`, over the counts the command found. -/
theorem tbuildBuildsAWeightedTree : Obligations.TbuildBuildsAWeightedTree := by
  unfold Obligations.TbuildBuildsAWeightedTree
  intro s ha hv
  obtain ⟨hb, nodes, n, l, m, r, ht⟩ := State.afterTbuild_built hv
  have hfreq : s.afterTbuild.freq = s.freq := by rw [ht]
  obtain ⟨T, hT⟩ := Built.treeOf (s := s.afterTbuild) (by rwa [hfreq])
  exact ⟨_, T, exec_tbuild ha hv, by rw [ht]; exact ha.2, hfreq, by rw [ht], hT⟩

/-! ### No byte value, and one -/

/-- No leaf is placed, so nothing is joined (R171). -/
theorem joinLeaves_placeLeaves_of_none (h : counted s.freq = []) :
    joinLeaves s.placeLeaves = (s.startUnit .treeBuilder).treeStart := by
  rw [State.placeLeaves, h]
  exact joinLeaves_of_nil rfl

/-- Settles O19: the arena is the empty one TBUILD starts with. -/
theorem tbuildOfTheEmptyAlphabet : Obligations.TbuildOfTheEmptyAlphabet := by
  unfold Obligations.TbuildOfTheEmptyAlphabet
  intro s ha hv h0
  have hcounted : counted s.freq = [] := by simp [counted_eq_map, h0]
  have hrun := exec_tbuild ha hv
  rw [State.afterTbuild, joinLeaves_placeLeaves_of_none (s := { s with busy := true }) hcounted] at hrun
  exact ⟨_, hrun, ha.2, rfl, rfl, rfl, rfl, rfl⟩

theorem counted_of_single {freq : Table Count} {b : Byte} (hb : freq.get b ≠ 0)
    (hc : ∀ c, c ≠ b → freq.get c = 0) : counted freq = [(b, freq.get b)] := by
  have hfilter : (allBytes.filter fun c => freq.get c ≠ 0) = allBytes.filter (· == b) := by
    refine List.filter_congr fun c _ => ?_
    by_cases h : c = b
    · simpa [h] using hb
    · simp [h, hc c h]
  rw [counted_eq_map, hfilter, List.filter_beq, List.count_eq_one_of_mem allBytes_nodup (mem_allBytes b)]
  rfl

/-- The leaf of a counted byte value (R162). -/
def Node.leafOf (e : Byte × Count) : Node :=
  { kind := .leaf, left := none, right := none, sym := e.1, weight := e.2 }

/-- One leaf and its parent (R168). -/
theorem joinLeaves_placeLeaves_of_single {b : Byte} {w : Count} (h : counted s.freq = [(b, w)]) (hw : w ≠ 0) :
    joinLeaves s.placeLeaves = { (s.startUnit .treeBuilder).treeStart with
      node := [.leafOf (b, w), { kind := .internal, left := some 0, right := none, sym := 0, weight := w }]
      nodeCount := 2, list := [1], listLen := 1, root := some 1 } := by
  have hleaf : s.placeLeaves = { (s.startUnit .treeBuilder).treeStart with
      node := [.leafOf (b, w)], nodeCount := 1, list := [0], listLen := 1 } := by
    rw [State.placeLeaves, h]
    exact if_neg hw
  rw [hleaf, joinLeaves_of_single rfl]
  rfl

/-- CDERIVE of a tree gives the tree's code table (R193 to R195). -/
theorem exec_cderive_of_treeOf {T : HTree} (ha : s.accepting) (hv : s.valid.tree = true) (hT : TreeOf s T) :
    ∃ u, exec .cderive s = .next u ∧ CodeTableOf u T := by
  obtain ⟨u, hu, -, htable⟩ := cderiveUnit_eq (s := { s with busy := true }) hv (hT.congr rfl rfl rfl rfl)
  exact ⟨_, (accept_run cderiveUnit ha.1 ha.2).trans (congrArg Run.finish hu), htable.congr rfl rfl rfl rfl⟩

/-- Settles O20: the leaf at 0, its parent at 1; the tree they stand for has the one path "0". -/
theorem tbuildOfOneSymbol : Obligations.TbuildOfOneSymbol := by
  unfold Obligations.TbuildOfOneSymbol
  intro s b ha hv hb hc
  have hcounted := counted_of_single hb hc
  have hrun := exec_tbuild ha hv
  rw [State.afterTbuild, joinLeaves_placeLeaves_of_single (s := { s with busy := true }) hcounted hb] at hrun
  refine ⟨_, hrun, ha.2, rfl, rfl, rfl, rfl, rfl, rfl, ?_⟩
  refine (exec_cderive_of_treeOf (T := .fork (s.freq.get b) (.leaf b (s.freq.get b)) .null) ?_ ?_ ?_).imp
    fun u ⟨hu, htable⟩ => ⟨hu, (htable.codes b [false] (List.cons_ne_nil _ _)).2 rfl⟩
  · exact ⟨rfl, ha.2⟩
  · rfl
  · exact ⟨⟨1, some 0, none, rfl, rfl, ⟨0, rfl, rfl⟩, rfl⟩, Nat.le_refl 2, rfl,
      by simp [HTree.weighted, HTree.weight], .of_eq hcounted.symm⟩

/-! ### Two byte values or more -/

/-- A node that a merge pass allocates: internal, with two children (R165, R166). -/
def Node.IsMerge (n : Node) : Prop :=
  ∃ l r w, n = { kind := .internal, left := some l, right := some r, sym := 0, weight := w }

/-- Step 1 allocates the leaves in the order of the byte values and lists each (R162). -/
theorem foldl_addLeaf_adds (es : List (Byte × Count)) (hes : ∀ e ∈ es, e.2 ≠ 0) (s : State) :
    (es.foldl addLeaf s).node = s.node ++ es.map Node.leafOf ∧
      (es.foldl addLeaf s).list.length = s.list.length + es.length := by
  induction es generalizing s with
  | nil => exact ⟨(List.append_nil _).symm, rfl⟩
  | cons e es ih =>
    have hadd : (addLeaf s e).node = s.node ++ [.leafOf e] ∧ (addLeaf s e).list.length = s.list.length + 1 := by
      rw [addLeaf, if_neg (hes e List.mem_cons_self)]
      exact ⟨rfl, (insertSorted_perm _ _ _).length_eq⟩
    obtain ⟨hnode, hlist⟩ := ih (fun x hx => hes x (List.mem_cons_of_mem _ hx)) (addLeaf s e)
    rw [List.foldl_cons, hnode, hlist, hadd.1, hadd.2, List.append_assoc, List.length_cons]
    exact ⟨rfl, by omega⟩

/-- The merge loop allocates one node fewer than it finds roots; the last one allocated is the root left (R165). -/
theorem mergeAll_adds (n : Nat) {s : State} (h2 : 2 ≤ s.list.length) (hn : s.list.length ≤ n + 1) :
    ∃ merges : List Node, (mergeAll n s).node = s.node ++ merges ∧ merges.length + 1 = s.list.length ∧
      (∀ m ∈ merges, m.IsMerge) ∧ (mergeAll n s).list = [(mergeAll n s).nodeCount - 1] := by
  induction n generalizing s with
  | zero => omega
  | succ n ih =>
    obtain ⟨a, b, rest, hl⟩ := exists_cons_cons (h2.trans_eq List.length_reverse.symm)
    have hlen : s.list.length = rest.length + 2 := by rw [← List.length_reverse, hl]; rfl
    have hlen' : (mergeTwo a b rest.reverse s).list.length = rest.length + 1 :=
      ((insertSorted_perm _ _ _).length_eq).trans (by simp)
    obtain ⟨m, hm, hnode⟩ : ∃ m : Node, m.IsMerge ∧ (mergeTwo a b rest.reverse s).node = s.node ++ [m] :=
      ⟨_, ⟨a, b, _, rfl⟩, rfl⟩
    rw [mergeAll_succ hl]
    cases rest with
    | nil =>
      have hone : (mergeTwo a b [].reverse s).list = [s.nodeCount] := rfl
      rw [mergeAll_singleton n hone]
      exact ⟨[m], hnode, hlen.symm, by simpa using hm, hone.trans (by simp [mergeTwo])⟩
    | cons c rest =>
      simp only [List.length_cons] at hlen hlen'
      obtain ⟨merges, hnodes, hcount, hmerges, hlast⟩ := ih (by rw [hlen']; omega) (by rw [hlen']; omega)
      refine ⟨m :: merges, by rw [hnodes, hnode, List.append_assoc]; rfl, ?_, ?_, hlast⟩
      · rw [List.length_cons, hcount, hlen', hlen]
      · exact List.forall_mem_cons.2 ⟨hm, hmerges⟩

/-- The arena of two leaves or more: the leaves, then the merges; the last merge is the root (R162, R165). -/
theorem joinLeaves_placeLeaves_of_many (h2 : 2 ≤ (counted s.freq).length) : ∃ merges : List Node,
    (joinLeaves s.placeLeaves).node = (counted s.freq).map Node.leafOf ++ merges ∧
    merges.length + 1 = (counted s.freq).length ∧ (∀ m ∈ merges, m.IsMerge) ∧
    (joinLeaves s.placeLeaves).list = [(joinLeaves s.placeLeaves).nodeCount - 1] ∧
    (joinLeaves s.placeLeaves).root = some ((joinLeaves s.placeLeaves).nodeCount - 1) := by
  obtain ⟨hnode, hlist⟩ := foldl_addLeaf_adds (counted s.freq)
    (fun e he => by simpa using (List.mem_filter.1 he).2) (s.startUnit .treeBuilder).treeStart
  have hlist : s.placeLeaves.list.length = (counted s.freq).length := hlist.trans (Nat.zero_add _)
  obtain ⟨merges, hnodes, hcount, hmerges, hlast⟩ := mergeAll_adds _ (h2.trans_eq hlist.symm) (Nat.le_succ _)
  rw [joinLeaves_of_many (h2.trans_eq hlist.symm)]
  exact ⟨merges, hnodes.trans (congrArg (· ++ merges) hnode), hcount.trans hlist, hmerges, hlast,
    by rw [hlast]; rfl⟩

/-- Settles O21: the arena's layout with the links of `Built`. -/
theorem tbuildAllocatesLeavesThenMerges : Obligations.TbuildAllocatesLeavesThenMerges := by
  unfold Obligations.TbuildAllocatesLeavesThenMerges
  intro s ha hv k h2
  obtain ⟨hb, nodes, n, l, m, r, ht⟩ := State.afterTbuild_built hv
  obtain ⟨merges, hnode, hcount, hmerges, hlist, hroot⟩ :=
    joinLeaves_placeLeaves_of_many (s := { s with busy := true }) h2
  have hnode : s.afterTbuild.node = (counted s.freq).map Node.leafOf ++ merges := hnode
  have hlength : s.afterTbuild.node.length = 2 * k - 1 := by
    have hcount : merges.length + 1 = k := hcount
    rw [hnode, List.length_append, List.length_map]
    omega
  have hlast : s.afterTbuild.nodeCount - 1 = BitVec.ofNat 17 (2 * k - 2) := by
    have hk : k ≤ 256 := counted_length_le s.freq
    have := hb.count
    bv_omega
  have hlist : s.afterTbuild.list = [BitVec.ofNat 17 (2 * k - 2)] := by
    rw [← hlast]
    exact hlist
  refine ⟨_, exec_tbuild ha hv, by rw [ht]; exact ha.2, by rw [ht], hb.count.symm.trans hlength, hlength,
    hroot.trans (congrArg some hlast), hlist, by rw [hb.len, hlist]; rfl, fun j b w hj => ?leaf,
    fun j hk hj => ?merge⟩
  case leaf =>
    rw [hnode, List.getElem?_append_left, List.getElem?_map, hj]
    · rfl
    · rw [List.length_map]
      exact (List.getElem?_eq_some_iff.1 hj).1
  case merge =>
    obtain ⟨m, hm⟩ : ∃ m, s.afterTbuild.node[j]? = some m := ⟨_, List.getElem?_eq_getElem (hlength ▸ hj)⟩
    have hmem : m ∈ merges := by
      have hright := List.getElem?_append_right (l₂ := merges) ((List.length_map Node.leafOf).trans_le hk)
      rw [hnode, hright] at hm
      exact List.mem_of_getElem? hm
    obtain ⟨l, r, w, rfl⟩ := hmerges m hmem
    obtain ⟨hl, hr⟩ := hb.below j _ hm
    exact ⟨l, r, w, hm, Link.below_some.1 hl, Link.below_some.1 hr⟩

end Sys2Proof.Machine

/-! ## CDERIVE: the command on a tree, and which byte values have a code (R191 to R196) -/

namespace Sys2Proof.Machine

variable {s : State} {T : HTree} {b : Byte}

/-- On a tree the command runs to its end: it keeps the tree, adds the tree's code table, and has CDERIVE's frame. -/
theorem exec_cderive_frame (ha : s.accepting) (hv : s.valid.tree = true) (hT : TreeOf s T) :
    ∃ t, exec .cderive s = .next t ∧ TreeOf t T ∧ CodeTableOf t T ∧ ∃ c n, t = { s with
      code := c, totalBits := n, padding := paddingOf n, valid := { s.valid.atCderive with code := true }
      phase := .idle, busy := false } := by
  obtain ⟨u, hu, hTu, htable⟩ := cderiveUnit_eq (s := { s with busy := true }) hv (hT.congr rfl rfl rfl rfl)
  have hends := cderiveUnit_ends { s with busy := true }
  rw [hu] at hends
  obtain ⟨-, -, c, n, hframe⟩ := hends
  exact ⟨_, (accept_run cderiveUnit ha.1 ha.2).trans (congrArg Run.finish hu), hTu.congr rfl rfl rfl rfl,
    htable.congr rfl rfl rfl rfl, c, n, congrArg (fun u : State => { u with busy := false }) hframe⟩

/-- Settles O25: the code table of the tree, and CDERIVE's frame for the rest. -/
theorem cderiveGivesEveryLeafItsPath : Obligations.CderiveGivesEveryLeafItsPath := by
  unfold Obligations.CderiveGivesEveryLeafItsPath
  intro s T ha hv hT
  obtain ⟨_, hrun, -, htable, c, n, rfl⟩ := exec_cderive_frame ha hv hT
  exact ⟨_, hrun, ha.2, rfl, rfl, htable⟩

theorem HTree.exists_leafAt_iff : (∃ p, T.leafAt p = some b) ↔ b ∈ T.leaves.map Prod.fst := by
  have hcodes (p : Code) : (∃ w, (b, p, w) ∈ T.codesFrom []) ↔ T.leafAt p = some b := by
    rw [HTree.mem_codesFrom]
    simp
  simp [← HTree.codesFrom_map_leaf T [], ← hcodes]

theorem mem_counted_map_fst {freq : Table Count} : b ∈ (counted freq).map Prod.fst ↔ freq.get b ≠ 0 := by
  simp [counted_map_fst, mem_allBytes]

/-- The leaves are those of the counted byte values (R162). -/
theorem TreeOf.exists_leafAt_iff (hT : TreeOf s T) : (∃ p, T.leafAt p = some b) ↔ s.freq.get b ≠ 0 := by
  obtain ⟨-, -, -, -, hperm⟩ := hT
  rw [HTree.exists_leafAt_iff, (hperm.map Prod.fst).mem_iff, mem_counted_map_fst]

/-- The root of a tree TBUILD builds is no leaf (R168, R169), so no path to a leaf is empty. -/
theorem TreeOf.path_ne_nil (hT : TreeOf s T) {p : Code} (h : T.leafAt p = some b) : p ≠ [] := by
  obtain ⟨-, -, hshape, -, -⟩ := hT
  rintro rfl
  cases T with
  | null => cases h
  | leaf => cases hshape
  | fork => cases h

/-- Exactly the counted byte values have a code (R193). -/
theorem CodeTableOf.code_ne_nil_iff (h : CodeTableOf s T) (hT : TreeOf s T) (b : Byte) :
    s.code.get b ≠ [] ↔ s.freq.get b ≠ 0 := by
  rw [← hT.exists_leafAt_iff]
  constructor
  · exact fun hb => ⟨_, (h.codes b _ hb).1 rfl⟩
  · rintro ⟨p, hp⟩
    have hne := hT.path_ne_nil hp
    rwa [(h.codes b p hne).2 hp]

/-- Settles O26: CDERIVE keeps the tree, and the codes of a tree are its paths to leaves. -/
theorem cderiveCodesArePrefixFree : Obligations.CderiveCodesArePrefixFree := by
  unfold Obligations.CderiveCodesArePrefixFree
  intro s T ha hv hT
  obtain ⟨_, hrun, hTt, htable, c, n, rfl⟩ := exec_cderive_frame ha hv hT
  exact ⟨_, hrun, htable.prefixFree, htable.codesFit hTt, htable.code_ne_nil_iff hTt⟩

end Sys2Proof.Machine

/-! ## The bytes a unit appends to `OUT` (R77, R79) -/

namespace Sys2Proof.Machine

variable {s t u : State} {m : Memory} {a : Nat} {l : List Byte}

/-- The bytes of a list stored one after the other from address `a` on. -/
def Memory.writeAll : Nat → List Byte → Memory → Memory
  | _, [], m => m
  | a, v :: l, m => Memory.writeAll (a + 1) l (Memory.write a v m)

theorem Memory.writeAll_append (l l' : List Byte) : Memory.writeAll a (l ++ l') m =
    Memory.writeAll (a + l.length) l' (Memory.writeAll a l m) := by
  induction l generalizing a m with
  | nil => rfl
  | cons v l ih =>
    rw [List.cons_append, Memory.writeAll, ih, Memory.writeAll, List.length_cons, Nat.add_right_comm, Nat.add_assoc]

/-- The addresses before and behind the bytes stored are left alone. -/
theorem Memory.read_writeAll_outside {b : Nat} (h : b < a ∨ a + l.length ≤ b) :
    Memory.read b (Memory.writeAll a l m) = Memory.read b m := by
  induction l generalizing a m with
  | nil => rfl
  | cons v l ih =>
    rw [List.length_cons] at h
    rw [Memory.writeAll, ih (by omega), Memory.read_write_ne v m (by omega)]

/-- Each byte stored reads back at its own address. -/
theorem Memory.read_writeAll (hm : Memory.wf m) (hl : a + l.length ≤ 2 ^ 64) {k : Nat} {v : Byte}
    (hk : l[k]? = some v) : Memory.read (a + k) (Memory.writeAll a l m) = v := by
  induction l generalizing a m k with
  | nil => cases hk
  | cons w l ih =>
    rw [List.length_cons] at hl
    rw [Memory.writeAll]
    cases k with
    | zero =>
      obtain rfl : w = v := Option.some.inj hk
      rw [Memory.read_writeAll_outside (by omega)]
      exact Memory.read_write_self w hm
    | succ k =>
      rw [← Nat.succ_add_eq_add_succ]
      exact ih (Memory.write_wf w (by omega) hm) (by omega) hk

/-- `OUT` of `t` is `m` with the bytes `l` stored from address `a` on, and the cursor stands behind them. -/
structure Streamed (m : Memory) (a : Nat) (l : List Byte) (t : State) : Prop where
  outLen : t.outLen.toNat = a + l.length
  outMem : t.outMem = Memory.writeAll a l m

theorem Streamed.nil (t : State) : Streamed t.outMem t.outLen.toNat [] t := ⟨rfl, rfl⟩

/-- The stream is read off `OUT` and its cursor only. -/
theorem Streamed.congr (h : Streamed m a l t) (hmem : u.outMem = t.outMem) (hlen : u.outLen = t.outLen) :
    Streamed m a l u :=
  ⟨hlen ▸ h.outLen, hmem.trans h.outMem⟩

theorem Streamed.trans {l' : List Byte} (h : Streamed m a l t) (h' : Streamed t.outMem t.outLen.toNat l' u) :
    Streamed m a (l ++ l') u where
  outLen := by rw [h'.outLen, h.outLen, List.length_append, Nat.add_assoc]
  outMem := by rw [h'.outMem, h.outMem, h.outLen, Memory.writeAll_append]

theorem Streamed.outAt_outside (h : Streamed m a l t) {b : Nat} (hb : b < a ∨ t.outLen.toNat ≤ b) :
    t.outAt b = Memory.read b m := by
  rw [State.outAt, h.outMem]
  exact Memory.read_writeAll_outside (h.outLen ▸ hb)

theorem Streamed.outAt (h : Streamed m a l t) (hm : Memory.wf m) {k : Nat} {v : Byte} (hk : l[k]? = some v) :
    t.outAt (a + k) = v := by
  rw [State.outAt, h.outMem]
  exact Memory.read_writeAll hm (h.outLen ▸ t.outLen.isLt.le) hk

/-- A stream that starts at 0 is all of the output (R394). -/
theorem Streamed.output (h : Streamed m 0 l t) (hm : Memory.wf m) : t.output = l := by
  have hlen : t.outLen.toNat = l.length := by rw [h.outLen, Nat.zero_add]
  refine List.ext_getElem (by simp [State.output, hlen]) fun k h1 h2 => ?_
  have hk := h.outAt hm (List.getElem?_eq_getElem h2)
  simpa [State.output] using hk

/-- `OUT` and its cursor after one byte is appended (R77). -/
def State.appendByte (v : Byte) (s : State) : State :=
  { s with outMem := Memory.write s.outLen.toNat v s.outMem, outLen := s.outLen + 1 }

theorem emit_eq_appendByte (v : Byte) (h : s.outLen < s.params.outCap) : emit v s = .ok () (s.appendByte v) :=
  emit_of_room v h

theorem Streamed.appendByte (h : Streamed m a l t) (v : Byte) (hroom : t.outLen < t.params.outCap) :
    Streamed m a (l ++ [v]) (t.appendByte v) :=
  h.trans ⟨outLen_succ hroom, rfl⟩

/-- Bytes that all find room are appended. -/
theorem forEach_emit_of_room (h : s.outLen.toNat + l.length ≤ s.params.outCap.toNat) :
    ∃ u, forEach emit l s = .ok () u ∧ Streamed s.outMem s.outLen.toNat l u := by
  induction l generalizing s with
  | nil => exact ⟨s, rfl, .nil s⟩
  | cons v l ih =>
    rw [List.length_cons] at h
    have hroom : s.outLen < s.params.outCap := BitVec.lt_def.2 (by omega)
    have hlen : (s.appendByte v).outLen.toNat = s.outLen.toNat + 1 := outLen_succ hroom
    have hparams : (s.appendByte v).params = s.params := rfl
    obtain ⟨u, hrun, hstream⟩ := ih (s := s.appendByte v) (by rw [hlen, hparams]; omega)
    refine ⟨u, ?_, ((Streamed.nil s).appendByte v hroom).trans hstream⟩
    rw [forEach, emit_eq_appendByte v hroom]
    exact hrun

/-- The first byte that finds no room faults, with the capacity as its address; the bytes before it are appended. -/
theorem forEach_emit_of_full (hle : s.outLen.toNat ≤ s.params.outCap.toNat)
    (h : s.params.outCap.toNat < s.outLen.toNat + l.length) :
    ∃ l' u, forEach emit l s = raise .outputFault s.params.outCap u ∧ u.phase = s.phase ∧
      u.outLen = s.params.outCap ∧ Streamed s.outMem s.outLen.toNat l' u := by
  induction l generalizing s with
  | nil => exact absurd h (Nat.not_lt.2 hle)
  | cons v l ih =>
    rw [List.length_cons] at h
    rcases Nat.lt_or_eq_of_le hle with hlt | heq
    · have hroom : s.outLen < s.params.outCap := BitVec.lt_def.2 hlt
      have hlen : (s.appendByte v).outLen.toNat = s.outLen.toNat + 1 := outLen_succ hroom
      have hparams : (s.appendByte v).params = s.params := rfl
      obtain ⟨l', u, hrun, hphase, hcap, hstream⟩ := ih (s := s.appendByte v) (by rw [hlen, hparams]; omega)
        (by rw [hlen, hparams]; omega)
      refine ⟨v :: l', u, ?_, hphase, hcap, ((Streamed.nil s).appendByte v hroom).trans hstream⟩
      rw [forEach, emit_eq_appendByte v hroom]
      exact hrun
    · have hfull : s.outLen = s.params.outCap := BitVec.eq_of_toNat_eq heq
      refine ⟨[], s, ?_, rfl, hfull, .nil s⟩
      rw [forEach, emit_of_full v (hfull ▸ BitVec.le_refl _), raise_andThen, hfull]

end Sys2Proof.Machine

/-! ## HPACK: the header in `OUT` (R211 to R219) -/

namespace Sys2Proof.Machine

variable {s t : State} {code : Table Code} {b : Byte}

/-! ### The bytes of a header -/

theorem present_eq_map (code : Table Code) :
    present code = (allBytes.filter fun b => code.get b ≠ []).map fun b => (b, code.get b) := by
  rw [present, Table.entries_eq_map, List.filter_map]
  congr 1
  refine List.filter_congr fun b _ => ?_
  cases h : code.get b <;> simp [h]

theorem mem_present (h : code.get b ≠ []) : (b, code.get b) ∈ present code := by
  rw [present_eq_map]
  exact List.mem_map.2 ⟨b, List.mem_filter.2 ⟨mem_allBytes b, decide_eq_true h⟩, rfl⟩

theorem present_eq_nil (h : ∀ b, code.get b = []) : present code = [] := by
  simp [present_eq_map, h]

theorem allBytes_sorted : allBytes.Pairwise (· < ·) := by
  refine List.pairwise_map.2 (List.pairwise_lt_range.imp_of_mem fun {i j} hi hj hij => ?_)
  rw [List.mem_range] at hi hj
  rw [BitVec.lt_def, BitVec.toNat_ofNat, BitVec.toNat_ofNat]
  omega

/-- The entries stand in ascending order of the byte value (R214). -/
theorem present_sorted (code : Table Code) : (present code).Pairwise fun e f => e.1 < f.1 := by
  rw [present_eq_map]
  exact List.pairwise_map.2 (allBytes_sorted.filter _)

/-- An entry stands behind those of the smaller byte values (R214). -/
theorem exists_present_split (h : code.get b ≠ []) :
    ∃ later, present code = ((present code).filter fun e => e.1 < b) ++ (b, code.get b) :: later := by
  obtain ⟨earlier, later, hsplit⟩ := List.append_of_mem (mem_present h)
  have hsorted := present_sorted code
  rw [hsplit] at hsorted
  obtain ⟨-, htail, hcross⟩ := List.pairwise_append.1 hsorted
  have hbehind : ∀ e ∈ (b, code.get b) :: later, ¬ e.1 < b := fun e he => by
    rcases List.mem_cons.1 he with rfl | he
    · exact BitVec.lt_irrefl b
    · exact BitVec.not_lt.2 (BitVec.le_of_lt ((List.pairwise_cons.1 htail).1 e he))
  have hbefore : ∀ e ∈ earlier, e.1 < b := fun e he => hcross e he _ List.mem_cons_self
  refine ⟨later, ?_⟩
  rw [hsplit, List.filter_append, List.filter_eq_self.2 (by simpa using hbefore),
    List.filter_eq_nil_iff.2 (by simpa using hbehind), List.append_nil]

theorem length_headerEntry (e : Byte × Code) : (headerEntry e).length = 2 + e.2.length := by
  simp +arith [headerEntry]

theorem length_flatMap_headerEntry (es : List (Byte × Code)) :
    (es.flatMap headerEntry).length = (es.map fun e => 2 + e.2.length).sum := by
  simp [List.length_flatMap, length_headerEntry]

theorem headerBytes_of_ne_nil (padding : BitVec 3) (h : present code ≠ []) :
    headerBytes code padding = headerOf (present code) padding := by
  rw [headerBytes]
  split
  · exact absurd ‹_› h
  · rfl

theorem headerBytes_of_nil (padding : BitVec 3) (h : present code = []) : headerBytes code padding = [] := by
  rw [headerBytes, h]

/-- R216. -/
theorem length_headerBytes (code : Table Code) (padding : BitVec 3) :
    (headerBytes code padding).length = headerLength code := by
  by_cases h : present code = []
  · rw [headerBytes_of_nil padding h, headerLength, h]
    rfl
  · rw [headerBytes_of_ne_nil padding h, headerLength, if_neg (by simpa using h), headerOf, List.length_cons,
      List.length_append, length_flatMap_headerEntry, List.length_singleton]
    omega

theorem headerOf_getElem?_last (es : List (Byte × Code)) (padding : BitVec 3) :
    (headerOf es padding)[1 + (es.map fun e => 2 + e.2.length).sum]? = some (padding.setWidth 8) := by
  rw [← length_flatMap_headerEntry, Nat.add_comm, headerOf, List.getElem?_cons_succ, List.getElem?_concat_length]

/-- The bytes of an entry in a header stand behind those of the entries before it (R111, R113). -/
theorem headerOf_getElem?_entry (earlier later : List (Byte × Code)) (e : Byte × Code) (padding : BitVec 3) {k : Nat}
    {v : Byte} (hk : (headerEntry e)[k]? = some v) :
    (headerOf (earlier ++ e :: later) padding)[1 + (earlier.map fun e => 2 + e.2.length).sum + k]? = some v := by
  have hlt : k < (headerEntry e).length := (List.getElem?_eq_some_iff.1 hk).1
  rw [← length_flatMap_headerEntry, Nat.add_assoc, Nat.add_comm 1, headerOf, List.getElem?_cons_succ,
    List.flatMap_append, List.flatMap_cons, List.append_assoc, List.append_assoc,
    List.getElem?_append_right (Nat.le_add_right ..), Nat.add_sub_cancel_left, List.getElem?_append_left hlt, hk]

/-- The bytes of a byte value's entry, from its offset on (R113, R214). -/
theorem headerBytes_getElem?_entry (padding : BitVec 3) (h : code.get b ≠ []) {k : Nat} {v : Byte}
    (hk : (headerEntry (b, code.get b))[k]? = some v) :
    (headerBytes code padding)[entryOffset code b + k]? = some v := by
  obtain ⟨later, hsplit⟩ := exists_present_split h
  have hbyte := headerOf_getElem?_entry ((present code).filter fun e => e.1 < b) later _ padding hk
  rwa [← hsplit, ← headerBytes_of_ne_nil padding (List.ne_nil_of_mem (mem_present h))] at hbyte

theorem headerEntry_getElem?_bit {i : Nat} {bit : Bool} (h : (code.get b)[i]? = some bit) :
    (headerEntry (b, code.get b))[2 + i]? = some (if bit then 0x31 else 0x30) := by
  rw [Nat.add_comm, headerEntry, List.getElem?_cons_succ, List.getElem?_cons_succ, List.getElem?_map, h]
  rfl

/-! ### The command -/

/-- The state in which HPACK emits the header: the stream starts at 0 (R215). -/
def State.headerStart (s : State) : State := (s.startUnit .headerPacker).packStart

/-- The end of HPACK: what was emitted is the header (R216). -/
def State.headerDone (s : State) : State := { s with hdrLen := s.outLen }.endUnit { s.valid with hdrw := true }

theorem hpackUnit_eq (hv : s.valid.code = true) : hpackUnit s =
    (forEach emit (headerBytes s.code s.padding) s.headerStart).andThen fun _ u => .ok () u.headerDone := by
  rw [hpackUnit, hv]
  rfl

/-- HPACK with room for the header: its bytes are all of the stream, and HPACK's frame holds (R211, R215). -/
theorem hpackUnit_of_room (hv : s.valid.code = true) (h : headerLength s.code ≤ s.params.outCap.toNat) :
    ∃ t, hpackUnit s = .ok () t ∧ Streamed s.outMem 0 (headerBytes s.code s.padding) t ∧ ∃ m n, t = { s with
      outMem := m, outLen := n, hdrLen := n, valid := { s.valid.atHpack with hdrw := true }, phase := .idle } := by
  obtain ⟨u, hloop, hstream⟩ := forEach_emit_of_room (s := s.headerStart) (l := headerBytes s.code s.padding)
    (by rw [length_headerBytes]; exact (Nat.zero_add _).trans_le h)
  have hrun : hpackUnit s = .ok () u.headerDone := by rw [hpackUnit_eq hv, hloop, Run.ok_andThen]
  have hmeets := hpackUnit_meets s
  rw [hrun] at hmeets
  obtain ⟨-, -, hframe⟩ := hmeets
  exact ⟨_, hrun, hstream.congr rfl rfl, hframe⟩

/-- With room in `OUT` the command succeeds (R215 to R217). -/
theorem exec_hpack_of_room (ha : s.accepting) (hv : s.valid.code = true)
    (h : headerLength s.code ≤ s.params.outCap.toNat) :
    ∃ t, exec .hpack s = .next t ∧ Streamed s.outMem 0 (headerBytes s.code s.padding) t ∧ t.status = none ∧
      t.valid = { s.valid.atHpack with hdrw := true } ∧ t.hdrLen = t.outLen := by
  obtain ⟨u, hrun, hstream, m, n, rfl⟩ := hpackUnit_of_room (s := { s with busy := true }) hv h
  exact ⟨_, (accept_run hpackUnit ha.1 ha.2).trans (congrArg Run.finish hrun), hstream.congr rfl rfl, ha.2, rfl, rfl⟩

/-- Settles O27: the stream HPACK leaves is the list of the header's bytes, read at each entry's offset. -/
theorem hpackWritesTheHeader : Obligations.HpackWritesTheHeader := by
  unfold Obligations.HpackWritesTheHeader
  intro s ha hv hwf hne hroom
  obtain ⟨t, hrun, hstream, hstatus, hvalid, hhdr⟩ := exec_hpack_of_room ha hv hroom
  have hlen : t.outLen.toNat = headerLength s.code := by
    rw [hstream.outLen, length_headerBytes, Nat.zero_add]
  have hbyte : ∀ {k v}, (headerBytes s.code s.padding)[k]? = some v → t.outAt k = v := fun {k v} hk => by
    rw [← Nat.zero_add k]
    exact hstream.outAt hwf hk
  have hentry : ∀ {b : Byte} {k v}, s.code.get b ≠ [] → (headerEntry (b, s.code.get b))[k]? = some v →
      t.outAt (entryOffset s.code b + k) = v := fun hb hk => hbyte (headerBytes_getElem?_entry s.padding hb hk)
  refine ⟨t, hrun, hstatus, hvalid, hhdr ▸ hlen, hhdr.symm, hbyte ?count, fun b hb => ⟨?value, ?length, ?bits⟩,
    hbyte ?last, fun a ha' => hstream.outAt_outside (.inr (hlen.trans_le ha'))⟩
  case count =>
    rw [headerBytes_of_ne_nil s.padding hne, headerOf, present_eq_map, List.length_map]
    rfl
  case value => exact hentry (k := 0) hb rfl
  case length => exact hentry (k := 1) hb rfl
  case bits =>
    intro i bit hi
    rw [Nat.add_assoc]
    exact hentry hb (headerEntry_getElem?_bit hi)
  case last =>
    have hlast : headerLength s.code - 1 = 1 + ((present s.code).map fun e => 2 + e.2.length).sum := by
      rw [headerLength, if_neg (by simpa using hne)]
      omega
    rw [hlast, headerBytes_of_ne_nil s.padding hne]
    exact headerOf_getElem?_last _ _

/-- Settles O28: the empty table's header is the empty list of bytes. -/
theorem hpackOfTheEmptyTable : Obligations.HpackOfTheEmptyTable := by
  unfold Obligations.HpackOfTheEmptyTable
  intro s ha hv hempty
  have hbytes := headerBytes_of_nil s.padding (present_eq_nil hempty)
  have hroom : headerLength s.code ≤ s.params.outCap.toNat := by
    rw [← length_headerBytes s.code s.padding, hbytes]
    exact Nat.zero_le _
  obtain ⟨t, hrun, hstream, hstatus, hvalid, hhdr⟩ := exec_hpack_of_room ha hv hroom
  rw [hbytes] at hstream
  have hlen : t.outLen = 0 := BitVec.eq_of_toNat_eq hstream.outLen
  exact ⟨t, hrun, hstatus, hlen, hhdr.trans hlen, by rw [hvalid], hstream.outMem⟩

/-- Settles O29: the fault of the first header byte that finds no room; the bytes before it stand below the capacity. -/
theorem hpackFaultsWhenOutIsFull : Obligations.HpackFaultsWhenOutIsFull := by
  unfold Obligations.HpackFaultsWhenOutIsFull
  intro s ha hv hfull
  obtain ⟨l, u, hloop, hphase, hcap, hstream⟩ := forEach_emit_of_full
    (s := ({ s with busy := true } : State).headerStart) (l := headerBytes s.code s.padding) (Nat.zero_le _)
    (by rw [length_headerBytes]; exact hfull.trans_eq (Nat.zero_add _).symm)
  have hrun : hpackUnit { s with busy := true } = raise .outputFault s.params.outCap u := by
    rw [hpackUnit_eq (s := { s with busy := true }) hv, hloop]
    rfl
  refine ⟨_, (accept_run hpackUnit ha.1 ha.2).trans (congrArg Run.finish hrun), rfl, rfl, hphase, rfl, fun a hle => ?_⟩
  exact hstream.outAt_outside (.inr (hcap ▸ hle))

end Sys2Proof.Machine

/-! ## The frames of the commands that store into `OUT` (R211, R261, R281) -/

namespace Sys2Proof.Machine

variable {α β : Type} {s t u : State}

/-- From `s` to `t` bytes were appended to `OUT` at the cursor, and no other byte of it was written (R77, R79). -/
def Appended (s t : State) : Prop := ∃ l, Streamed s.outMem s.outLen.toNat l t

theorem Appended.refl (s : State) : Appended s s := ⟨[], .nil s⟩

theorem Appended.congr (h : Appended s t) (hmem : u.outMem = t.outMem) (hlen : u.outLen = t.outLen) : Appended s u :=
  h.imp fun _ hl => hl.congr hmem hlen

theorem Appended.outAt_outside (h : Appended s t) {a : Nat} (ha : a < s.outLen.toNat ∨ t.outLen.toNat ≤ a) :
    t.outAt a = s.outAt a := by
  obtain ⟨l, hl⟩ := h
  exact hl.outAt_outside ha

/-- A part of a unit that writes `OUT` only by appending; nothing is said of a run that faults (U6). -/
def Run.Appends (r : Run α) (s : State) : Prop := r.Ends (fun _ t => Appended s t) fun _ => True

theorem Run.Ends.and_appended {r : Run α} {Q : α → State → Prop} {R : State → Prop} (h : r.Ends Q R)
    (h' : r.Appends s) : r.Ends (fun a t => Q a t ∧ Appended s t) R := by
  cases r with
  | ok a t => exact ⟨h, h'⟩
  | raised t => exact h
  | stuck f => trivial

theorem Run.Appends.andThen {r : Run α} {k : α → State → Run β} (h : r.Appends s)
    (hk : ∀ a t, Appended s t → (k a t).Appends s) : (r.andThen k).Appends s :=
  Run.Ends.andThen h hk

theorem require_appends {met : Bool} {word : Byte} {k : State → Run α} (hk : met = true → (k u).Appends s) :
    (require met word u k).Appends s :=
  require_ends hk trivial

theorem emit_appends (v : Byte) (h : Appended s u) : (emit v u).Appends s := by
  rcases emit_cases v u with ⟨hroom, -⟩ | ⟨-, e⟩
  · obtain ⟨l, hl⟩ := h
    rw [emit_eq_appendByte v hroom]
    exact ⟨_, hl.appendByte v hroom⟩
  · rw [e]
    trivial

theorem inByte_appends (a : Addr) (h : Appended s u) : (inByte a u).Appends s := by
  refine (inByte_meets a u).ends.mono ?_ fun _ _ => trivial
  rintro v _ ⟨-, -, rfl⟩
  exact h.congr rfl rfl

theorem hpackUnit_appends (s : State) : (hpackUnit s).Appends s.headerStart :=
  require_appends fun _ =>
    Run.Appends.andThen (forEach_ends _ (fun v _ => emit_appends v) (.refl _)) fun _ _ ht => ht.congr rfl rfl

/-! ### BPACK -/

theorem flushByte_appends (h : Appended s u) : (flushByte u).Appends s :=
  (emit_appends _ h).andThen fun _ _ ht => ht.congr rfl rfl

theorem packBit_appends (bit : Bool) (h : Appended s u) : (packBit bit u).Appends s := by
  rw [packBit]
  dsimp only
  split
  · exact flushByte_appends (h.congr rfl rfl)
  · exact h.congr rfl rfl

theorem packByte_appends (a : Addr) (h : Appended s u) : (packByte a u).Appends s := by
  refine (inByte_appends a h).andThen fun v t ht => ?_
  split
  · trivial
  · exact Run.Appends.andThen (forEach_ends _ (fun bit _ => packBit_appends bit) ht) fun _ _ hw => hw.congr rfl rfl

theorem flushPartial_appends (h : Appended s u) : (flushPartial u).Appends s := by
  rw [flushPartial]
  split
  · exact h
  · exact flushByte_appends h

theorem bpackUnit_appends (s : State) : (bpackUnit s).Appends s :=
  require_appends fun _ =>
    Run.Appends.andThen (forAddr_ends _ _ (fun a _ => packByte_appends a) ((Appended.refl s).congr rfl rfl))
      fun _ _ ht => (flushPartial_appends ht).andThen fun _ _ hw => hw.congr rfl rfl

/-! ### BUNPACK -/

theorem emitSymbol_appends (sym : Byte) (h : Appended s u) : (emitSymbol sym u).Appends s :=
  (emit_appends sym h).andThen fun _ _ ht => ht.congr rfl rfl

theorem stepTo_appends (next : NodeIx) (h : Appended s u) : (stepTo next u).Appends s := by
  rw [stepTo]
  split
  · trivial
  · split
    · exact emitSymbol_appends _ (h.congr rfl rfl)
    · exact h.congr rfl rfl

theorem unpackBit_appends (a : Addr) (pos : Nat) (h : Appended s u) : (unpackBit a pos u).Appends s := by
  rw [unpackBit]
  dsimp only
  split
  · trivial
  · split
    · trivial
    · split
      · trivial
      · exact stepTo_appends _ (h.congr rfl rfl)

theorem unpackByte_appends (a : Addr) (h : Appended s u) : (unpackByte a u).Appends s :=
  (inByte_appends a h).andThen fun _ _ ht => forEach_ends _ (fun pos _ => unpackBit_appends a pos) (ht.congr rfl rfl)

theorem unpackPayload_appends (root : NodeIx) (s : State) : (unpackPayload root s).Appends s := by
  rw [unpackPayload]
  split
  · trivial
  · refine Run.Appends.andThen (forAddr_ends _ _ (fun a _ => unpackByte_appends a) ((Appended.refl s).congr rfl rfl))
      fun _ t ht => ?_
    split
    · exact ht
    · trivial

theorem bunpackUnit_appends (s : State) : (bunpackUnit s).Appends (s.startUnit .bitUnpacker).decodeStart := by
  refine require_appends fun _ => Run.Appends.andThen ?_ fun _ _ ht => ht.congr rfl rfl
  split
  · exact .refl _
  · exact unpackPayload_appends _ _

/-- Settles O59: each unit's frame, and that it writes `OUT` only by appending. -/
theorem frameOfTheUnitsThatStore : Obligations.FrameOfTheUnitsThatStore := by
  unfold Obligations.FrameOfTheUnitsThatStore
  intro s t hst
  refine ⟨fun h => ?hpack, fun h => ?bpack, fun h => ?bunpack⟩
  case hpack =>
    obtain rfl | ⟨_, ⟨⟨-, -, m, n, rfl⟩, happ⟩, rfl⟩ :=
      accept_unfaulted ((hpackUnit_meets _).ends.and_appended (hpackUnit_appends _)) hst h
    · exact ⟨fun _ _ => rfl, rfl⟩
    · exact ⟨fun a ha => happ.outAt_outside (.inr ha), rfl⟩
  case bpack =>
    obtain rfl | ⟨_, ⟨⟨-, -, -, m, n, l, acc, pos, k, p, rfl⟩, happ⟩, rfl⟩ :=
      accept_unfaulted ((bpackUnit_meets _).ends.and_appended (bpackUnit_appends _)) hst h
    · exact ⟨fun _ _ => rfl, rfl⟩
    · exact ⟨fun a ha => happ.outAt_outside ha, rfl⟩
  case bunpack =>
    obtain rfl | ⟨_, ⟨⟨-, -, m, n, l, k, cur, v, p, rfl⟩, happ⟩, rfl⟩ :=
      accept_unfaulted ((bunpackUnit_ends _).and_appended (bunpackUnit_appends _)) hst h
    · exact ⟨fun _ _ => rfl, rfl⟩
    · exact ⟨fun a ha => happ.outAt_outside (.inr ha), rfl⟩

end Sys2Proof.Machine

/-! ## The archive of one repeated byte (R168, R218, R271) -/

namespace Sys2Proof.Machine

variable {α : Type} {s t u : State} {b : Byte} {w : Count}

theorem Run.Ends.of_eq_ok {r : Run α} {Q : α → State → Prop} {R : State → Prop} (h : r.Ends Q R) {a : α}
    (hr : r = .ok a t) : Q a t := by
  rw [hr] at h
  exact h

theorem Run.Meets.exists_ok {r : Run α} {Q : α → State → Prop} (h : r.Meets Q fun _ => False) :
    ∃ a t, r = .ok a t ∧ Q a t := by
  cases r with
  | ok a t => exact ⟨a, t, rfl, h⟩
  | raised t => exact h.elim
  | stuck f => exact h.elim

/-! ### BPACK where every input byte has the code "0" -/

theorem flushByte_of_room (h : s.outLen < s.params.outCap) : flushByte s =
    .ok () { s.appendByte s.pkAcc with payLen := s.payLen + 1, pkAcc := 0, pkPos := 7 } := by
  rw [flushByte, emit_eq_appendByte _ h]
  rfl

theorem packBit_false (s : State) :
    packBit false s = if s.pkPos = 0 then flushByte s else .ok () { s with pkPos := s.pkPos - 1 } := rfl

theorem packByte_of_zeroBit {a : Addr} (ha : a < s.inLen) (hr : s.params.readFails a = false)
    (hc : s.code.get (s.inAt a.toNat) = [false]) : packByte a s =
    (packBit false { s with inPtr := a + 1 }).andThen fun _ t => .ok () { t with symCount := t.symCount + 1 } := by
  rw [packByte, inByte_of_lt ha hr, Run.ok_andThen]
  simp only [hc, forEach]
  exact Run.andThen_assoc _ _ _

/-- The state in which BPACK reads the first byte (R263). -/
def State.packingStart (s : State) : State := (s.startUnit .bitPacker).streamStart

theorem bpackUnit_eq (hp : s.mayPack = true) : bpackUnit s =
    (forAddr packByte s.inLen.toNat 0 s.packingStart).andThen fun _ t =>
      (flushPartial t).andThen fun _ u => .ok () (u.endUnit { u.valid with cout := true }) := by
  rw [bpackUnit, hp]
  rfl

/-- The accumulator and the payload after `k` zero bits from `s` on (R263, R264). -/
structure ZeroBits (s : State) (k : Nat) (t : State) : Prop where
  stream : Streamed s.outMem s.outLen.toNat (List.replicate (k / 8) 0) t
  pkAcc  : t.pkAcc = 0
  pkPos  : t.pkPos.toNat = 7 - k % 8

theorem ZeroBits.congr {k : Nat} (h : ZeroBits s k t) (hmem : u.outMem = t.outMem) (hlen : u.outLen = t.outLen)
    (hacc : u.pkAcc = t.pkAcc) (hpos : u.pkPos = t.pkPos) : ZeroBits s k u :=
  ⟨h.stream.congr hmem hlen, hacc.trans h.pkAcc, hpos ▸ h.pkPos⟩

/-- A byte of zero bits goes out: the pending one is complete, or it is flushed. -/
theorem ZeroBits.flushByte_eq {k : Nat} (h : ZeroBits s k t) (hroom : t.outLen < t.params.outCap) :
    ∃ u, flushByte t = .ok () u ∧ Streamed s.outMem s.outLen.toNat (List.replicate (k / 8 + 1) 0) u ∧ u.pkAcc = 0 ∧
      u.pkPos = 7 := by
  refine ⟨_, flushByte_of_room hroom, ?_, rfl, rfl⟩
  have hstream := h.stream.appendByte t.pkAcc hroom
  rw [h.pkAcc, ← List.replicate_succ'] at hstream
  exact hstream.congr (by rw [h.pkAcc]) rfl

theorem ZeroBits.packBit_eq {k : Nat} (h : ZeroBits s k t)
    (hroom : s.outLen.toNat + (k + 1) / 8 ≤ t.params.outCap.toNat) :
    ∃ u, packBit false t = .ok () u ∧ ZeroBits s (k + 1) u := by
  have hpos := h.pkPos
  have hlen := h.stream.outLen
  rw [List.length_replicate] at hlen
  rw [packBit_false]
  split
  · next h0 =>
    have h0 : t.pkPos.toNat = 0 := congrArg BitVec.toNat h0
    have hlt : t.outLen < t.params.outCap := BitVec.lt_def.2 (by omega)
    obtain ⟨u, hu, hstream, hacc, h7⟩ := h.flushByte_eq hlt
    refine ⟨u, hu, ?_, hacc, ?_⟩
    · rwa [show (k + 1) / 8 = k / 8 + 1 by omega]
    · have h7 : u.pkPos.toNat = 7 := congrArg BitVec.toNat h7
      omega
  · next h0 =>
    have h0 : t.pkPos.toNat ≠ 0 := fun e => h0 (BitVec.eq_of_toNat_eq e)
    refine ⟨_, rfl, ?_, h.pkAcc, ?_⟩
    · rw [show (k + 1) / 8 = k / 8 by omega]
      exact h.stream.congr rfl rfl
    · show (t.pkPos - 1).toNat = _
      bv_omega

theorem ZeroBits.flushPartial_eq {k : Nat} (h : ZeroBits s k t)
    (hroom : s.outLen.toNat + (k + 7) / 8 ≤ t.params.outCap.toNat) :
    ∃ u, flushPartial t = .ok () u ∧ Streamed s.outMem s.outLen.toNat (List.replicate ((k + 7) / 8) 0) u := by
  have hpos := h.pkPos
  have hlen := h.stream.outLen
  rw [List.length_replicate] at hlen
  rw [flushPartial]
  split
  · next h7 =>
    have h7 : t.pkPos.toNat = 7 := congrArg BitVec.toNat h7
    exact ⟨t, rfl, by rw [show (k + 7) / 8 = k / 8 by omega]; exact h.stream⟩
  · next h7 =>
    have h7 : t.pkPos.toNat ≠ 7 := fun e => h7 (BitVec.eq_of_toNat_eq e)
    have hlt : t.outLen < t.params.outCap := BitVec.lt_def.2 (by omega)
    obtain ⟨u, hu, hstream, -⟩ := h.flushByte_eq hlt
    exact ⟨u, hu, by rwa [show (k + 7) / 8 = k / 8 + 1 by omega]⟩

theorem PackedFrom.keeps (h : PackedFrom s t) :
    t.inLen = s.inLen ∧ t.inAt = s.inAt ∧ t.params = s.params ∧ t.code = s.code := by
  obtain ⟨-, -, m, n, l, acc, pos, k, p, rfl⟩ := h
  exact ⟨rfl, rfl, rfl, rfl⟩

/-- The packing loop where each byte read adds one zero bit. -/
theorem ZeroBits.packByte_meets {k : Nat} (h : ZeroBits s k t) (hframe : PackedFrom s t) (hk : k < s.inLen.toNat)
    (hr : s.inputReadable) (hc : s.code.get (s.inAt k) = [false])
    (hroom : s.outLen.toNat + (s.inLen.toNat + 7) / 8 ≤ s.params.outCap.toNat) :
    (packByte (BitVec.ofNat 64 k) t).Meets (fun _ u => ZeroBits s (k + 1) u ∧ PackedFrom s u) fun _ => False := by
  obtain ⟨hlen, hin, hparams, hcode⟩ := hframe.keeps
  obtain ⟨haddr, hlt⟩ := ofNat_lt_inLen hk
  have hread : t.code.get (t.inAt (BitVec.ofNat 64 k).toNat) = [false] := by rw [haddr, hcode, hin, hc]
  have hstart : ZeroBits s k { t with inPtr := BitVec.ofNat 64 k + 1 } := h.congr rfl rfl rfl rfl
  obtain ⟨u, hbit, hu⟩ := hstart.packBit_eq (by rw [hparams]; omega)
  have hrun : packByte (BitVec.ofNat 64 k) t = .ok () { u with symCount := u.symCount + 1 } := by
    rw [packByte_of_zeroBit (hlen ▸ hlt) (hparams ▸ hr _ hlt) hread, hbit, Run.ok_andThen]
  rw [hrun]
  exact ⟨hu.congr rfl rfl rfl rfl, (Machine.packByte_meets _ hframe).ends.of_eq_ok hrun⟩

/-- BPACK of bytes that all have the code "0": a payload of zero bytes (R271). -/
theorem bpackUnit_of_zeroBits (hp : s.mayPack = true) (hr : s.inputReadable)
    (hc : ∀ c ∈ s.input, s.code.get c = [false])
    (hroom : s.outLen.toNat + (s.inLen.toNat + 7) / 8 ≤ s.params.outCap.toNat) :
    ∃ t, bpackUnit s = .ok () t ∧
      Streamed s.outMem s.outLen.toNat (List.replicate ((s.inLen.toNat + 7) / 8) 0) t := by
  have hbyte : ∀ k, k < s.inLen.toNat → s.code.get (s.inAt k) = [false] := fun k hk =>
    hc _ (List.mem_map_of_mem (List.mem_range.2 hk))
  obtain ⟨-, -, hlen⟩ := (mayPack_iff s).1 hp
  have hstart : ZeroBits s.packingStart 0 s.packingStart ∧ PackedFrom s.packingStart s.packingStart :=
    ⟨⟨.nil _, rfl, rfl⟩, Stores.refl _, hlen.trans (BitVec.add_zero _).symm, _, _, _, _, _, _, _, rfl⟩
  have hloop := forAddr_meets (I := fun k t => ZeroBits s.packingStart k t ∧ PackedFrom s.packingStart t)
    (R := fun _ => False) (body := packByte) s.inLen.toNat 0
    (fun k hk t ⟨ht, hframe⟩ => by
      rw [zero_add]
      exact ht.packByte_meets hframe hk hr (hbyte k hk) hroom)
    hstart
  obtain ⟨⟨⟩, t, hrun, ht, hframe⟩ := hloop.exists_ok
  obtain ⟨-, -, hparams, -⟩ := hframe.keeps
  obtain ⟨u, hflush, hu⟩ := ht.flushPartial_eq (hparams ▸ hroom)
  refine ⟨u.endUnit { u.valid with cout := true }, ?_, hu.congr rfl rfl⟩
  rw [bpackUnit_eq hp, hrun, Run.ok_andThen, hflush, Run.ok_andThen]

/-! ### The units before it -/

theorem fscanUnit_eq (hr : s.inputReadable) : ∃ t, fscanUnit s = .ok () t ∧ Counted s.input t ∧ ∃ f n p, t = { s with
    freq := f, alpha := n, inPtr := p, valid := { Valid.allClear with freq := true }, phase := .idle } := by
  obtain ⟨⟨⟩, t, hrun, hscan⟩ := (fscanUnit_of_readable hr).exists_ok
  obtain ⟨-, hframe⟩ := (fscanUnit_meets s).ends.of_eq_ok hrun
  exact ⟨t, hrun, hscan.counted, hframe⟩

/-- The tree of a single byte value: the leaf under a parent, on the left (R168). -/
def HTree.single (b : Byte) (w : Count) : HTree := .fork w (.leaf b w) .null

theorem tbuildUnit_of_single (hv : s.valid.freq = true) (hcounted : counted s.freq = [(b, w)]) (hw : w ≠ 0) :
    ∃ t, tbuildUnit s = .ok () t ∧ TreeOf t (.single b w) ∧ ∃ nodes n l m r, t = { s with
      node := nodes, nodeCount := n, list := l, listLen := m, root := r
      valid := { s.valid.atTbuild with tree := true }, phase := .idle } := by
  have hrun := tbuildUnit_eq hv
  rw [joinLeaves_placeLeaves_of_single hcounted hw] at hrun
  refine ⟨_, hrun, ?_, _, _, _, _, _, rfl⟩
  exact ⟨⟨1, some 0, none, rfl, rfl, ⟨0, rfl, rfl⟩, rfl⟩, Nat.le_refl 2, rfl,
    by simp [HTree.single, HTree.weighted, HTree.weight], .of_eq hcounted.symm⟩

theorem present_of_single {code : Table Code} (hb : code.get b = [false]) (hc : ∀ c, c ≠ b → code.get c = []) :
    present code = [(b, [false])] := by
  have hfilter : (allBytes.filter fun c => code.get c ≠ []) = allBytes.filter (· == b) := by
    refine List.filter_congr fun c _ => ?_
    by_cases h : c = b
    · simp [h, hb]
    · simp [h, hc c h]
  rw [present_eq_map, hfilter, List.filter_beq, List.count_eq_one_of_mem allBytes_nodup (mem_allBytes b), ← hb]
  rfl

/-- The code table of a single byte value and its header (R168, R218). -/
theorem CodeTableOf.single (h : CodeTableOf s (.single b w)) :
    s.code.get b = [false] ∧ headerBytes s.code s.padding =
      [0x00, b, 0x01, 0x30, BitVec.ofNat 8 ((8 - (s.freq.get b).toNat % 8) % 8)] := by
  have hb : s.code.get b = [false] := (h.codes b [false] (List.cons_ne_nil _ _)).2 rfl
  have hc : ∀ c, c ≠ b → s.code.get c = [] := fun c hcb => by
    by_contra hne
    have hleaf := HTree.exists_leafAt_iff.1 ⟨_, (h.codes c _ hne).1 rfl⟩
    exact hcb (List.mem_singleton.1 hleaf)
  have htotal : s.totalBits.toNat = (s.freq.get b).toNat := by
    have hsum := List.sum_map_eq_nsmul_single (l := allBytes) b (fun c => (s.code.get c).length * (s.freq.get c).toNat)
      (fun c hcb _ => by simp [hc c hcb])
    have hlt := (s.freq.get b).isLt
    rw [h.total, hsum, List.count_eq_one_of_mem allBytes_nodup (mem_allBytes b), hb, one_smul, List.length_singleton,
      one_mul, BitVec.toNat_ofNat]
    omega
  have hpad : s.padding.setWidth 8 = BitVec.ofNat 8 ((8 - (s.freq.get b).toNat % 8) % 8) := by
    rw [← htotal, ← h.padding, BitVec.ofNat_toNat]
  have hpresent := present_of_single hb hc
  rw [headerBytes_of_ne_nil _ (by simp [hpresent]), hpresent, ← hpad]
  exact ⟨hb, rfl⟩

theorem cderiveUnit_of_single (hv : s.valid.tree = true) (hT : TreeOf s (.single b w)) :
    ∃ t, cderiveUnit s = .ok () t ∧ t.code.get b = [false] ∧ headerBytes t.code t.padding =
      [0x00, b, 0x01, 0x30, BitVec.ofNat 8 ((8 - (s.freq.get b).toNat % 8) % 8)] ∧ ∃ c n, t = { s with
      code := c, totalBits := n, padding := paddingOf n, valid := { s.valid.atCderive with code := true }
      phase := .idle } := by
  obtain ⟨t, hrun, -, htable⟩ := cderiveUnit_eq hv hT
  obtain ⟨-, -, c, n, hframe⟩ := (cderiveUnit_ends s).of_eq_ok hrun
  obtain ⟨hcode, hbytes⟩ := htable.single
  refine ⟨t, hrun, hcode, ?_, c, n, hframe⟩
  rw [hbytes, hframe]

/-- The input of copies of one byte: its counts are those of a single byte value. -/
theorem counted_of_copies (h : Counted s.input t) (hne : s.inLen ≠ 0) (hall : ∀ c ∈ s.input, c = b) :
    (t.freq.get b).toNat = s.inLen.toNat ∧ t.freq.get b ≠ 0 ∧ counted t.freq = [(b, t.freq.get b)] := by
  have hcopies : s.input = List.replicate s.inLen.toNat b := by
    rw [← length_input]
    exact List.eq_replicate_length.2 hall
  have hcount : (t.freq.get b).toNat = s.inLen.toNat := by
    rw [h.freq, hcopies, List.count_replicate_self]
  have hb : t.freq.get b ≠ 0 := fun e => hne (BitVec.eq_of_toNat_eq (hcount.symm.trans (congrArg BitVec.toNat e)))
  exact ⟨hcount, hb, counted_of_single hb fun c hcb => (h.freq_eq_zero_iff c).2 fun hmem => hcb (hall c hmem)⟩

/-- The header of copies of `b`, `n` of them (R168, R218). -/
def copiesHeader (b : Byte) (n : Nat) : List Byte := [0x00, b, 0x01, 0x30, BitVec.ofNat 8 ((8 - n % 8) % 8)]

/-- The state between CDERIVE and HPACK of a compression of copies of `b` that started in `s` (R168, R218). -/
structure CopiesCoded (s : State) (b : Byte) (t : State) : Prop where
  status : t.status = s.status
  inLen  : t.inLen = s.inLen
  input  : t.input = s.input
  params : t.params = s.params
  outMem : t.outMem = s.outMem
  valid  : t.valid.code = true
  code   : t.code.get b = [false]
  header : headerBytes t.code t.padding = copiesHeader b s.inLen.toNat

theorem units_of_copies (hr : s.inputReadable) (hne : s.inLen ≠ 0) (hall : ∀ c ∈ s.input, c = b) :
    ∃ t u v, fscanUnit s = .ok () t ∧ tbuildUnit t = .ok () u ∧ cderiveUnit u = .ok () v ∧ CopiesCoded s b v := by
  obtain ⟨t, hscan, hcounts, f, n₁, p₁, ht⟩ := fscanUnit_eq hr
  obtain ⟨hfreq, hb, hcounted⟩ := counted_of_copies hcounts hne hall
  obtain ⟨u, hbuild, hT, nodes, n₂, l₂, m₂, r₂, hu⟩ := tbuildUnit_of_single (by rw [ht]) hcounted hb
  obtain ⟨v, hderive, hcode, hheader, c, n₃, hv⟩ := cderiveUnit_of_single (by rw [hu]) hT
  have hkept : u.freq = t.freq := by rw [hu]
  rw [hkept, hfreq] at hheader
  refine ⟨t, u, v, hscan, hbuild, hderive, ?_⟩
  rw [hu, ht] at hv
  exact ⟨by rw [hv], by rw [hv], by rw [hv]; rfl, by rw [hv], by rw [hv], by rw [hv], hcode, hheader⟩

/-- The units of COMPRESS on copies of one byte: the header, then zero bytes (R218, R271). -/
theorem compressUnits_of_copies (hr : s.inputReadable) (hne : s.inLen ≠ 0) (hall : ∀ c ∈ s.input, c = b)
    (hroom : 5 + (s.inLen.toNat + 7) / 8 ≤ s.params.outCap.toNat) :
    ∃ t, compressUnits s = .ok () t ∧ t.status = s.status ∧ t.hdrLen = 5 ∧ Streamed s.outMem 0
      (copiesHeader b s.inLen.toNat ++ List.replicate ((s.inLen.toNat + 7) / 8) 0) t := by
  obtain ⟨t, u, v, hscan, hbuild, hderive, hstatus, hlen, hinput, hparams, hout, hvalid, hcode, hbytes⟩ :=
    units_of_copies hr hne hall
  have hfits : headerLength v.code ≤ v.params.outCap.toNat := by
    rw [← length_headerBytes _ v.padding, hbytes, hparams]
    exact (Nat.le_add_right 5 _).trans hroom
  obtain ⟨w, hpack, hheader, m, n, hw⟩ := hpackUnit_of_room hvalid hfits
  rw [hbytes, hout] at hheader
  have hmay : w.mayPack = true := (mayPack_iff w).2 (by rw [hw]; exact ⟨hvalid, rfl, rfl⟩)
  have hwlen : w.inLen = s.inLen := by rw [hw, hlen]
  have hwparams : w.params = s.params := by rw [hw, hparams]
  have hwinput : w.input = s.input := by rw [hw, ← hinput]; rfl
  have hwcode : ∀ c ∈ w.input, w.code.get c = [false] := fun c hc => by
    rw [hw, hall c (hwinput ▸ hc), hcode]
  obtain ⟨x, hbits, hpayload⟩ := bpackUnit_of_zeroBits hmay (fun a ha => hwparams.symm ▸ hr a (hwlen ▸ ha)) hwcode
    (by rw [hheader.outLen, hwlen, hwparams]; exact hroom)
  obtain ⟨-, -, -, m', n', l, acc, pos, k, p, hx⟩ := (bpackUnit_meets w).ends.of_eq_ok hbits
  have hstream := hheader.trans hpayload
  rw [hwlen] at hstream
  refine ⟨x, ?_, by rw [hx, hw, hstatus], ?_, hstream⟩
  · rw [compressUnits, hscan, Run.ok_andThen, hbuild, Run.ok_andThen, hderive, Run.ok_andThen, hpack, Run.ok_andThen,
      hbits]
  · have hlen5 : w.hdrLen = w.outLen := by rw [hw]
    rw [hx]
    exact hlen5.trans (BitVec.eq_of_toNat_eq hheader.outLen)

/-- Settles O47: the tree of one leaf gives the byte the code "0", so the payload is zero bits. -/
theorem archiveOfOneSymbol : Obligations.ArchiveOfOneSymbol := by
  unfold Obligations.ArchiveOfOneSymbol
  intro s b ha hr hwf hne hall hroom
  obtain ⟨t, hrun, hstatus, hhdr, hstream⟩ := compressUnits_of_copies (s := { s with busy := true }) hr hne hall hroom
  refine ⟨_, (accept_run compressUnits ha.1 ha.2).trans (congrArg Run.finish hrun), hstatus.trans ha.2, hhdr, ?_⟩
  exact Streamed.output (hstream.congr rfl rfl) hwf

end Sys2Proof.Machine

/-! ## HUNPACK: how it ends, and which byte a check names (R232 to R245) -/

namespace Sys2Proof.Machine

variable {α : Type} {s t u : State} {sym : Byte} {cur : NodeIx} {nd : Node} {bit : Bool}

/-! ### One byte, one step of a path: an equation per case -/

/-- The cursor stands behind the byte it stood at (R79). -/
def State.readOn (s : State) : State := { s with inPtr := s.inPtr + 1 }

/-- A node is allocated as a child of `NODE[cur]` (R235). -/
def State.growChild (cur : NodeIx) (bit : Bool) (n : Node) (s : State) : State :=
  (s.alloc n).2.linkChild cur bit s.nodeCount

theorem nextByte_of_lt (h : s.inPtr < s.inLen) (hr : s.params.readFails s.inPtr = false) :
    nextByte s = .ok (s.inAt s.inPtr.toNat) s.readOn := inByte_of_lt h hr

/-- A check that fails names the byte just read (R239). -/
theorem corruptHere_readOn : (corruptHere s.readOn : Run α) = raise .corruptArchive s.inPtr s.readOn :=
  congrArg (raise .corruptArchive · s.readOn) (BitVec.add_sub_cancel s.inPtr 1)

theorem innerStep_of_none (h : nd.child bit = none) :
    innerStep cur nd bit s = .ok s.nodeCount (s.growChild cur bit Node.bare) := by
  rw [innerStep, h]
  rfl

theorem innerStep_of_internal {ch : NodeIx} {n : Node} (h : nd.child bit = some ch) (hn : s.nodeAt ch = some n)
    (hk : n.kind = .internal) : innerStep cur nd bit s = .ok ch s := by
  simp only [innerStep, h, hn, hk]

theorem innerStep_of_leaf {ch : NodeIx} {n : Node} (h : nd.child bit = some ch) (hn : s.nodeAt ch = some n)
    (hk : n.kind = .leaf) : innerStep cur nd bit s = corruptHere s := by
  simp only [innerStep, h, hn, hk]

theorem lastStep_of_none (h : nd.child bit = none) :
    lastStep sym cur nd bit s = .ok () (s.growChild cur bit (Node.bareLeaf sym)) := by
  rw [lastStep, h]
  rfl

theorem lastStep_of_some {ch : NodeIx} (h : nd.child bit = some ch) :
    lastStep sym cur nd bit s = corruptHere s := by
  rw [lastStep, h]

section walkPath

variable (hp : s.inPtr < s.inLen) (hr : s.params.readFails s.inPtr = false)
include hp hr

theorem walkPath_of_noBit (hb : codeBit (s.inAt s.inPtr.toNat) = none) (left : Nat) :
    walkPath sym (left + 1) cur s = corruptHere s.readOn := by
  rw [walkPath, nextByte_of_lt hp hr, Run.ok_andThen]
  simp only [hb]

theorem walkPath_last (hb : codeBit (s.inAt s.inPtr.toNat) = some bit) (hn : s.nodeAt cur = some nd) :
    walkPath sym 1 cur s = lastStep sym cur nd bit s.readOn := by
  have hn' : s.readOn.nodeAt cur = some nd := hn
  rw [walkPath, nextByte_of_lt hp hr, Run.ok_andThen]
  simp only [hb, hn']

theorem walkPath_inner (hb : codeBit (s.inAt s.inPtr.toNat) = some bit) (hn : s.nodeAt cur = some nd) (left : Nat) :
    walkPath sym (left + 2) cur s =
      (innerStep cur nd bit s.readOn).andThen fun next s => walkPath sym (left + 1) next s := by
  have hn' : s.readOn.nodeAt cur = some nd := hn
  rw [walkPath, nextByte_of_lt hp hr, Run.ok_andThen]
  simp only [hb, hn']

/-- A code length of 0 (R240). -/
theorem readEntry_of_zero (hp' : s.inPtr + 1 < s.inLen) (hr' : s.params.readFails (s.inPtr + 1) = false)
    (hlen : s.inAt (s.inPtr + 1).toNat = 0) : readEntry s = corruptHere s.readOn.readOn := by
  have hnext : nextByte s.readOn = .ok (s.inAt (s.inPtr + 1).toNat) s.readOn.readOn := nextByte_of_lt hp' hr'
  rw [readEntry, nextByte_of_lt hp hr, Run.ok_andThen, hnext, Run.ok_andThen, if_pos hlen]

/-- Any other code length (R236). -/
theorem readEntry_of_ne_zero (hp' : s.inPtr + 1 < s.inLen) (hr' : s.params.readFails (s.inPtr + 1) = false)
    (hlen : s.inAt (s.inPtr + 1).toNat ≠ 0) {root : NodeIx} (hroot : s.root = some root) :
    readEntry s = walkPath (s.inAt s.inPtr.toNat) (s.inAt (s.inPtr + 1).toNat).toNat root s.readOn.readOn := by
  have hroot' : s.readOn.readOn.root = some root := hroot
  have hnext : nextByte s.readOn = .ok (s.inAt (s.inPtr + 1).toNat) s.readOn.readOn := nextByte_of_lt hp' hr'
  rw [readEntry, nextByte_of_lt hp hr, Run.ok_andThen, hnext, Run.ok_andThen, if_neg hlen, hroot']

/-- A padding byte above 7 (R241). -/
theorem readPadding_of_gt (hpad : 7 < (s.inAt s.inPtr.toNat).toNat) : readPadding s = corruptHere s.readOn := by
  rw [readPadding, nextByte_of_lt hp hr, Run.ok_andThen, if_pos hpad]

theorem readPadding_of_le (hpad : (s.inAt s.inPtr.toNat).toNat ≤ 7) : readPadding s = .ok ()
    { s.readOn with padding := (s.inAt s.inPtr.toNat).extractLsb' 0 3, hdrLen := s.inPtr + 1 } := by
  rw [readPadding, nextByte_of_lt hp hr, Run.ok_andThen, if_neg (Nat.not_lt.2 hpad)]
  rfl

end walkPath

/-! ### The empty archive, and the checks -/

/-- Settles O32: HUNPACK of the empty archive is its start and its end. -/
theorem hunpackOfTheEmptyArchive : Obligations.HunpackOfTheEmptyArchive := by
  unfold Obligations.HunpackOfTheEmptyArchive
  intro s ha h0
  have hrun : hunpackUnit { s with busy := true } = .ok () ((({ s with busy := true } : State).startUnit
      .headerUnpacker).unpackStart.endUnit { Valid.allClear with hdrr := true }) := by
    have hlen : (({ s with busy := true } : State).startUnit .headerUnpacker).unpackStart.inLen = 0 := h0
    rw [hunpackUnit]
    dsimp only
    rw [if_pos hlen]
    rfl
  exact ⟨_, (accept_run hunpackUnit ha.1 ha.2).trans (congrArg Run.finish hrun), ha.2, rfl, rfl, rfl, rfl, rfl, rfl,
    rfl⟩

theorem codeBit_eq_none {c : Byte} (h0 : c ≠ 0x30) (h1 : c ≠ 0x31) : codeBit c = none :=
  (if_neg h0).trans (if_neg h1)

/-- Settles O35: each check fails right behind the byte it looks at. -/
theorem headerChecksNameTheOffendingByte : Obligations.HeaderChecksNameTheOffendingByte := by
  unfold Obligations.HeaderChecksNameTheOffendingByte
  intro s sym cur hp hr p corruptAt steps
  have here : corruptAt (corruptHere s.readOn) p := ⟨_, corruptHere_readOn, rfl, rfl, rfl, rfl⟩
  have child : ∀ {nd ch}, steps nd ch → ∃ bit, codeBit (s.inAt p.toNat) = some bit ∧ nd.child bit = some ch := by
    rintro nd ch (⟨hc, hl⟩ | ⟨hc, hl⟩)
    · exact ⟨false, by rw [hc]; rfl, hl⟩
    · exact ⟨true, by rw [hc]; rfl, hl⟩
  refine ⟨fun hp' hr' hlen => ?length, fun n h0 h1 => ?bit, fun n nd ch leaf hstep hn hch hk => ?inner,
    fun nd ch hstep hn => ?last, fun hpad => ?padding⟩
  case length =>
    rw [readEntry_of_zero hp hr hp' hr' hlen]
    exact ⟨_, corruptHere_readOn, rfl, rfl, rfl, rfl⟩
  case bit =>
    rw [walkPath_of_noBit hp hr (codeBit_eq_none h0 h1)]
    exact here
  case inner =>
    obtain ⟨bit, hb, hchild⟩ := child hstep
    rw [walkPath_inner hp hr hb hn, innerStep_of_leaf (s := s.readOn) hchild hch hk]
    exact here
  case last =>
    obtain ⟨bit, hb, hchild⟩ := child hstep
    rw [walkPath_last hp hr hb hn, lastStep_of_some hchild]
    exact here
  case padding =>
    rw [readPadding_of_gt hp hr hpad]
    exact here

/-! ### However it ends -/

/-- The two faults of HUNPACK reading the input of `s` (R231, R341). -/
structure HeaderFault (s t : State) : Prop where
  unit   : t.faultUnit = .headerUnpacker
  record : (t.status = some .corruptArchive ∧ t.faultInfo ≤ s.inLen) ∨
    (t.status = some .inputFault ∧ t.faultInfo < s.inLen ∧ s.params.readFails t.faultInfo = true)

theorem HeaderFault.congr (h : HeaderFault u t) (hlen : u.inLen = s.inLen) (hparams : u.params = s.params) :
    HeaderFault s t := by
  obtain ⟨hunit, hrecord⟩ := h
  rw [hlen, hparams] at hrecord
  exact ⟨hunit, hrecord⟩

theorem Run.Ends.headerFault {r : Run α} {Q : α → State → Prop} (h : r.Ends Q (HeaderFault u))
    (hlen : u.inLen = s.inLen) (hparams : u.params = s.params) : r.Ends Q (HeaderFault s) :=
  h.mono (fun _ _ => id) fun _ hf => hf.congr hlen hparams

/-- The next header byte, or one of the two faults (R76). -/
theorem nextByte_ends (hphase : u.phase = .headerUnpacker) (hptr : u.inPtr ≤ u.inLen) :
    (nextByte u).Ends (fun v t => v = u.inAt u.inPtr.toNat ∧ u.inPtr < u.inLen ∧ t = u.readOn) (HeaderFault u) := by
  rcases inByte_cases u.inPtr u with ⟨hp, -, h⟩ | ⟨hp, hr, h⟩ | ⟨-, -, h⟩ | ⟨-, hne, -⟩
  · rw [nextByte, h]
    exact ⟨rfl, hp, rfl⟩
  · rw [nextByte, h]
    exact ⟨hphase, .inr ⟨rfl, hp, hr⟩⟩
  · rw [nextByte, h]
    exact ⟨hphase, .inl ⟨rfl, hptr⟩⟩
  · exact absurd hphase hne

/-- HUNPACK behind a byte of an entry: the fields an entry writes, and where the cursor stands (R235, R236). -/
structure InEntry (s t : State) : Prop where
  frame   : ∃ nodes n p, t = { s with node := nodes, nodeCount := n, inPtr := p }
  cursor  : t.inPtr ≠ 0 ∧ t.inPtr ≤ t.inLen
  weights : ∀ n ∈ t.node, n.weight = 0

theorem readOn_cursor (hp : u.inPtr < u.inLen) : u.readOn.inPtr ≠ 0 ∧ u.readOn.inPtr ≤ u.readOn.inLen := by
  have hsucc : (u.inPtr + 1).toNat = u.inPtr.toNat + 1 := outLen_succ hp
  refine ⟨fun h0 => ?_, ?_⟩
  · have : (u.inPtr + 1).toNat = 0 := congrArg BitVec.toNat h0
    omega
  · exact BitVec.le_def.2 (hsucc.trans_le (BitVec.lt_def.1 hp))

theorem InEntry.keeps (h : InEntry s u) : u.inLen = s.inLen ∧ u.params = s.params ∧ u.phase = s.phase := by
  obtain ⟨⟨nodes, n, p, rfl⟩, -, -⟩ := h
  exact ⟨rfl, rfl, rfl⟩

theorem InEntry.readOn (h : InEntry s u) (hp : u.inPtr < u.inLen) : InEntry s u.readOn := by
  refine ⟨?_, readOn_cursor hp, h.weights⟩
  obtain ⟨nodes, n, p, rfl⟩ := h.frame
  exact ⟨_, _, _, rfl⟩

/-- A new child leaves the other fields of a node alone. -/
theorem withChild_fields (nd : Node) (bit : Bool) (c : NodeIx) : (nd.withChild bit c).kind = nd.kind ∧
    (nd.withChild bit c).sym = nd.sym ∧ (nd.withChild bit c).weight = nd.weight := by
  cases bit <;> exact ⟨rfl, rfl, rfl⟩

theorem InEntry.growChild (h : InEntry s u) (cur : NodeIx) (bit : Bool) {n : Node} (hn : n.weight = 0) :
    InEntry s (u.growChild cur bit n) := by
  refine ⟨?_, h.cursor, fun m hm => ?_⟩
  · obtain ⟨nodes, k, p, rfl⟩ := h.frame
    exact ⟨_, _, _, rfl⟩
  · obtain ⟨j, hj⟩ := List.mem_iff_getElem?.1 hm
    rw [State.growChild, State.linkChild_node, State.alloc_node, List.getElem?_modify] at hj
    obtain ⟨m', hm', rfl⟩ := Option.map_eq_some_iff.1 hj
    have h0 : m'.weight = 0 := by
      rcases List.mem_append.1 (List.mem_of_getElem? hm') with hold | hnew
      · exact h.weights m' hold
      · rwa [List.mem_singleton.1 hnew]
    split
    · exact (withChild_fields m' bit _).2.2.trans h0
    · exact h0

section InEntry

variable (hphase : s.phase = .headerUnpacker)
include hphase

/-- The byte a failed check names stands below `IN_LEN` (R239). -/
theorem InEntry.corrupt {Q : α → State → Prop} (h : InEntry s u) : (corruptHere u).Ends Q (HeaderFault s) := by
  obtain ⟨hlen, -, hp⟩ := h.keeps
  obtain ⟨h0, hle⟩ := h.cursor
  refine ⟨hp.trans hphase, .inl ⟨rfl, ?_⟩⟩
  show u.inPtr - 1 ≤ s.inLen
  bv_omega

theorem InEntry.nextByte (h : InEntry s u) :
    (nextByte u).Ends (fun _ t => InEntry s t) (HeaderFault s) := by
  obtain ⟨hlen, hparams, hp⟩ := h.keeps
  refine ((nextByte_ends (hp.trans hphase) h.cursor.2).headerFault hlen hparams).mono ?_ fun _ => id
  rintro v _ ⟨-, hlt, rfl⟩
  exact h.readOn hlt

theorem InEntry.innerStep (h : InEntry s u) (cur : NodeIx) (nd : Node) (bit : Bool) :
    (innerStep cur nd bit u).Ends (fun _ t => InEntry s t) (HeaderFault s) := by
  cases hc : nd.child bit with
  | none =>
    rw [innerStep_of_none hc]
    exact h.growChild cur bit rfl
  | some ch =>
    cases hn : u.nodeAt ch with
    | none =>
      simp only [Machine.innerStep, hc, hn]
      trivial
    | some n =>
      cases hk : n.kind with
      | leaf =>
        rw [innerStep_of_leaf hc hn hk]
        exact h.corrupt hphase
      | internal =>
        rw [innerStep_of_internal hc hn hk]
        exact h

theorem InEntry.lastStep (h : InEntry s u) (sym : Byte) (cur : NodeIx) (nd : Node) (bit : Bool) :
    (lastStep sym cur nd bit u).Ends (fun _ t => InEntry s t) (HeaderFault s) := by
  cases hc : nd.child bit with
  | none =>
    rw [lastStep_of_none hc]
    exact h.growChild cur bit rfl
  | some ch =>
    rw [lastStep_of_some hc]
    exact h.corrupt hphase

theorem InEntry.walkPath (sym : Byte) (left : Nat) (cur : NodeIx) (h : InEntry s u) :
    (walkPath sym left cur u).Ends (fun _ t => InEntry s t) (HeaderFault s) := by
  induction left generalizing cur u with
  | zero => exact h
  | succ left ih =>
    rw [Machine.walkPath]
    refine (h.nextByte hphase).andThen fun c v hv => ?_
    cases codeBit c with
    | none => exact hv.corrupt hphase
    | some bit =>
      dsimp only
      cases v.nodeAt cur with
      | none => trivial
      | some nd =>
        cases left with
        | zero => exact hv.lastStep hphase sym cur nd bit
        | succ left => exact (hv.innerStep hphase cur nd bit).andThen fun next t ht => ih next ht

theorem InEntry.readEntry (h : InEntry s u) : (readEntry u).Ends (fun _ t => InEntry s t) (HeaderFault s) := by
  refine (h.nextByte hphase).andThen fun sym v hv => (hv.nextByte hphase).andThen fun len w hw => ?_
  split
  · exact hw.corrupt hphase
  · cases w.root with
    | none => trivial
    | some root => exact hw.walkPath hphase sym len.toNat root

end InEntry

/-- Every entry takes one off `HU_COUNT` (R236). -/
theorem readEntries_ends (n : Nat) (hphase : s.phase = .headerUnpacker) (h : InEntry s u)
    (hcount : s.huCount.toNat = n) :
    (readEntries n u).Ends (fun _ t => InEntry { s with huCount := 0 } t) (HeaderFault s) := by
  induction n generalizing s u with
  | zero =>
    obtain ⟨⟨nodes, n, p, rfl⟩, hcursor, hweights⟩ := h
    have h0 : s.huCount = 0 := BitVec.eq_of_toNat_eq hcount
    exact ⟨⟨nodes, n, p, by rw [← h0]⟩, hcursor, hweights⟩
  | succ n ih =>
    refine (h.readEntry hphase).andThen fun _ t ht => ?_
    have hpred : (s.huCount - 1).toNat = n := by bv_omega
    have hnext : InEntry { s with huCount := s.huCount - 1 } { t with huCount := t.huCount - 1 } := by
      obtain ⟨⟨nodes, n, p, rfl⟩, hcursor, hweights⟩ := ht
      exact ⟨⟨nodes, n, p, rfl⟩, hcursor, hweights⟩
    exact (ih (s := { s with huCount := s.huCount - 1 }) hphase hnext hpred).headerFault rfl rfl

/-- What HUNPACK gives of the non-empty input of `s` (R237). -/
structure HeaderGiven (s t : State) : Prop where
  status  : t.status = s.status
  root    : t.root = some 0
  hdrLen  : t.hdrLen = t.inPtr
  inside  : t.hdrLen ≤ s.inLen
  alpha   : t.alpha.toNat = (s.inAt 0).toNat + 1
  huCount : t.huCount = 0
  weights : ∀ n ∈ t.node, n.weight = 0

theorem readPadding_ends (hphase : s.phase = .headerUnpacker) (h : InEntry s u) :
    (readPadding u).Ends
      (fun _ t => ∃ v pad, InEntry s v ∧ t = { v with padding := pad, hdrLen := v.inPtr }) (HeaderFault s) := by
  refine (h.nextByte hphase).andThen fun pad v hv => ?_
  split
  · exact hv.corrupt hphase
  · exact ⟨v, _, hv, rfl⟩

theorem openHeader_alpha (n : Byte) (s : State) : (s.openHeader n).alpha.toNat = n.toNat + 1 := by
  have h : (s.openHeader n).alpha = n.setWidth 9 + 1 := rfl
  rw [h]
  bv_omega

/-- The root alone in the arena, behind the count byte (R233, R234). -/
theorem openHeader_inEntry (hnode : u.node = []) (hp : u.inPtr < u.inLen) (n : Byte) :
    InEntry (u.readOn.openHeader n) (u.readOn.openHeader n) := by
  refine ⟨⟨_, _, _, rfl⟩, readOn_cursor hp, fun m hm => ?_⟩
  have hnodes : (u.readOn.openHeader n).node = [Node.bare] := congrArg (· ++ [Node.bare]) hnode
  rw [hnodes, List.mem_singleton] at hm
  rw [hm]
  rfl

theorem readHeader_ends (hphase : u.phase = .headerUnpacker) (hptr : u.inPtr = 0) (hnode : u.node = [])
    (hcount : u.nodeCount = 0) : (readHeader u).Ends (fun _ t => HeaderGiven u t) (HeaderFault u) := by
  have h0 : u.inPtr ≤ u.inLen := hptr ▸ BitVec.le_def.2 (Nat.zero_le _)
  refine (nextByte_ends hphase h0).andThen ?_
  rintro n _ ⟨hn, hp, rfl⟩
  have hentries := readEntries_ends (s := u.readOn.openHeader n) _ hphase (openHeader_inEntry hnode hp n) rfl
  refine (hentries.headerFault (s := u) rfl rfl).andThen fun _ v hv => ?_
  have hpad := readPadding_ends (s := { u.readOn.openHeader n with huCount := 0 }) hphase hv
  refine (hpad.headerFault (s := u) rfl rfl).mono ?_ fun _ => id
  rintro - _ ⟨w, pad, ⟨⟨nodes, k, p, rfl⟩, ⟨-, hle⟩, hweights⟩, rfl⟩
  refine ⟨rfl, congrArg some hcount, rfl, hle, ?_, rfl, hweights⟩
  rw [hptr] at hn
  exact hn ▸ openHeader_alpha n u.readOn

theorem hunpackUnit_eq (hne : s.inLen ≠ 0) : hunpackUnit s =
    (readHeader (s.startUnit .headerUnpacker).unpackStart).andThen fun _ t =>
      .ok () (t.endUnit { t.valid with hdrr := true }) := by
  have hlen : (s.startUnit .headerUnpacker).unpackStart.inLen ≠ 0 := hne
  rw [hunpackUnit]
  dsimp only
  rw [if_neg hlen]

/-- HUNPACK of a non-empty input: the header given, or one of the two faults (R237, R341). -/
theorem hunpackUnit_ends (hne : s.inLen ≠ 0) :
    (hunpackUnit s).Ends (fun _ t => HeaderGiven s t) (HeaderFault s) := by
  rw [hunpackUnit_eq hne]
  have hread := readHeader_ends (u := (s.startUnit .headerUnpacker).unpackStart) rfl rfl rfl rfl
  refine (hread.headerFault (s := s) rfl rfl).andThen fun _ t ht => ?_
  exact ⟨ht.status, ht.root, ht.hdrLen, ht.inside, ht.alpha, ht.huCount, ht.weights⟩

/-- A run that does not stop the model ends where it can end. -/
theorem Run.Meets.of_ends {r : Run α} {Q Q' : α → State → Prop} {R R' : State → Prop} (h : r.Meets Q R)
    (h' : r.Ends Q' R') : r.Meets (fun a t => Q a t ∧ Q' a t) R' := by
  cases r with
  | ok a t => exact ⟨h, h'⟩
  | raised t => exact h'
  | stuck f => exact h

/-- Settles O33: the arena invariant excludes a stop of the model, and `hunpackUnit_ends` names what is left. -/
theorem hunpackAlwaysEnds : Obligations.HunpackAlwaysEnds := by
  unfold Obligations.HunpackAlwaysEnds
  intro s ha hne
  have hends := hunpackUnit_ends (s := { s with busy := true }) hne
  obtain ⟨t, ht, ⟨u, ⟨⟨-, -, hframe⟩, hu⟩, rfl⟩ | hf⟩ := ((hunpackUnit_meets _).of_ends hends).finish
  · have hvalid : u.valid = { Valid.allClear with hdrr := true } := by
      obtain ⟨_, _, _, _, _, _, _, _, rfl⟩ := hframe
      rfl
    exact ⟨_, (accept_run hunpackUnit ha.1 ha.2).trans ht, .inl ⟨hu.status.trans ha.2, hvalid, hu.root, hu.hdrLen,
      hu.inside, hu.alpha, hu.huCount, hu.weights⟩⟩
  · refine ⟨t, (accept_run hunpackUnit ha.1 ha.2).trans ht, .inr (hf.record.imp ?_ ?_)⟩
    · exact fun ⟨hstatus, hinfo⟩ => ⟨hstatus, hf.unit, hinfo⟩
    · exact fun ⟨hstatus, hinfo⟩ => ⟨hstatus, hf.unit, hinfo⟩

end Sys2Proof.Machine

/-! ## HUNPACK: the tree of a header that a reader accepts (R233 to R237, R243 to R247) -/

namespace Sys2Proof.Machine

variable {s t u : State} {sym : Byte} {cur : NodeIx} {nd : Node} {bit : Bool} {T U : HTree}

/-! ### A leaf placed in a tree -/

/-- An internal node without children (R234). -/
def HTree.bare : HTree := .fork 0 .null .null

/-- An internal node allocated on demand, where none stands yet (R235). -/
def HTree.opened : HTree → HTree
  | .fork w l r => .fork w l r
  | _ => .bare

/-- An internal node with one subtree replaced. -/
def HTree.withChild (T : HTree) (bit : Bool) (c : HTree) : HTree :=
  match T with
  | .fork w l r => if bit then .fork w l c else .fork w c r
  | T => T

/-- The tree with a new leaf at the end of a path (R235). -/
def HTree.plant (sym : Byte) : Code → HTree → HTree
  | [], _ => .leaf sym 0
  | bit :: p, T => T.opened.withChild bit ((T.sub [bit]).plant sym p)

/-- A new leaf may stand at the end of the path: the place is empty, and no leaf stands on the way (R245). -/
structure HTree.Free (T : HTree) (p : Code) : Prop where
  place : T.sub p = .null
  way   : ∀ q, q <+: p → T.leafAt q = none

theorem HTree.sub_nil (T : HTree) : T.sub [] = T := by
  cases T <;> rfl

theorem HTree.sub_cons (T : HTree) (bit : Bool) (p : Code) : T.sub (bit :: p) = (T.sub [bit]).sub p :=
  T.sub_append [bit] p

theorem HTree.leafAt_cons (T : HTree) (bit : Bool) (p : Code) : T.leafAt (bit :: p) = (T.sub [bit]).leafAt p := by
  rw [leafAt, sub_cons, leafAt]

theorem HTree.leafAt_nil_of_isFork (h : T.isFork = true) : T.leafAt [] = none := by
  cases T with
  | null => exact nomatch h
  | leaf b w => exact nomatch h
  | fork w l r => rfl

theorem HTree.isFork_of_ne_null (hne : T ≠ .null) (hleaf : T.leafAt [] = none) : T.isFork = true := by
  cases T with
  | null => exact absurd rfl hne
  | leaf b w => exact nomatch hleaf
  | fork w l r => rfl

theorem HTree.isFork_opened (T : HTree) : T.opened.isFork = true := by
  cases T <;> rfl

theorem HTree.opened_of_isFork (h : T.isFork = true) : T.opened = T := by
  cases T with
  | null => exact nomatch h
  | leaf b w => exact nomatch h
  | fork w l r => rfl

theorem HTree.sub_opened_cons (T : HTree) (bit : Bool) (p : Code) : T.opened.sub (bit :: p) = T.sub (bit :: p) := by
  have hnull : ∀ p : Code, HTree.null.sub p = .null := fun p => by cases p <;> rfl
  cases T with
  | null => cases bit <;> exact hnull p
  | leaf b w => cases bit <;> exact hnull p
  | fork w l r => rfl

theorem HTree.isFork_withChild (bit : Bool) (c : HTree) (h : T.isFork = true) : (T.withChild bit c).isFork = true := by
  cases T with
  | null => exact nomatch h
  | leaf b w => exact nomatch h
  | fork w l r => cases bit <;> rfl

theorem HTree.sub_withChild_self (bit : Bool) (c : HTree) (h : T.isFork = true) :
    (T.withChild bit c).sub [bit] = c := by
  cases T with
  | null => exact nomatch h
  | leaf b w => exact nomatch h
  | fork w l r => cases bit <;> exact c.sub_nil

theorem HTree.sub_withChild_ne {bit other : Bool} (c : HTree) (T : HTree) (h : other ≠ bit) :
    (T.withChild bit c).sub [other] = T.sub [other] := by
  cases T with
  | null => rfl
  | leaf b w => rfl
  | fork w l r =>
    cases bit <;> cases other
    · exact absurd rfl h
    · rfl
    · rfl
    · exact absurd rfl h

theorem HTree.withChild_withChild (bit : Bool) (c d : HTree) (T : HTree) :
    (T.withChild bit c).withChild bit d = T.withChild bit d := by
  cases T <;> cases bit <;> rfl

theorem HTree.withChild_sub (bit : Bool) (T : HTree) : T.withChild bit (T.sub [bit]) = T := by
  cases T with
  | null => rfl
  | leaf b w => rfl
  | fork w l r =>
    cases bit
    · exact congrArg (HTree.fork w · r) l.sub_nil
    · exact congrArg (HTree.fork w l ·) r.sub_nil

theorem HTree.weight_withChild (T : HTree) (bit : Bool) (c : HTree) : (T.withChild bit c).weight = T.weight := by
  cases T <;> cases bit <;> rfl

theorem HTree.isFork_plant {p : Code} (hp : p ≠ []) (sym : Byte) (T : HTree) : (T.plant sym p).isFork = true := by
  cases p with
  | nil => exact absurd rfl hp
  | cons bit p => exact isFork_withChild _ _ T.isFork_opened

theorem HTree.plant_opened {p : Code} (hp : p ≠ []) (sym : Byte) (T : HTree) :
    T.opened.plant sym p = T.plant sym p := by
  cases p with
  | nil => exact absurd rfl hp
  | cons bit p => rw [plant, plant, opened_of_isFork T.isFork_opened, sub_opened_cons]

theorem HTree.Free.tail {p : Code} (h : T.Free (bit :: p)) : (T.sub [bit]).Free p where
  place := (T.sub_cons bit p).symm.trans h.place
  way q hq := (T.leafAt_cons bit q).symm.trans (h.way _ (List.cons_prefix_cons.2 ⟨rfl, hq⟩))

theorem HTree.Free.opened {p : Code} (h : T.Free (bit :: p)) : T.opened.Free (bit :: p) where
  place := (T.sub_opened_cons bit p).trans h.place
  way q hq := by
    cases q with
    | nil => exact leafAt_nil_of_isFork T.isFork_opened
    | cons other q => rw [leafAt, sub_opened_cons, ← leafAt, h.way _ hq]

/-- What stands in the planted tree at a path of a bit and more. -/
theorem HTree.sub_plant_cons (sym : Byte) (T : HTree) (bit : Bool) (p : Code) (other : Bool) (q : Code) :
    (T.plant sym (bit :: p)).sub (other :: q) =
      if other = bit then ((T.sub [bit]).plant sym p).sub q else T.sub (other :: q) := by
  rw [plant, sub_cons]
  split
  · next e => rw [e, sub_withChild_self _ _ T.isFork_opened]
  · next e => rw [sub_withChild_ne _ _ e, ← sub_cons, sub_opened_cons]

/-- The new leaf is the only one that is added, and none is lost. -/
theorem HTree.leafAt_plant {p : Code} (h : T.Free p) (q : Code) (b : Byte) :
    (T.plant sym p).leafAt q = some b ↔ T.leafAt q = some b ∨ (b, q) = (sym, p) := by
  induction p generalizing T q with
  | nil =>
    have hT : T = .null := T.sub_nil.symm.trans h.place
    rw [plant, leafAt_leaf, hT, leafAt_null]
    simp [and_comm, eq_comm]
  | cons bit p ih =>
    cases q with
    | nil =>
      rw [leafAt_nil_of_isFork (isFork_plant (List.cons_ne_nil _ _) sym T), h.way [] List.nil_prefix]
      simp
    | cons other q =>
      rw [leafAt, sub_plant_cons]
      by_cases e : other = bit
      · rw [if_pos e, ← leafAt, ih h.tail, e, leafAt_cons]
        simp
      · rw [if_neg e, ← leafAt]
        simp [e]

/-- The new path is all that is added. -/
theorem HTree.sub_plant_ne_null {p q : Code} (h : (T.plant sym p).sub q ≠ .null) : T.sub q ≠ .null ∨ q <+: p := by
  induction p generalizing T q with
  | nil =>
    cases q with
    | nil => exact .inr List.nil_prefix
    | cons other q => exact absurd rfl h
  | cons bit p ih =>
    cases q with
    | nil => exact .inr List.nil_prefix
    | cons other q =>
      rw [sub_plant_cons] at h
      split at h
      · next e =>
        rw [e, sub_cons]
        exact (ih h).imp_right fun hq => List.cons_prefix_cons.2 ⟨rfl, hq⟩
      · exact .inl h

/-! ### The tree of a list of entries -/

/-- The tree holds the entries and nothing else: every node below the root is on the path of one (R235, R237). -/
structure HTree.Holds (T : HTree) (entries : List (Byte × Code)) : Prop where
  isFork : T.isFork = true
  leaves : ∀ p b, T.leafAt p = some b ↔ (b, p) ∈ entries
  nodes  : ∀ p, p ≠ [] → T.sub p ≠ .null → ∃ e ∈ entries, p <+: e.2

theorem HTree.holds_bare : HTree.bare.Holds [] := by
  have hnull : ∀ p : Code, p ≠ [] → HTree.bare.sub p = .null := fun p hp => by
    match p with
    | [] => exact absurd rfl hp
    | [false] => rfl
    | [true] => rfl
    | false :: _ :: _ => rfl
    | true :: _ :: _ => rfl
  refine ⟨rfl, fun p b => ?_, fun p hp h => absurd (hnull p hp) h⟩
  by_cases hp : p = []
  · simp [hp, leafAt, sub_nil, bare]
  · simp [leafAt, hnull p hp]

section Holds

variable {entries : List (Byte × Code)} {e : Byte × Code} (h : T.Holds entries) (he : e.2 ≠ [])
  (hfree : ∀ f ∈ entries, ¬ f.2 <+: e.2 ∧ ¬ e.2 <+: f.2)
include h he hfree

/-- A code that neither begins another entry's nor goes on from it finds its place (R245). -/
theorem HTree.Holds.free : T.Free e.2 where
  place := by
    by_contra hne
    obtain ⟨f, hf, hpre⟩ := h.nodes e.2 he hne
    exact (hfree f hf).2 hpre
  way q hq := by
    by_contra hne
    obtain ⟨b, hb⟩ := Option.ne_none_iff_exists'.1 hne
    exact (hfree _ ((h.leaves q b).1 hb)).1 hq

theorem HTree.Holds.plant : (T.plant e.1 e.2).Holds (entries ++ [e]) where
  isFork := isFork_plant he _ _
  leaves p b := by
    rw [leafAt_plant (h.free he hfree), h.leaves, List.mem_append, List.mem_singleton]
  nodes p hp hne := by
    rcases sub_plant_ne_null hne with hold | hnew
    · obtain ⟨f, hf, hpre⟩ := h.nodes p hp hold
      exact ⟨f, List.mem_append_left _ hf, hpre⟩
    · exact ⟨e, List.mem_append_right _ (List.mem_singleton_self e), hnew⟩

end Holds

/-- The paths that CDERIVE's walk gives the leaves start with the path of the tree. -/
theorem HTree.prefix_of_mem_codesFrom {path q : Code} {b : Byte} {w : Count} (h : (b, q, w) ∈ T.codesFrom path) :
    path <+: q := by
  obtain ⟨p, rfl, -⟩ := mem_codesFrom.1 ⟨w, h⟩
  exact List.prefix_append path p

/-- No two leaves stand at the same path. -/
theorem HTree.codesFrom_nodup (T : HTree) (path : Code) :
    ((T.codesFrom path).map fun e => (e.1, e.2.1)).Nodup := by
  induction T generalizing path with
  | null => exact List.nodup_nil
  | leaf b w => exact List.nodup_singleton _
  | fork w l r ihl ihr =>
    rw [codesFrom, List.map_append]
    refine (ihl _).append (ihr _) fun x hl hr => ?_
    obtain ⟨⟨b, q, w⟩, hml, rfl⟩ := List.mem_map.1 hl
    obtain ⟨⟨b', q', w'⟩, hmr, hq⟩ := List.mem_map.1 hr
    obtain ⟨-, rfl⟩ := Prod.mk.inj hq
    obtain ⟨x, hx⟩ := prefix_of_mem_codesFrom hml
    obtain ⟨y, hy⟩ := prefix_of_mem_codesFrom hmr
    simpa using hx.trans hy.symm

/-- A tree that holds different entries has as many leaves. -/
theorem HTree.Holds.length_leaves {entries : List (Byte × Code)} (h : T.Holds entries) (hnodup : entries.Nodup) :
    T.leaves.length = entries.length := by
  have hperm : ((T.codesFrom []).map fun e => (e.1, e.2.1)).Perm entries := by
    refine (List.perm_ext_iff_of_nodup (codesFrom_nodup T []) hnodup).2 fun ⟨b, p⟩ => ?_
    rw [← h.leaves p b]
    have hmem := mem_codesFrom (T := T) (path := []) (q := p) (b := b)
    simpa using hmem
  rw [← hperm.length_eq, List.length_map, ← codesFrom_map_leaf T [], List.length_map]

theorem EntriesOk.nodup {entries : List (Byte × Code)} (h : EntriesOk entries) : entries.Nodup :=
  h.prefixFree.imp fun ⟨hne, _⟩ e => hne (e ▸ List.prefix_refl _)

/-! ### A node added to the arena -/

/-- The link stands for the tree in the arena of `s`, and `pos` gives every node of it the path it stands at: a tree
that hangs at the path `p` shares no node with one that hangs elsewhere. -/
def Hangs (s : State) (pos : NodeIx → Code) : Link → Code → HTree → Prop
  | link, _, .null => link = none
  | link, p, .leaf b w =>
    ∃ i, link = some i ∧ pos i = p ∧
      s.nodeAt i = some { kind := .leaf, left := none, right := none, sym := b, weight := w }
  | link, p, .fork w l r =>
    ∃ i nd, link = some i ∧ pos i = p ∧ s.nodeAt i = some nd ∧ (nd.kind = .internal ∧ nd.sym = 0 ∧ nd.weight = w) ∧
      Hangs s pos nd.left (p ++ [false]) l ∧ Hangs s pos nd.right (p ++ [true]) r

variable {pos : NodeIx → Code} {link : Link} {p q : Code}

theorem Hangs.represents (h : Hangs s pos link p T) : Represents s link T := by
  induction T generalizing link p with
  | null => exact h
  | leaf b w =>
    obtain ⟨i, hi, -, hn⟩ := h
    exact ⟨i, hi, hn⟩
  | fork w l r ihl ihr =>
    obtain ⟨i, nd, hi, -, hn, hnode, hl, hr⟩ := h
    obtain ⟨k, left, right, b, w'⟩ := nd
    obtain ⟨rfl, rfl, rfl⟩ := hnode
    exact ⟨i, left, right, hi, hn, ihl hl, ihr hr⟩

theorem Hangs.eq_null (h : Hangs s pos none p T) : T = .null := represents_none_iff.1 h.represents

theorem Hangs.ne_null {i : NodeIx} (h : Hangs s pos (some i) p T) : T ≠ .null :=
  fun e => not_represents_some_null (e ▸ h.represents)

/-- A tree below an internal node, by its sides. -/
theorem hangs_fork_iff (hT : T.isFork = true) :
    Hangs s pos (some cur) p T ↔ pos cur = p ∧ ∃ nd, s.nodeAt cur = some nd ∧
      (nd.kind = .internal ∧ nd.sym = 0 ∧ nd.weight = T.weight) ∧
      ∀ bit, Hangs s pos (nd.child bit) (p ++ [bit]) (T.sub [bit]) := by
  cases T with
  | null => exact nomatch hT
  | leaf b w => exact nomatch hT
  | fork w l r =>
    have hl : (HTree.fork w l r).sub [false] = l := l.sub_nil
    have hr : (HTree.fork w l r).sub [true] = r := r.sub_nil
    constructor
    · rintro ⟨i, nd, hi, hpos, hn, hnode, h0, h1⟩
      obtain rfl := Option.some.inj hi
      refine ⟨hpos, nd, hn, hnode, fun bit => ?_⟩
      cases bit
      · rwa [hl]
      · rwa [hr]
    · rintro ⟨hpos, nd, hn, hnode, h⟩
      have h0 := h false
      have h1 := h true
      rw [hl] at h0
      rw [hr] at h1
      exact ⟨cur, nd, rfl, hpos, hn, hnode, h0, h1⟩

/-- Where `NODE[cur]` stands, and what hangs on its sides. -/
theorem Hangs.sides (hT : Hangs s pos (some cur) q T) (hfork : T.isFork = true) (hn : s.nodeAt cur = some nd) :
    pos cur = q ∧ (nd.kind = .internal ∧ nd.sym = 0 ∧ nd.weight = T.weight) ∧
      ∀ bit, Hangs s pos (nd.child bit) (q ++ [bit]) (T.sub [bit]) := by
  obtain ⟨hpos, nd', hn', h⟩ := (hangs_fork_iff hfork).1 hT
  obtain rfl : nd' = nd := Option.some.inj (hn'.symm.trans hn)
  exact ⟨hpos, h⟩

/-- From the arena of `s` to that of `t` the nodes stay that stand at a path with `P`. -/
def KeptAt (P : Code → Prop) (s t : State) (pos pos' : NodeIx → Code) : Prop :=
  ∀ i nd, s.nodeAt i = some nd → P (pos i) → t.nodeAt i = some nd ∧ pos' i = pos i

variable {pos' pos'' : NodeIx → Code} {P Q : Code → Prop}

theorem KeptAt.mono (h : KeptAt P s t pos pos') (hPQ : ∀ p, Q p → P p) : KeptAt Q s t pos pos' :=
  fun i nd hn hq => h i nd hn (hPQ _ hq)

theorem KeptAt.trans (h : KeptAt P s t pos pos') (k : KeptAt P t u pos' pos'') : KeptAt P s u pos pos'' := by
  intro i nd hn hP
  obtain ⟨hn', hpos⟩ := h i nd hn hP
  obtain ⟨hn'', hpos'⟩ := k i nd hn' (hpos.symm ▸ hP)
  exact ⟨hn'', hpos'.trans hpos⟩

theorem KeptAt.outside (h : KeptAt (· ≠ q) s t pos pos') : KeptAt (fun p => ¬ q <+: p) s t pos pos' :=
  h.mono fun p hp e => hp (e ▸ List.prefix_refl p)

/-- A tree stays where none of its nodes is written. -/
theorem Hangs.kept (h : Hangs s pos link p T) (hk : KeptAt P s t pos pos') (hP : ∀ x, P (p ++ x)) :
    Hangs t pos' link p T := by
  have hhere : P p := p.append_nil ▸ hP []
  induction T generalizing link p with
  | null => exact h
  | leaf b w =>
    obtain ⟨i, hi, hpos, hn⟩ := h
    obtain ⟨hn', hpos'⟩ := hk i _ hn (hpos.symm ▸ hhere)
    exact ⟨i, hi, hpos'.trans hpos, hn'⟩
  | fork w l r ihl ihr =>
    obtain ⟨i, nd, hi, hpos, hn, hnode, hl, hr⟩ := h
    obtain ⟨hn', hpos'⟩ := hk i _ hn (hpos.symm ▸ hhere)
    have below : ∀ bit x, P (p ++ [bit] ++ x) := fun bit x => (List.append_assoc p [bit] x).symm ▸ hP (bit :: x)
    exact ⟨i, nd, hi, hpos'.trans hpos, hn', hnode, ihl hl (below false) (hP _), ihr hr (below true) (hP _)⟩

theorem Hangs.congr (h : Hangs s pos link p T) (hnode : t.node = s.node) : Hangs t pos link p T :=
  h.kept (P := fun _ => True) (fun i _ hn _ => ⟨by rw [State.nodeAt, hnode]; exact hn, rfl⟩) fun _ => trivial

theorem child_withChild_self (nd : Node) (bit : Bool) (c : NodeIx) : (nd.withChild bit c).child bit = some c := by
  cases bit <;> rfl

theorem child_withChild_ne {bit other : Bool} (nd : Node) (c : NodeIx) (h : other ≠ bit) :
    (nd.withChild bit c).child other = nd.child other := by
  cases bit <;> cases other
  · exact absurd rfl h
  · rfl
  · rfl
  · exact absurd rfl h

theorem withChild_of_child {c : NodeIx} (h : nd.child bit = some c) : nd.withChild bit c = nd := by
  obtain ⟨k, left, right, b, w⟩ := nd
  cases bit
  · obtain rfl : left = some c := h
    rfl
  · obtain rfl : right = some c := h
    rfl

/-- A subtree of `NODE[cur]` is replaced, and the other one kept. -/
theorem Hangs.withChild {c : NodeIx} {C : HTree} (hT : Hangs s pos (some cur) q T) (hfork : T.isFork = true)
    (hn : s.nodeAt cur = some nd) (hn' : t.nodeAt cur = some (nd.withChild bit c)) (hcur : pos' cur = pos cur)
    (hk : KeptAt (fun p => p ≠ q ∧ ¬ q ++ [bit] <+: p) s t pos pos') (hC : Hangs t pos' (some c) (q ++ [bit]) C) :
    Hangs t pos' (some cur) q (T.withChild bit C) := by
  obtain ⟨hpos, ⟨hkind, hsym, hweight⟩, hsides⟩ := hT.sides hfork hn
  obtain ⟨hk', hs', hw'⟩ := withChild_fields nd bit c
  refine (hangs_fork_iff (HTree.isFork_withChild bit C hfork)).2 ⟨hcur.trans hpos, _, hn',
    ⟨hk'.trans hkind, hs'.trans hsym, hw'.trans (hweight.trans (T.weight_withChild bit C).symm)⟩, fun other => ?_⟩
  by_cases e : other = bit
  · rw [e, child_withChild_self, HTree.sub_withChild_self bit C hfork]
    exact hC
  · rw [child_withChild_ne nd c e, HTree.sub_withChild_ne C T e]
    refine (hsides other).kept hk fun x => ⟨by simp, fun hpre => ?_⟩
    rw [List.append_assoc, List.prefix_append_right_inj] at hpre
    exact e (List.cons_prefix_cons.1 hpre).1.symm

/-- The nodes beside the one that gets a child stay, and the new one stands at its path. -/
theorem growChild_kept (hcount : u.node.length = u.nodeCount.toNat) (hcur : pos cur = q) (n : Node) :
    KeptAt (· ≠ q) u (u.growChild cur bit n) pos (Function.update pos u.nodeCount (q ++ [bit])) := by
  intro i m hm hne
  have hi : i ≠ cur := fun e => hne (e ▸ hcur)
  have hlt := nodeAt_lt hm
  refine ⟨?_, Function.update_of_ne (fun e => ?_) _ _⟩
  · have hne' : cur.toNat ≠ i.toNat := fun e => hi (BitVec.eq_of_toNat_eq e.symm)
    rw [State.growChild, State.nodeAt, State.linkChild_node, List.getElem?_modify_ne _ _ hne']
    exact alloc_nodeAt n hm
  · rw [e, hcount] at hlt
    exact Nat.lt_irrefl _ hlt

theorem growChild_nodeAt_cur (hn : u.nodeAt cur = some nd) (n : Node) :
    (u.growChild cur bit n).nodeAt cur = some (nd.withChild bit u.nodeCount) := by
  have hold : (u.node ++ [n])[cur.toNat]? = some nd := alloc_nodeAt n hn
  rw [State.growChild, State.nodeAt, State.linkChild_node, State.alloc_node, List.getElem?_modify_eq, hold]
  rfl

theorem growChild_nodeAt_new (hcount : u.node.length = u.nodeCount.toNat) (hn : u.nodeAt cur = some nd) (n : Node) :
    (u.growChild cur bit n).nodeAt u.nodeCount = some n := by
  have hne : cur.toNat ≠ u.nodeCount.toNat := hcount ▸ Nat.ne_of_lt (nodeAt_lt hn)
  rw [State.growChild, State.nodeAt, State.linkChild_node, List.getElem?_modify_ne _ _ hne]
  exact alloc_nodeAt_new hcount n

/-- A node allocated as a child is a tree below its parent. -/
theorem Hangs.growChild {C : HTree} (hT : Hangs u pos (some cur) q T) (hfork : T.isFork = true)
    (hcount : u.node.length = u.nodeCount.toNat) (hn : u.nodeAt cur = some nd) (n : Node)
    (hC : Hangs (u.growChild cur bit n) (Function.update pos u.nodeCount (q ++ [bit])) (some u.nodeCount)
      (q ++ [bit]) C) :
    Hangs (u.growChild cur bit n) (Function.update pos u.nodeCount (q ++ [bit])) (some cur) q
      (T.withChild bit C) := by
  have hcur : cur ≠ u.nodeCount := fun e => by
    have hlt := nodeAt_lt hn
    rw [e, hcount] at hlt
    exact Nat.lt_irrefl _ hlt
  obtain ⟨hpos, -⟩ := hT.sides hfork hn
  exact hT.withChild hfork hn (growChild_nodeAt_cur hn n) (Function.update_of_ne hcur _ _)
    ((growChild_kept hcount hpos n).mono fun _ h => h.1) hC

/-! ### The bytes of a header, one after the other -/

/-- The bytes still to be read of a header that ends below `n` (R111, R246). -/
structure Upcoming (n : Nat) (l : List Byte) (s : State) : Prop where
  ends     : s.inPtr.toNat + l.length = n
  fits     : n ≤ s.inLen.toNat
  readable : s.inputReadable
  bytes    : ∀ k v, l[k]? = some v → s.inAt (s.inPtr.toNat + k) = v

variable {n spare : Nat} {l : List Byte}

theorem Upcoming.congr (h : Upcoming n l s) (hptr : t.inPtr = s.inPtr) (hlen : t.inLen = s.inLen)
    (hparams : t.params = s.params) (hmem : t.inMem = s.inMem) : Upcoming n l t where
  ends := hptr ▸ h.ends
  fits := hlen ▸ h.fits
  readable a ha := hparams ▸ h.readable a (hlen ▸ ha)
  bytes k v hk := by
    rw [State.inAt, hmem, hptr]
    exact h.bytes k v hk

/-- The next byte can be read, and then the others follow. -/
theorem Upcoming.next {b : Byte} (h : Upcoming n (b :: l) u) : u.inPtr < u.inLen ∧
    u.params.readFails u.inPtr = false ∧ u.inAt u.inPtr.toNat = b ∧ Upcoming n l u.readOn := by
  obtain ⟨hends, hfits, hreadable, hbytes⟩ := h
  rw [List.length_cons] at hends
  have hp : u.inPtr < u.inLen := BitVec.lt_def.2 (by omega)
  have hsucc : u.readOn.inPtr.toNat = u.inPtr.toNat + 1 := outLen_succ hp
  refine ⟨hp, hreadable _ hp, hbytes 0 b rfl, by omega, hfits, hreadable, fun k v hk => ?_⟩
  rw [hsucc, Nat.add_assoc, Nat.add_comm 1]
  exact hbytes (k + 1) v hk

theorem codeBit_bitChar (bit : Bool) : codeBit (bitChar bit) = some bit := by
  cases bit <;> rfl

theorem Hangs.readOn (h : Hangs u pos link p T) : Hangs u.readOn pos link p T := h.congr rfl

/-- An inner step opens a node where none stands, and goes to it (R235). -/
theorem innerStep_opens (hup : Upcoming n l u) (hcount : u.node.length = u.nodeCount.toNat)
    (hT : Hangs u pos (some cur) q T) (hfork : T.isFork = true) (hn : u.nodeAt cur = some nd)
    (hleaf : T.leafAt [bit] = none) :
    ∃ next v pos', innerStep cur nd bit u = .ok next v ∧ Upcoming n l v ∧ KeptAt (· ≠ q) u v pos pos' ∧
      Hangs v pos' (some cur) q (T.withChild bit (T.sub [bit]).opened) ∧
      ∃ nd', v.nodeAt cur = some nd' ∧ nd'.child bit = some next := by
  obtain ⟨hpos, -, hsides⟩ := hT.sides hfork hn
  have hside := hsides bit
  cases hc : nd.child bit with
  | none =>
    rw [hc] at hside
    have hbare : (T.sub [bit]).opened = .bare := by rw [hside.eq_null]; rfl
    rw [hbare]
    refine ⟨_, _, _, innerStep_of_none hc, hup.congr rfl rfl rfl rfl, growChild_kept hcount hpos _,
      hT.growChild hfork hcount hn _ ?_, _, growChild_nodeAt_cur hn _, child_withChild_self ..⟩
    exact ⟨_, _, rfl, Function.update_self .., growChild_nodeAt_new hcount hn _, ⟨rfl, rfl, rfl⟩, rfl, rfl⟩
  | some ch =>
    rw [hc] at hside
    have hsub : (T.sub [bit]).isFork = true :=
      HTree.isFork_of_ne_null hside.ne_null ((T.leafAt_cons bit []).symm.trans hleaf)
    obtain ⟨-, m, hm, ⟨hk, -, -⟩, -⟩ := (hangs_fork_iff hsub).1 hside
    refine ⟨ch, u, pos, innerStep_of_internal hc hm hk, hup, fun i m hm _ => ⟨hm, rfl⟩, ?_, _, hn, hc⟩
    rw [HTree.opened_of_isFork hsub, HTree.withChild_sub]
    exact hT

/-- The last step puts the leaf on an empty side (R235). -/
theorem lastStep_plants (hup : Upcoming n l u) (hcount : u.node.length = u.nodeCount.toNat)
    (hT : Hangs u pos (some cur) q T) (hfork : T.isFork = true) (hn : u.nodeAt cur = some nd)
    (hnull : T.sub [bit] = .null) :
    ∃ t pos', lastStep sym cur nd bit u = .ok () t ∧ Upcoming n l t ∧ KeptAt (· ≠ q) u t pos pos' ∧
      Hangs t pos' (some cur) q (T.withChild bit (.leaf sym 0)) := by
  obtain ⟨hpos, -, hsides⟩ := hT.sides hfork hn
  have hside := hsides bit
  rw [hnull] at hside
  refine ⟨_, _, lastStep_of_none hside, hup.congr rfl rfl rfl rfl, growChild_kept hcount hpos _,
    hT.growChild hfork hcount hn _ ?_⟩
  exact ⟨_, rfl, Function.update_self .., growChild_nodeAt_new hcount hn _⟩

/-- Reading a free path plants its leaf, and writes only nodes that hang at or below `NODE[cur]` (R235). -/
theorem walkPath_plants (sym : Byte) {code : Code} (hne : code ≠ []) (h : Reading (spare + code.length) s u)
    (hup : Upcoming n (code.map bitChar ++ l) u) (hT : Hangs u pos (some cur) q T) (hfork : T.isFork = true)
    (hfree : T.Free code) :
    ∃ t pos', walkPath sym code.length cur u = .ok () t ∧ Upcoming n l t ∧ KeptAt (fun p => ¬ q <+: p) u t pos pos' ∧
      Hangs t pos' (some cur) q (T.plant sym code) := by
  induction code generalizing cur q T u pos with
  | nil => exact absurd rfl hne
  | cons bit rest ih =>
    obtain ⟨hp, hr, hbyte, hup'⟩ := hup.next
    have hb : codeBit (u.inAt u.inPtr.toNat) = some bit := hbyte ▸ codeBit_bitChar bit
    obtain ⟨h', -⟩ := h.nextByte.ends.of_eq_ok (nextByte_of_lt hp hr)
    obtain ⟨-, nd, hn, -⟩ := (hangs_fork_iff hfork).1 hT
    rw [HTree.plant, HTree.opened_of_isFork hfork]
    cases rest with
    | nil =>
      obtain ⟨t, pos', hrun, hup'', hk, hplant⟩ := lastStep_plants hup' h'.count hT.readOn hfork hn hfree.place
      exact ⟨t, pos', (walkPath_last hp hr hb hn).trans hrun, hup'', hk.outside, hplant⟩
    | cons b rest =>
      have hrest := List.cons_ne_nil b rest
      have hleaf : T.leafAt [bit] = none := hfree.way _ (List.cons_prefix_cons.2 ⟨rfl, List.nil_prefix⟩)
      obtain ⟨next, v, pos₁, hstep, hup₁, hk₁, hT₁, nd₁, hn₁, hc₁⟩ :=
        innerStep_opens hup' h'.count hT.readOn hfork hn hleaf
      obtain ⟨h₁, -⟩ := (innerStep_meets h' hn bit).ends.of_eq_ok hstep
      have hfork₁ := HTree.isFork_withChild bit (T.sub [bit]).opened hfork
      obtain ⟨hpos₁, -, hsides₁⟩ := hT₁.sides hfork₁ hn₁
      have hnext := hsides₁ bit
      rw [hc₁, HTree.sub_withChild_self bit _ hfork] at hnext
      obtain ⟨t, pos₂, hrun, hup₂, hk₂, hplant⟩ :=
        ih hrest h₁ hup₁ hnext (T.sub [bit]).isFork_opened hfree.tail.opened
      have hcur : ¬ q ++ [bit] <+: pos₁ cur := fun hpre => by simpa [hpos₁] using hpre.length_le
      obtain ⟨hn₂, hpos₂⟩ := hk₂ cur _ hn₁ hcur
      rw [← withChild_of_child hc₁] at hn₂
      have hall := hT₁.withChild hfork₁ hn₁ hn₂ hpos₂ (hk₂.mono fun p hp => hp.2) hplant
      rw [HTree.withChild_withChild, HTree.plant_opened hrest] at hall
      refine ⟨t, pos₂, ?_, hup₂, ?_, hall⟩
      · exact (walkPath_inner hp hr hb hn rest.length).trans (by rw [hstep, Run.ok_andThen]; exact hrun)
      · exact hk₁.outside.trans (hk₂.mono fun p hp hpre => hp ((List.prefix_append q [bit]).trans hpre))

/-- Reading an entry whose code is free plants its leaf (R235, R236). -/
theorem readEntry_plants {e : Byte × Code} (he : 1 ≤ e.2.length ∧ e.2.length ≤ 255) (h : Reading (spare + 255) s u)
    (hup : Upcoming n (headerEntry e ++ l) u) (hT : Hangs u pos (some 0) [] T) (hfork : T.isFork = true)
    (hfree : T.Free e.2) :
    ∃ t pos', readEntry u = .ok () t ∧ Upcoming n l t ∧ Hangs t pos' (some 0) [] (T.plant e.1 e.2) := by
  obtain ⟨hp, hr, hsym, hup₁⟩ := hup.next
  obtain ⟨hp₁, hr₁, hlen, hup₂⟩ := hup₁.next
  have hlen' : (u.inAt (u.inPtr + 1).toNat).toNat = e.2.length := by
    refine (congrArg BitVec.toNat hlen).trans ?_
    rw [Code.len, BitVec.toNat_ofNat]
    omega
  have hne : u.inAt (u.inPtr + 1).toNat ≠ 0 := fun h0 => by
    rw [h0] at hlen'
    exact absurd hlen'.symm (Nat.ne_of_gt he.1)
  obtain ⟨h₁, -⟩ := h.nextByte.ends.of_eq_ok (nextByte_of_lt hp hr)
  obtain ⟨h₂, -⟩ := h₁.nextByte.ends.of_eq_ok (nextByte_of_lt hp₁ hr₁)
  obtain ⟨t, pos', hrun, hup', -, hT'⟩ := walkPath_plants e.1 (List.length_pos_iff.1 he.1)
    (h₂.mono (Nat.add_le_add_left he.2 spare)) hup₂ hT.readOn.readOn hfork hfree
  refine ⟨t, pos', ?_, hup', hT'⟩
  rw [readEntry_of_ne_zero hp hr hp₁ hr₁ hne h.root.1, hsym, hlen', hrun]

/-- Reading the entries, from a tree that holds those before them (R236, R243 to R245). -/
theorem readEntries_hold (es : List (Byte × Code)) {done : List (Byte × Code)}
    (hlengths : ∀ e ∈ es, 1 ≤ e.2.length ∧ e.2.length ≤ 255)
    (hfree : (done ++ es).Pairwise fun e f => ¬ e.2 <+: f.2 ∧ ¬ f.2 <+: e.2)
    (h : Reading (255 * es.length) s u) (hup : Upcoming n (es.flatMap headerEntry ++ l) u)
    (hT : Hangs u pos (some 0) [] T) (hdone : T.Holds done) :
    ∃ t pos' T', readEntries es.length u = .ok () t ∧ Upcoming n l t ∧ Hangs t pos' (some 0) [] T' ∧
      T'.Holds (done ++ es) := by
  induction es generalizing done u pos T with
  | nil => exact ⟨u, pos, T, rfl, hup, hT, (List.append_nil done).symm ▸ hdone⟩
  | cons e es ih =>
    have he := hlengths e List.mem_cons_self
    have hne : e.2 ≠ [] := List.length_pos_iff.1 he.1
    have hapart : ∀ f ∈ done, ¬ f.2 <+: e.2 ∧ ¬ e.2 <+: f.2 := fun f hf =>
      (List.pairwise_append.1 hfree).2.2 f hf e List.mem_cons_self
    rw [List.flatMap_cons, List.append_assoc] at hup
    obtain ⟨v, pos₁, hrun, hup₁, hT₁⟩ := readEntry_plants he h hup hT hdone.isFork (hdone.free hne hapart)
    have hread := (readEntry_meets h).ends.of_eq_ok hrun
    obtain ⟨t, pos', T', hrun', hup', hT', hholds⟩ := ih (u := { v with huCount := v.huCount - 1 })
      (fun f hf => hlengths f (List.mem_cons_of_mem e hf)) (by rwa [List.append_assoc]) (hread.setHuCount _)
      (hup₁.congr rfl rfl rfl rfl) (hT₁.congr rfl) (hdone.plant hne hapart)
    refine ⟨t, pos', T', ?_, hup', hT', ?_⟩
    · rw [List.length_cons, readEntries, hrun, Run.ok_andThen, hrun']
    · rwa [List.append_assoc] at hholds

/-- The count byte gives the number of entries back (R112, R233). -/
theorem openHeader_huCount {es : List (Byte × Code)} (h : 1 ≤ es.length ∧ es.length ≤ 256) (s : State) :
    (s.openHeader (BitVec.ofNat 8 (es.length - 1))).huCount.toNat = es.length := by
  have hb : (BitVec.ofNat 8 (es.length - 1)).toNat = es.length - 1 := by
    rw [BitVec.toNat_ofNat]
    omega
  refine (openHeader_alpha _ s).trans ?_
  rw [hb]
  omega

theorem extractLsb'_setWidth (pad : BitVec 3) : (pad.setWidth 8).extractLsb' 0 3 = pad := by
  revert pad
  decide

/-- The padding byte ends the header (R114, R241). -/
theorem readPadding_of_upcoming {pad : BitVec 3} (h : Upcoming n [pad.setWidth 8] u) :
    ∃ t, readPadding u = .ok () t ∧ t.hdrLen.toNat = n ∧ t.padding = pad ∧ t.node = u.node := by
  obtain ⟨hp, hr, hbyte, hup⟩ := h.next
  have hle : (u.inAt u.inPtr.toNat).toNat ≤ 7 := by
    rw [hbyte]
    bv_omega
  refine ⟨_, readPadding_of_le hp hr hle, hup.ends, ?_, rfl⟩
  show (u.inAt u.inPtr.toNat).extractLsb' 0 3 = pad
  rw [hbyte, extractLsb'_setWidth]

/-- Reading a header that a reader accepts (R236, R246, R247). -/
theorem readHeader_of_upcoming {es : List (Byte × Code)} (hes : EntriesOk es) {pad : BitVec 3}
    (hup : Upcoming n (headerOf es pad) u) (hnode : u.node = []) (hcount : u.nodeCount = 0) :
    ∃ t T, readHeader u = .ok () t ∧ t.hdrLen.toNat = n ∧ t.padding = pad ∧ Represents t (some 0) T ∧ T.Holds es := by
  obtain ⟨hp, hr, hbyte, hup₁⟩ := hup.next
  have hhu := openHeader_huCount hes.count u.readOn
  have hread := openHeader_reading (u := u.readOn) (BitVec.ofNat 8 (es.length - 1)) hnode hcount (readOn_cursor hp).2
  have hroot : Hangs (u.readOn.openHeader (BitVec.ofNat 8 (es.length - 1))) (fun _ => []) (some 0) [] .bare := by
    refine ⟨0, Node.bare, rfl, rfl, ?_, ⟨rfl, rfl, rfl⟩, rfl, rfl⟩
    have hnodes : u.readOn.node = [] := hnode
    simp [State.nodeAt, State.openHeader, hnodes]
  obtain ⟨v, pos, T, hrun, hup₂, hT, hholds⟩ := readEntries_hold es (done := []) hes.lengths hes.prefixFree
    (hread.mono (Nat.mul_le_mul_left 255 hes.count.2)) (hup₁.congr rfl rfl rfl rfl) hroot HTree.holds_bare
  obtain ⟨t, hpad, hhdr, hpadding, hnode'⟩ := readPadding_of_upcoming hup₂
  refine ⟨t, T, ?_, hhdr, hpadding, hT.represents.congr hnode', hholds⟩
  rw [readHeader, nextByte_of_lt hp hr, Run.ok_andThen, hbyte]
  dsimp only
  rw [hhu, hrun, Run.ok_andThen, hpad]

/-- HUNPACK of an input that starts with a header a reader accepts: its length, its padding and its tree. -/
theorem hunpackUnit_of_header {es : List (Byte × Code)} (hes : EntriesOk es) {pad : BitVec 3} (hr : s.inputReadable)
    (hlen : (headerOf es pad).length ≤ s.inLen.toNat) (hbytes : ∀ k v, (headerOf es pad)[k]? = some v → s.inAt k = v) :
    ∃ t T, hunpackUnit s = .ok () t ∧ HeaderGiven s t ∧ t.hdrLen.toNat = (headerOf es pad).length ∧ t.padding = pad ∧
      Represents t (some 0) T ∧ T.Holds es := by
  have hne : s.inLen ≠ 0 := fun h0 => by
    rw [h0] at hlen
    exact absurd hlen (Nat.not_le.2 (Nat.succ_pos _))
  have hup : Upcoming (headerOf es pad).length (headerOf es pad) (s.startUnit .headerUnpacker).unpackStart :=
    ⟨Nat.zero_add _, hlen, hr, fun k v hk => (congrArg s.inAt (Nat.zero_add k)).trans (hbytes k v hk)⟩
  obtain ⟨u, T, hrun, hhdr, hpad, hT, hholds⟩ := readHeader_of_upcoming hes hup rfl rfl
  have hunit : hunpackUnit s = .ok () (u.endUnit { u.valid with hdrr := true }) := by
    rw [hunpackUnit_eq hne, hrun, Run.ok_andThen]
  exact ⟨_, T, hunit, (hunpackUnit_ends hne).of_eq_ok hunit, hhdr, hpad, hT.congr (by rfl), hholds⟩

/-- Settles O34: the tree HUNPACK builds holds the entries, and their paths are all different. -/
theorem hunpackRebuildsTheCodeTree : Obligations.HunpackRebuildsTheCodeTree := by
  unfold Obligations.HunpackRebuildsTheCodeTree
  intro s es pad ha hr hes h hlen hbytes
  obtain ⟨t, T, hrun, hgiven, hhdr, hpad, hT, hholds⟩ :=
    hunpackUnit_of_header (s := { s with busy := true }) hes hr hlen hbytes
  obtain ⟨-, -, _, _, _, _, _, _, _, _, hframe⟩ := (hunpackUnit_meets _).ends.of_eq_ok hrun
  have halpha : t.alpha.toNat = es.length := by
    have hcount : s.inAt 0 = BitVec.ofNat 8 (es.length - 1) := hbytes 0 _ rfl
    have hes' := hes.count
    have hgiven' : t.alpha.toNat = (s.inAt 0).toNat + 1 := hgiven.alpha
    rw [hgiven', hcount, BitVec.toNat_ofNat]
    omega
  refine ⟨_, T, (accept_run hunpackUnit ha.1 ha.2).trans (congrArg Run.finish hrun), hgiven.status.trans ha.2,
    by rw [hframe], hhdr, hgiven.hdrLen.symm, hpad, halpha, hgiven.root, ?_, hholds.isFork,
    hholds.length_leaves hes.nodup, hgiven.weights, hholds.leaves⟩
  have hroot : t.root = some 0 := hgiven.root
  show Represents _ t.root T
  rw [hroot]
  exact hT.congr (by rfl)

end Sys2Proof.Machine

/-! ## BPACK: the code bits in the payload (R263 to R269) -/

namespace Sys2Proof.Machine

variable {s t u : State} {bits : List Bool} {n : Nat}

/-! ### A bit string cut into bytes -/

/-- Byte `n` of a bit string, the most significant bit first; behind the end of the string the bits are 0 (R264,
R266). -/
def packedByte (bits : List Bool) (n : Nat) : Byte := BitVec.ofFnLE fun i : Fin 8 => bits.getD (8 * n + (7 - i)) false

/-- The first `n` bytes of a bit string. -/
def packedBytes (bits : List Bool) (n : Nat) : List Byte := (List.range n).map (packedByte bits)

theorem getLsbD_packedByte (bits : List Bool) (n : Nat) {i : Nat} (hi : i < 8) :
    (packedByte bits n).getLsbD i = bits.getD (8 * n + (7 - i)) false := by
  rw [packedByte, BitVec.getLsbD_ofFnLE, dif_pos hi]

theorem packedByte_eq_zero (h : bits.length ≤ 8 * n) : packedByte bits n = 0 := by
  refine BitVec.eq_of_getLsbD_eq fun i hi => ?_
  rw [getLsbD_packedByte bits n hi, List.getD_eq_default _ _ (by omega)]
  exact BitVec.getLsbD_zero.symm

/-- Bits added behind a complete byte leave it alone. -/
theorem packedByte_append_of_le (more : List Bool) (h : 8 * n + 8 ≤ bits.length) :
    packedByte (bits ++ more) n = packedByte bits n := by
  refine BitVec.eq_of_getLsbD_eq fun i hi => ?_
  rw [getLsbD_packedByte _ n hi, getLsbD_packedByte _ n hi, List.getD_append _ _ _ _ (by omega)]

theorem packedBytes_append_of_le (more : List Bool) (h : 8 * n ≤ bits.length) :
    packedBytes (bits ++ more) n = packedBytes bits n :=
  List.map_congr_left fun k hk => packedByte_append_of_le more (by rw [List.mem_range] at hk; omega)

theorem packedBytes_succ (bits : List Bool) (n : Nat) :
    packedBytes bits (n + 1) = packedBytes bits n ++ [packedByte bits n] := by
  rw [packedBytes, List.range_succ, List.map_append]
  rfl

@[simp] theorem length_packedBytes (bits : List Bool) (n : Nat) : (packedBytes bits n).length = n := by
  rw [packedBytes, List.length_map, List.length_range]

theorem getLsbD_setBit (v : Byte) (p : BitVec 3) {i : Nat} (hi : i < 8) :
    (setBit v p).getLsbD i = (v.getLsbD i || decide (i = p.toNat)) := by
  have hone : (!decide (i < p.toNat) && decide (i - p.toNat = 0)) = decide (i = p.toNat) := by
    rw [← decide_not, ← Bool.decide_and, decide_eq_decide]
    omega
  simp [setBit, hi, ← hone]

/-- The next code bit sets the bit the position names, or leaves it clear (R264). -/
theorem packedByte_snoc (bits : List Bool) (bit : Bool) {p : BitVec 3} (hp : p.toNat = 7 - bits.length % 8) :
    packedByte (bits ++ [bit]) (bits.length / 8) =
      if bit then setBit (packedByte bits (bits.length / 8)) p else packedByte bits (bits.length / 8) := by
  have hbits : ∀ i, (bits ++ [bit]).getD i false = (bits.getD i false || (bit && decide (i = bits.length))) := by
    intro i
    rcases Nat.lt_trichotomy i bits.length with h | rfl | h
    · rw [List.getD_append _ _ _ _ h]; simp [Nat.ne_of_lt h]
    · rw [List.getD_append_right _ _ _ _ (Nat.le_refl _)]; simp
    · rw [List.getD_append_right _ _ _ _ h.le, List.getD_eq_default _ _ (by simp; omega), List.getD_eq_default _ _ h.le]
      simp [Nat.ne_of_gt h]
  refine BitVec.eq_of_getLsbD_eq fun i hi => ?_
  have hpos : decide (8 * (bits.length / 8) + (7 - i) = bits.length) = decide (i = p.toNat) := by
    rw [decide_eq_decide]; omega
  rw [getLsbD_packedByte _ _ hi, hbits, hpos]
  cases bit
  · simp [getLsbD_packedByte _ _ hi]
  · simp [getLsbD_packedByte _ _ hi, getLsbD_setBit _ _ hi]

/-! ### One bit, one byte of payload -/

/-- The accumulator and the payload after the code bits `bits` from `s` on (R263, R264). -/
structure Packed (s : State) (bits : List Bool) (t : State) : Prop where
  stream : Streamed s.outMem s.outLen.toNat (packedBytes bits (bits.length / 8)) t
  pkAcc  : t.pkAcc = packedByte bits (bits.length / 8)
  pkPos  : t.pkPos.toNat = 7 - bits.length % 8

theorem Packed.congr (h : Packed s bits t) (hmem : u.outMem = t.outMem) (hlen : u.outLen = t.outLen)
    (hacc : u.pkAcc = t.pkAcc) (hpos : u.pkPos = t.pkPos) : Packed s bits u :=
  ⟨h.stream.congr hmem hlen, hacc.trans h.pkAcc, hpos ▸ h.pkPos⟩

/-- The fields that packing a bit writes. -/
def PackedBitFrom (s t : State) : Prop := ∃ m n l acc pos, t = { s with
  outMem := m, outLen := n, payLen := l, pkAcc := acc, pkPos := pos }

theorem PackedBitFrom.trans (h : PackedBitFrom s t) (h' : PackedBitFrom t u) : PackedBitFrom s u := by
  obtain ⟨m, n, l, acc, pos, rfl⟩ := h
  obtain ⟨m', n', l', acc', pos', rfl⟩ := h'
  exact ⟨_, _, _, _, _, rfl⟩

theorem PackedBitFrom.keeps (h : PackedBitFrom s t) :
    t.params = s.params ∧ t.symCount = s.symCount ∧ t.inPtr = s.inPtr := by
  obtain ⟨_, _, _, _, _, rfl⟩ := h
  exact ⟨rfl, rfl, rfl⟩

/-- The pending byte goes out behind the bytes `l`, or finds no room (R263). -/
theorem flushByte_streams {m : Memory} {a : Nat} {l : List Byte} (h : Streamed m a l t) :
    (flushByte t).Meets
      (fun _ u => Streamed m a (l ++ [t.pkAcc]) u ∧ u.pkAcc = 0 ∧ u.pkPos = 7 ∧ PackedBitFrom t u)
      (fun _ => t.params.outCap.toNat < a + (l.length + 1)) := by
  rcases emit_cases t.pkAcc t with ⟨hroom, -⟩ | ⟨hfull, he⟩
  · rw [flushByte_of_room hroom]
    exact ⟨(h.appendByte _ hroom).congr rfl rfl, rfl, rfl, _, _, _, _, _, rfl⟩
  · rw [flushByte, he, raise_andThen]
    have hle : t.params.outCap.toNat ≤ t.outLen.toNat := BitVec.le_def.1 hfull
    rw [h.outLen] at hle
    exact Nat.lt_succ_of_le hle

/-- A code bit at the current position of the accumulator (R264). -/
def State.placeBit (bit : Bool) (s : State) : State :=
  { s with pkAcc := if bit then setBit s.pkAcc s.pkPos else s.pkAcc }

theorem packBit_eq (bit : Bool) (t : State) : packBit bit t =
    if t.pkPos = 0 then flushByte (t.placeBit bit) else .ok () { t.placeBit bit with pkPos := t.pkPos - 1 } := rfl

/-- One code bit more; a byte that it completes may find no room (R264). -/
theorem Packed.packBit_meets (h : Packed s bits t) (bit : Bool) :
    (packBit bit t).Meets (fun _ u => Packed s (bits ++ [bit]) u ∧ PackedBitFrom t u)
      (fun _ => t.params.outCap.toNat < s.outLen.toNat + (bits ++ [bit]).length / 8) := by
  have hpos := h.pkPos
  have hacc : (t.placeBit bit).pkAcc = packedByte (bits ++ [bit]) (bits.length / 8) := by
    rw [packedByte_snoc bits bit hpos, State.placeBit, h.pkAcc]
  have hlen : (bits ++ [bit]).length = bits.length + 1 := List.length_append
  have hdone : packedBytes (bits ++ [bit]) (bits.length / 8) = packedBytes bits (bits.length / 8) :=
    packedBytes_append_of_le _ (by omega)
  have hstream : Streamed s.outMem s.outLen.toNat (packedBytes (bits ++ [bit]) (bits.length / 8)) (t.placeBit bit) := by
    rw [hdone]
    exact h.stream.congr rfl rfl
  rw [packBit_eq]
  refine Run.meets_ite (fun h0 => ?_) fun h0 => ?_
  · have h0 : t.pkPos.toNat = 0 := congrArg BitVec.toNat h0
    have hnext : (bits ++ [bit]).length / 8 = bits.length / 8 + 1 := by omega
    have hflush := flushByte_streams hstream
    rw [hacc, ← packedBytes_succ, length_packedBytes, ← hnext] at hflush
    refine hflush.mono ?_ fun _ => id
    rintro - u ⟨hpayload, hzero, hseven, _, _, _, _, _, rfl⟩
    refine ⟨⟨hpayload, hzero.trans (packedByte_eq_zero (by omega)).symm, ?_⟩, _, _, _, _, _, rfl⟩
    rw [hseven]
    exact (by omega : 7 = 7 - (bits ++ [bit]).length % 8)
  · have h0 : t.pkPos.toNat ≠ 0 := fun e => h0 (BitVec.eq_of_toNat_eq e)
    have hsame : (bits ++ [bit]).length / 8 = bits.length / 8 := by omega
    refine ⟨⟨?_, ?_, ?_⟩, _, _, _, _, _, rfl⟩
    · rw [hsame]
      exact hstream.congr rfl rfl
    · rw [hsame]
      exact hacc
    · show (t.pkPos - 1).toNat = _
      bv_omega

/-- The code bits of one input byte, in path order (R264). -/
theorem Packed.packBits_meets (h : Packed s bits t) (code : Code) :
    (forEach packBit code t).Meets (fun _ u => Packed s (bits ++ code) u ∧ PackedBitFrom t u)
      (fun _ => t.params.outCap.toNat < s.outLen.toNat + (bits ++ code).length / 8) := by
  induction code generalizing bits t with
  | nil =>
    rw [List.append_nil]
    exact ⟨h, _, _, _, _, _, rfl⟩
  | cons bit code ih =>
    have hcons : bits ++ bit :: code = (bits ++ [bit]) ++ code := by simp
    refine ((h.packBit_meets bit).mono (fun _ _ => id) fun _ hfull => ?_).andThen fun _ u ⟨hu, hframe⟩ => ?_
    · rw [hcons, List.length_append]
      omega
    · rw [hcons, ← hframe.keeps.1]
      exact (ih hu).mono (fun _ _ ⟨hv, hv'⟩ => ⟨hv, hframe.trans hv'⟩) fun _ => id

/-- A partial byte goes out whatever its value; with none pending the accumulator is 0 (R265, R269). -/
theorem Packed.flushPartial_meets (h : Packed s bits t) :
    (flushPartial t).Meets
      (fun _ u => Streamed s.outMem s.outLen.toNat (packedBytes bits ((bits.length + 7) / 8)) u ∧ u.pkAcc = 0 ∧
        u.pkPos = 7 ∧ PackedBitFrom t u)
      (fun _ => t.params.outCap.toNat < s.outLen.toNat + (bits.length + 7) / 8) := by
  have hpos := h.pkPos
  refine Run.meets_ite (fun h7 => ?_) fun h7 => ?_
  · have hpos7 : t.pkPos.toNat = 7 := congrArg BitVec.toNat h7
    refine ⟨?_, h.pkAcc.trans (packedByte_eq_zero (by omega)), h7, _, _, _, _, _, rfl⟩
    rw [show (bits.length + 7) / 8 = bits.length / 8 by omega]
    exact h.stream
  · have h7 : t.pkPos.toNat ≠ 7 := fun e => h7 (BitVec.eq_of_toNat_eq e)
    have hnext : (bits.length + 7) / 8 = bits.length / 8 + 1 := by omega
    have hflush := flushByte_streams h.stream
    rwa [h.pkAcc, ← packedBytes_succ, length_packedBytes, ← hnext] at hflush

/-! ### One input byte, the whole input -/

theorem codeBits_append (code : Table Code) (l l' : List Byte) :
    codeBits code (l ++ l') = codeBits code l ++ codeBits code l' := List.flatMap_append

theorem codeBits_singleton (code : Table Code) (b : Byte) : codeBits code [b] = code.get b := List.flatMap_singleton ..

theorem input_getElem? {k : Nat} (hk : k < s.inLen.toNat) : s.input[k]? = some (s.inAt k) := by
  rw [State.input, List.getElem?_map, List.getElem?_range hk]
  rfl

theorem input_take_succ {k : Nat} (hk : k < s.inLen.toNat) : s.input.take (k + 1) = s.input.take k ++ [s.inAt k] := by
  rw [List.take_add_one, input_getElem? hk]
  rfl

theorem packByte_of_noCode {a : Addr} (ha : a < s.inLen) (hr : s.params.readFails a = false)
    (hc : s.code.get (s.inAt a.toNat) = []) : packByte a s = raise .missingCode a { s with inPtr := a + 1 } := by
  rw [packByte, inByte_of_lt ha hr, Run.ok_andThen]
  simp only [hc]

theorem packByte_of_code {a : Addr} (ha : a < s.inLen) (hr : s.params.readFails a = false)
    (hc : s.code.get (s.inAt a.toNat) ≠ []) : packByte a s =
    (forEach packBit (s.code.get (s.inAt a.toNat)) { s with inPtr := a + 1 }).andThen fun _ t =>
      .ok () { t with symCount := t.symCount + 1 } := by
  rw [packByte, inByte_of_lt ha hr, Run.ok_andThen]
  dsimp only
  split
  · next h => exact absurd h hc
  · rfl

/-- The first `k` input bytes have a code. -/
def State.CodedUpTo (s : State) (k : Nat) : Prop := ∀ b ∈ s.input.take k, s.code.get b ≠ []

/-- The code bits of the first `k` input bytes. -/
def State.bitsUpTo (s : State) (k : Nat) : List Bool := codeBits s.code (s.input.take k)

theorem bitsUpTo_succ {k : Nat} (hk : k < s.inLen.toNat) :
    s.bitsUpTo (k + 1) = s.bitsUpTo k ++ s.code.get (s.inAt k) := by
  rw [State.bitsUpTo, input_take_succ hk, codeBits_append, codeBits_singleton]
  rfl

theorem codedUpTo_succ {k : Nat} (hk : k < s.inLen.toNat) (h : s.CodedUpTo k) (hc : s.code.get (s.inAt k) ≠ []) :
    s.CodedUpTo (k + 1) := by
  intro b hb
  rw [input_take_succ hk, List.mem_append, List.mem_singleton] at hb
  rcases hb with hb | rfl
  · exact h b hb
  · exact hc

/-- Why BPACK of `s` ends in a fault: at the first input byte that cannot be read, has no code, or completes a payload
byte without room, or when the flush finds no room (R261, R349); the fault record of a byte without a code (R268). -/
inductive PackFault (s : State) : State → Prop
  | unreadable {k : Nat} (t : State) (hk : k < s.inLen.toNat) (hcoded : s.CodedUpTo k)
      (hr : s.params.readFails (BitVec.ofNat 64 k) = true) : PackFault s t
  | noCode {k : Nat} {u : State} (hk : k < s.inLen.toNat) (hcoded : s.CodedUpTo k) (hc : s.code.get (s.inAt k) = [])
      (hphase : u.phase = .bitPacker) : PackFault s (u.enterFault .missingCode (BitVec.ofNat 64 k))
  | full {k : Nat} (t : State) (hk : k ≤ s.inLen.toNat) (hcoded : s.CodedUpTo k)
      (hfull : s.params.outCap.toNat < s.outLen.toNat + (s.bitsUpTo k).length / 8) : PackFault s t
  | unflushed (t : State) (hcoded : s.CodedUpTo s.inLen.toNat)
      (hfull : s.params.outCap.toNat < s.outLen.toNat + ((s.bitsUpTo s.inLen.toNat).length + 7) / 8) : PackFault s t

/-- BPACK of `s` with `k` input bytes packed. -/
structure PackedInput (s : State) (k : Nat) (t : State) : Prop where
  frame    : PackedFrom s.packingStart t
  coded    : s.CodedUpTo k
  packed   : Packed s (s.bitsUpTo k) t
  symCount : t.symCount = BitVec.ofNat 64 k
  inPtr    : t.inPtr = BitVec.ofNat 64 k

theorem PackedFrom.phase (h : PackedFrom s t) : t.phase = s.phase := by
  obtain ⟨-, -, _, _, _, _, _, _, _, rfl⟩ := h
  rfl

/-- The cursor stands behind the header and the payload so far (R266). -/
theorem PackedFrom.outLen (h : PackedFrom s t) : t.outLen = s.hdrLen + t.payLen := by
  obtain ⟨-, hlen, _, _, _, _, _, _, _, rfl⟩ := h
  exact hlen

theorem PackedInput.packByte_meets {k : Nat} (h : PackedInput s k t) (hk : k < s.inLen.toNat) :
    (packByte (BitVec.ofNat 64 k) t).Meets (fun _ u => PackedInput s (k + 1) u) (PackFault s) := by
  obtain ⟨hlen, hin, hparams, hcode⟩ : t.inLen = s.inLen ∧ t.inAt = s.inAt ∧ t.params = s.params ∧ t.code = s.code :=
    h.frame.keeps
  obtain ⟨haddr, hlt⟩ := ofNat_lt_inLen hk
  have hlt' : BitVec.ofNat 64 k < t.inLen := hlen ▸ hlt
  have hget : t.code.get (t.inAt (BitVec.ofNat 64 k).toNat) = s.code.get (s.inAt k) := by rw [haddr, hcode, hin]
  cases hr : s.params.readFails (BitVec.ofNat 64 k) with
  | true =>
    rw [packByte, inByte_of_readFails hlt' (hparams ▸ hr), raise_andThen]
    exact .unreadable _ hk h.coded hr
  | false =>
    by_cases hc : s.code.get (s.inAt k) = []
    · rw [packByte_of_noCode hlt' (hparams ▸ hr) (hget.trans hc)]
      exact .noCode hk h.coded hc h.frame.phase
    · have hcoded := codedUpTo_succ hk h.coded hc
      have hbits : (packByte (BitVec.ofNat 64 k) t).Meets (fun _ u => Packed s (s.bitsUpTo (k + 1)) u ∧
          u.symCount = BitVec.ofNat 64 (k + 1) ∧ u.inPtr = BitVec.ofNat 64 (k + 1)) (PackFault s) := by
        rw [packByte_of_code hlt' (hparams ▸ hr) (hget ▸ hc), hget, bitsUpTo_succ hk]
        have hstart : Packed s (s.bitsUpTo k) { t with inPtr := BitVec.ofNat 64 k + 1 } :=
          h.packed.congr rfl rfl rfl rfl
        refine ((hstart.packBits_meets (s.code.get (s.inAt k))).mono (fun _ _ => id) fun u hfull => ?_).andThen ?_
        · exact .full u hk hcoded (by rw [bitsUpTo_succ hk, ← hparams]; exact hfull)
        · rintro - _ ⟨hu, _, _, _, _, _, rfl⟩
          refine ⟨hu.congr rfl rfl rfl rfl, ?_, (BitVec.ofNat_add k 1).symm⟩
          exact (congrArg (· + 1) h.symCount).trans (BitVec.ofNat_add k 1).symm
      refine ((Machine.packByte_meets _ h.frame).of_ends hbits.ends).mono ?_ fun _ => id
      exact fun _ u ⟨hframe, hpacked, hsym, hptr⟩ => ⟨hframe, hcoded, hpacked, hsym, hptr⟩

/-- What BPACK of `s` leaves when it runs to its end (R264 to R266, R269). -/
structure PayloadPacked (s t : State) : Prop where
  coded    : ∀ b ∈ s.input, s.code.get b ≠ []
  stream   : Streamed s.outMem s.outLen.toNat
    (packedBytes (codeBits s.code s.input) (((codeBits s.code s.input).length + 7) / 8)) t
  payLen   : t.payLen.toNat = ((codeBits s.code s.input).length + 7) / 8
  symCount : t.symCount = s.inLen
  inPtr    : t.inPtr = s.inLen
  pkAcc    : t.pkAcc = 0
  pkPos    : t.pkPos = 7

theorem input_take_inLen (s : State) : s.input.take s.inLen.toNat = s.input :=
  List.take_of_length_le (length_input s).le

/-- The payload's length is what the cursor moved by (R266). -/
theorem payLen_of_stream {m : Memory} {h p : Addr} {l : List Byte} (hs : Streamed m h.toNat l t)
    (hlen : t.outLen = h + p) : p.toNat = l.length := by
  have hcursor := hs.outLen
  have hlt := t.outLen.isLt
  rw [hlen] at hcursor hlt
  bv_omega

theorem packed_packingStart (s : State) : Packed s [] s.packingStart where
  stream := Streamed.nil s.packingStart
  pkAcc := (packedByte_eq_zero (Nat.zero_le _)).symm
  pkPos := rfl

/-- Everything BPACK can do with its prerequisite: the payload of the whole input, or a fault (R263). -/
theorem bpackUnit_packs (hp : s.mayPack = true) :
    (bpackUnit s).Meets (fun _ t => PayloadPacked s t) (PackFault s) := by
  obtain ⟨-, -, hlen⟩ := (mayPack_iff s).1 hp
  have hstart : PackedInput s 0 s.packingStart :=
    ⟨⟨Stores.refl _, hlen.trans (BitVec.add_zero _).symm, _, _, _, _, _, _, _, rfl⟩, fun b hb => by simp at hb,
      packed_packingStart s, rfl, rfl⟩
  have hloop := forAddr_meets (I := PackedInput s) (R := PackFault s) (body := packByte) s.inLen.toNat 0
    (fun k hk t ht => by
      rw [zero_add]
      exact ht.packByte_meets hk)
    hstart
  rw [bpackUnit_eq hp]
  refine Run.Meets.andThen hloop fun _ t ht => ?_
  obtain ⟨-, -, hparams, -⟩ := ht.frame.keeps
  have hflush := ht.packed.flushPartial_meets.mono (fun _ _ => id) (R' := PackFault s) fun u hfull =>
    .unflushed u ht.coded (by rw [hparams] at hfull; exact hfull)
  refine ((flushPartial_meets ht.frame).of_ends hflush.ends).andThen ?_
  rintro - u ⟨hframe, hstream, hacc, hpos, hbit⟩
  obtain ⟨-, hsym, hptr⟩ := hbit.keeps
  have hcoded := ht.coded
  rw [State.bitsUpTo, input_take_inLen] at hstream
  rw [State.CodedUpTo, input_take_inLen] at hcoded
  refine ⟨hcoded, hstream.congr rfl rfl, ?_, (hsym.trans ht.symCount).trans (BitVec.ofNat_toNat ..),
    (hptr.trans ht.inPtr).trans (BitVec.ofNat_toNat ..), hacc, hpos⟩
  rw [hlen] at hstream
  exact (payLen_of_stream hstream hframe.outLen).trans (length_packedBytes _ _)

/-! ### The command -/

theorem length_bitsUpTo_le {k n : Nat} (h : k ≤ n) : (s.bitsUpTo k).length ≤ (s.bitsUpTo n).length :=
  ((List.take_prefix_take_left h).flatMap _).length_le

theorem inAt_mem_take {k n : Nat} (hk : k < s.inLen.toNat) (hkn : k < n) : s.inAt k ∈ s.input.take n :=
  List.mem_of_getElem? ((List.getElem?_take_of_lt hkn).trans (input_getElem? hk))

/-- A code bit reads back at its place in `OUT`; behind the last one stand zeros (R264, R266). -/
theorem streamBit_packedBytes {m : Memory} {a k : Nat} (h : Streamed m a (packedBytes bits n) t) (hm : Memory.wf m)
    (hk : k < 8 * n) : streamBit t.outAt a k = bits.getD k false := by
  have hbyte : (packedBytes bits n)[k / 8]? = some (packedByte bits (k / 8)) := by
    rw [packedBytes, List.getElem?_map, List.getElem?_range (by omega)]
    rfl
  rw [streamBit, h.outAt hm hbyte, getLsbD_packedByte _ _ (by omega)]
  congr 1
  omega

theorem PackFault.of_busy {busy : Bool} (h : PackFault { s with busy := busy } t) : PackFault s t := by
  cases h with
  | unreadable t hk hcoded hr => exact .unreadable t hk hcoded hr
  | noCode hk hcoded hc hphase => exact .noCode hk hcoded hc hphase
  | full t hk hcoded hfull => exact .full t hk hcoded hfull
  | unflushed t hcoded hfull => exact .unflushed t hcoded hfull

/-- `BPACK` with its prerequisites: the command's frame and payload, or one of its faults. -/
theorem exec_bpack (ha : s.accepting) (hcode : s.valid.code = true) (hhdrw : s.valid.hdrw = true)
    (hlen : s.outLen = s.hdrLen) : ∃ t, exec .bpack s = .next t ∧
      ((PayloadPacked s t ∧ t.status = none ∧ t.valid = { s.valid with cout := true, dout := false }) ∨
        PackFault s t) := by
  have hp : ({ s with busy := true } : State).mayPack = true := (mayPack_iff _).2 ⟨hcode, hhdrw, hlen⟩
  obtain ⟨t, ht, ⟨u, ⟨⟨-, -, -, _, _, _, _, _, _, _, hframe⟩, hpay⟩, rfl⟩ | hfault⟩ :=
    ((bpackUnit_meets { s with busy := true }).of_ends (bpackUnit_packs hp).ends).finish
  · refine ⟨_, (accept_run bpackUnit ha.1 ha.2).trans ht, .inl ⟨?_, ?_, ?_⟩⟩
    · exact ⟨hpay.coded, hpay.stream.congr rfl rfl, hpay.payLen, hpay.symCount, hpay.inPtr, hpay.pkAcc, hpay.pkPos⟩
    · rw [hframe]
      exact ha.2
    · rw [hframe]
      rfl
  · exact ⟨t, (accept_run bpackUnit ha.1 ha.2).trans ht, .inr hfault.of_busy⟩

/-- Settles O30: with every byte readable and coded and room for the payload no fault is left, and the payload's bytes
are the code bits, cut into bytes. -/
theorem bpackWritesTheCodeBits : Obligations.BpackWritesTheCodeBits := by
  unfold Obligations.BpackWritesTheCodeBits
  intro s ha hcode hhdrw hlen hr hwf hcodes bits bytes hroom
  have hall : s.bitsUpTo s.inLen.toNat = bits := congrArg (codeBits s.code) (input_take_inLen s)
  obtain ⟨t, ht, ⟨hpay, hstatus, hvalid⟩ | hfault⟩ := exec_bpack ha hcode hhdrw hlen
  · have hstream : Streamed s.outMem s.hdrLen.toNat (packedBytes bits bytes) t := hlen ▸ hpay.stream
    have hcursor : t.outLen.toNat = s.hdrLen.toNat + bytes := by rw [hstream.outLen, length_packedBytes]
    refine ⟨t, ht, hstatus, hvalid, hpay.payLen, hcursor, hpay.symCount, hpay.inPtr, hpay.pkAcc, hpay.pkPos, ?_, ?_,
      fun a => hstream.outAt_outside⟩
    · intro k bit hk
      have hlt := (List.getElem?_eq_some_iff.1 hk).1
      rw [streamBit_packedBytes hstream hwf (by omega), List.getD_eq_getElem?_getD, hk]
      rfl
    · intro k hle hlt
      rw [streamBit_packedBytes hstream hwf hlt, List.getD_eq_default _ _ hle]
  · have hmost : s.outLen.toNat + (bits.length + 7) / 8 ≤ s.params.outCap.toNat := hlen ▸ hroom
    cases hfault with
    | unreadable t hk _ hfails =>
      rw [hr _ (ofNat_lt_inLen hk).2] at hfails
      cases hfails
    | noCode hk _ hc _ => exact absurd hc (hcodes _ (List.mem_of_getElem? (input_getElem? hk)))
    | full t hk _ hfull =>
      have hle := hall ▸ length_bitsUpTo_le (s := s) hk
      omega
    | unflushed t _ hfull =>
      rw [hall] at hfull
      omega

/-- Settles O31: of the faults of BPACK only that at the first byte without a code is left. -/
theorem bpackReportsTheFirstByteWithoutCode : Obligations.BpackReportsTheFirstByteWithoutCode := by
  unfold Obligations.BpackReportsTheFirstByteWithoutCode
  intro s n b ha hcode hhdrw hlen hb hnone hcoded hr hroom
  have hn : n < s.inLen.toNat := length_input s ▸ (List.getElem?_eq_some_iff.1 hb).1
  obtain rfl : s.inAt n = b := Option.some.inj ((input_getElem? hn).symm.trans hb)
  have hfirst : ∀ {k}, s.CodedUpTo k → k ≤ n := fun h => by
    by_contra hlt
    exact h _ (inAt_mem_take hn (Nat.lt_of_not_le hlt)) hnone
  obtain ⟨t, ht, ⟨hpay, -, -⟩ | hfault⟩ := exec_bpack ha hcode hhdrw hlen
  · exact absurd hnone (hpay.coded _ (List.mem_of_getElem? hb))
  · cases hfault with
    | unreadable t hk hup hfails =>
      rw [hr _ ((ofNat_lt_inLen hk).1.trans_le (hfirst hup))] at hfails
      cases hfails
    | @noCode k u hk hup hc hphase =>
      have hge : n ≤ k := by
        by_contra hlt
        exact hcoded _ (inAt_mem_take hk (Nat.lt_of_not_le hlt)) hc
      obtain rfl : k = n := (hfirst hup).antisymm hge
      exact ⟨_, ht, rfl, (ofNat_lt_inLen hn).1, hphase, rfl⟩
    | full t hk hup hfull =>
      have hle := length_bitsUpTo_le (s := s) (hfirst hup)
      have hroom' : s.outLen.toNat + (s.bitsUpTo n).length / 8 ≤ s.params.outCap.toNat := hlen ▸ hroom
      omega
    | unflushed t hup hfull => exact absurd (hfirst hup) (Nat.not_le.2 hn)

end Sys2Proof.Machine

/-! ## The payload of a compression and `TOTAL_BITS` (R267) -/

namespace Sys2Proof.Machine

variable {s t : State} {T : HTree}

/-! ### The units before HPACK -/

/-- A scan that ran to its end met no read error: the lowest one would have ended it (R145). -/
theorem inputReadable_of_fscanUnit (h : fscanUnit s = .ok () t) : s.inputReadable := by
  intro a ha
  induction hv : a.toNat using Nat.strong_induction_on generalizing a with
  | _ v ih =>
    subst hv
    by_contra hne
    have hlow : ∀ b, b < a → s.params.readFails b = false := fun b hb =>
      ih b.toNat (BitVec.lt_def.1 hb) b (BitVec.lt_trans hb ha) rfl
    exact (fscanUnit_of_readFails ha (Bool.eq_true_of_not_eq_false hne) hlow).ends.of_eq_ok h

/-- The state between CDERIVE and HPACK of a compression that started in `s` (R310): the counts of the input, the tree
over them and its code table; both memories are as before. -/
structure InputCoded (s : State) (T : HTree) (t : State) : Prop where
  status : t.status = s.status
  inLen  : t.inLen = s.inLen
  inMem  : t.inMem = s.inMem
  outMem : t.outMem = s.outMem
  params : t.params = s.params
  valid  : t.valid.code = true
  freq   : ∀ b, (t.freq.get b).toNat = s.input.count b
  tree   : TreeOf t T
  table  : CodeTableOf t T

theorem tbuildUnit_treeOf (hv : s.valid.freq = true) : ∃ t T, tbuildUnit s = .ok () t ∧ TreeOf t T ∧
    ∃ nodes n l m r, t = { s with node := nodes, nodeCount := n, list := l, listLen := m, root := r
                                  valid := { s.valid.atTbuild with tree := true }, phase := .idle } := by
  have hrun := tbuildUnit_eq hv
  obtain ⟨-, -, hbuilt, nodes, n, l, m, r, hframe⟩ := (tbuildUnit_meets s).ends.of_eq_ok hrun
  have hfreq := congrArg State.freq hframe
  obtain ⟨T, hT⟩ := Built.treeOf (hfreq.symm ▸ hbuilt)
  exact ⟨_, T, hrun, hT, nodes, n, l, m, r, hframe⟩

theorem codingUnits_of_readable (hr : s.inputReadable) : ∃ t u v T, fscanUnit s = .ok () t ∧ tbuildUnit t = .ok () u ∧
    cderiveUnit u = .ok () v ∧ InputCoded s T v := by
  obtain ⟨t, hscan, hcounts, f, a, p, ht⟩ := fscanUnit_eq hr
  obtain ⟨u, T, hbuild, hT, nodes, n, l, m, r, hu⟩ := tbuildUnit_treeOf (s := t) (by rw [ht])
  obtain ⟨v, hderive, hTv, htable⟩ := cderiveUnit_eq (s := u) (by rw [hu]) hT
  obtain ⟨-, -, c, total, hv⟩ := (cderiveUnit_ends u).of_eq_ok hderive
  have hfreq : v.freq = t.freq := by rw [hv, hu]
  refine ⟨t, u, v, T, hscan, hbuild, hderive, ?_⟩
  rw [hu, ht] at hv
  exact ⟨by rw [hv], by rw [hv], by rw [hv], by rw [hv], by rw [hv], by rw [hv], hfreq.symm ▸ hcounts.freq, hTv, htable⟩

/-! ### The number of code bits -/

/-- Code bits counted byte value by byte value. -/
theorem length_codeBits (code : Table Code) (l : List Byte) :
    (codeBits code l).length = (allBytes.map fun b => (code.get b).length * l.count b).sum := by
  have hsub : ∀ b ∈ allBytes.toFinset, b ∉ l.toFinset → l.count b • (code.get b).length = 0 := fun b _ hb => by
    rw [List.count_eq_zero.2 fun h => hb (List.mem_toFinset.2 h), zero_smul]
  rw [codeBits, List.length_flatMap, Finset.sum_list_map_count,
    Finset.sum_subset (fun b _ => List.mem_toFinset.2 (mem_allBytes b)) hsub, List.sum_toFinset _ allBytes_nodup]
  simp only [smul_eq_mul, Nat.mul_comm]

theorem length_codeBits_le {code : Table Code} (hfit : codesFit code) (l : List Byte) :
    (codeBits code l).length ≤ 255 * l.length := by
  have h := List.sum_le_card_nsmul (l.map fun b => (code.get b).length) 255 (by simpa using fun b _ => hfit b)
  rwa [List.length_map, smul_eq_mul, Nat.mul_comm, ← List.length_flatMap] at h

theorem length_codeBits_pos {code : Table Code} {l : List Byte} (hne : l ≠ []) (hc : ∀ b ∈ l, code.get b ≠ []) :
    0 < (codeBits code l).length := by
  obtain ⟨b, l, rfl⟩ := List.exists_cons_of_ne_nil hne
  have := List.length_pos_of_ne_nil (hc b (by simp))
  rw [codeBits, List.flatMap_cons, List.length_append]
  omega

/-- `TOTAL_BITS` is the number of code bits of the input; 64 bits of input length and 8 of code length do not overflow
it (R194, R267). -/
theorem InputCoded.totalBits (h : InputCoded s T t) : t.totalBits.toNat = (codeBits t.code s.input).length := by
  have hsum : (allBytes.map fun b => (t.code.get b).length * (t.freq.get b).toNat).sum =
      (codeBits t.code s.input).length := by
    rw [length_codeBits]
    simp only [h.freq]
  have hle := length_codeBits_le (h.table.codesFit h.tree) s.input
  have hlt := s.inLen.isLt
  rw [length_input] at hle
  rw [h.table.total, hsum, BitVec.toNat_ofNat, Nat.mod_eq_of_lt (by omega)]

/-! ### The command -/

/-- A command that an accepting block ended without a fault ran its unit to the end (R300). -/
theorem ok_of_accept {unit : State → Run Unit} {K : State → Prop} (hu : Keeps K unit) (hK : K { s with busy := true })
    (ha : s.accepting) (h : accept unit s = .next t) (hst : t.status = none) :
    ∃ u, unit { s with busy := true } = .ok () u ∧ t = { u with busy := false } := by
  have hends := hu _ hK
  rw [accept_run unit ha.1 ha.2] at h
  cases hr : unit { s with busy := true } <;> rw [hr] at h hends <;> cases h
  · exact ⟨_, rfl, rfl⟩
  · exact absurd hst hends.status

theorem input_congr (hlen : t.inLen = s.inLen) (hmem : t.inMem = s.inMem) : t.input = s.input := by
  have hin : t.inAt = s.inAt := funext fun a => congrArg (Memory.read a) hmem
  rw [State.input, State.input, hlen, hin]

/-- COMPRESS that ran to its end: the units after CDERIVE ran on what the three before it left (R310). -/
theorem codedUnits_of_compressUnits (h : compressUnits s = .ok () t) : ∃ u v T, InputCoded s T u ∧
    hpackUnit u = .ok () v ∧ bpackUnit v = .ok () t := by
  obtain ⟨⟨⟩, _, hscan₀, -⟩ := Run.andThen_eq_ok h
  obtain ⟨_, _, u, T, hscan, hbuild, hderive, hcoded⟩ := codingUnits_of_readable (inputReadable_of_fscanUnit hscan₀)
  rw [compressUnits, hscan, Run.ok_andThen, hbuild, Run.ok_andThen, hderive, Run.ok_andThen] at h
  obtain ⟨⟨⟩, v, hpack, hbits⟩ := Run.andThen_eq_ok h
  exact ⟨u, v, T, hcoded, hpack, hbits⟩

/-- What a compression of `s` leaves in the registers that describe the payload (R194, R195, R266). -/
structure PayloadDescribed (s t : State) : Prop where
  coded     : ∀ b ∈ s.input, t.code.get b ≠ []
  totalBits : t.totalBits.toNat = (codeBits t.code s.input).length
  padding   : t.padding.toNat = (8 - t.totalBits.toNat % 8) % 8
  payLen    : t.payLen.toNat = (t.totalBits.toNat + 7) / 8
  outLen    : t.outLen.toNat = t.hdrLen.toNat + t.payLen.toNat

theorem payloadDescribed_of_compressUnits (h : compressUnits s = .ok () t) : PayloadDescribed s t := by
  obtain ⟨u, v, T, hcoded, hpack, hbits⟩ := codedUnits_of_compressUnits h
  obtain ⟨-, -, _, _, hv⟩ := (hpackUnit_meets u).ends.of_eq_ok hpack
  obtain ⟨-, -, -, _, _, _, _, _, _, _, ht⟩ := (bpackUnit_meets v).ends.of_eq_ok hbits
  have hmay : v.mayPack = true := (mayPack_iff v).2 (by rw [hv]; exact ⟨hcoded.valid, rfl, rfl⟩)
  have hpay := (bpackUnit_packs hmay).ends.of_eq_ok hbits
  have hinput : v.input = s.input := input_congr (by rw [hv]; exact hcoded.inLen) (by rw [hv]; exact hcoded.inMem)
  have hcode : v.code = u.code := by rw [hv]
  have hcode' : t.code = u.code := by rw [ht, hv]
  have hstart : v.outLen = t.hdrLen := by rw [ht, hv]
  have htotal : t.totalBits = u.totalBits := by rw [ht, hv]
  have hpadding : t.padding = u.padding := by rw [ht, hv]
  have hlen := hpay.stream.outLen
  have hpayLen := hpay.payLen
  have hall := hpay.coded
  rw [length_packedBytes, ← hpayLen, hstart] at hlen
  rw [hinput, hcode, ← hcoded.totalBits] at hpayLen
  rw [hinput, hcode] at hall
  refine ⟨hcode'.symm ▸ hall, ?_, ?_, htotal.symm ▸ hpayLen, hlen⟩
  · rw [htotal, hcode', hcoded.totalBits]
  · rw [htotal, hpadding, hcoded.table.padding]

/-- Settles O46: the code bits counted by CDERIVE are the ones BPACK packs, since both read the same input with the same
table. -/
theorem paddingAccountsForThePayload : Obligations.PaddingAccountsForThePayload := by
  unfold Obligations.PaddingAccountsForThePayload
  intro s t ha hne h hst
  obtain ⟨u, hrun, rfl⟩ := ok_of_accept unitsKeep_true.compress trivial ha h hst
  obtain ⟨hcoded, htotal, hpadding, hpayLen, houtLen⟩ := payloadDescribed_of_compressUnits hrun
  have hpos := length_codeBits_pos (mt input_eq_nil_iff.1 hne) hcoded
  refine ⟨htotal, hpayLen, ?_, houtLen⟩
  show 8 - u.padding.toNat + 8 * (u.payLen.toNat - 1) = u.totalBits.toNat
  have hsome : 0 < u.totalBits.toNat := htotal.symm ▸ hpos
  omega

end Sys2Proof.Machine

/-! ## BUNPACK: the empty cases, and the padding bits (R284 to R287) -/

namespace Sys2Proof.Machine

variable {α β : Type} {s t : State} {m : Memory} {v : Byte} {r : Run α}

/-! ### The unit, an equation per case -/

/-- The registers before the first payload bit (R284). -/
def State.unpackingStart (s : State) : State := (s.startUnit .bitUnpacker).decodeStart

/-- The registers at the end of a payload (R284). -/
def State.unpackingDone (s : State) : State := { s with upPos := 7 }.endUnit { s.valid with dout := true }

theorem bunpackUnit_of_noRoot (hv : s.valid.hdrr = true) (hroot : s.root = none) :
    bunpackUnit s = .ok () s.unpackingStart.unpackingDone := by
  rw [bunpackUnit, hv, require_met]
  show Run.andThen (match s.root with | none => _ | some root => _) _ = _
  rw [hroot]
  rfl

theorem bunpackUnit_of_root {root : NodeIx} (hv : s.valid.hdrr = true) (hroot : s.root = some root) :
    bunpackUnit s = (unpackPayload root s.unpackingStart).andThen fun _ t => .ok () t.unpackingDone := by
  rw [bunpackUnit, hv, require_met]
  show Run.andThen (match s.root with | none => _ | some root => _) _ = _
  rw [hroot]
  rfl

theorem unpackPayload_of_empty (root : NodeIx) (h : s.payLen = 0) :
    unpackPayload root s = raise .corruptArchive s.inLen s := if_pos h

theorem unpackPayload_of_ne_empty (root : NodeIx) (h : s.payLen ≠ 0) : unpackPayload root s =
    (forAddr unpackByte s.payLen.toNat s.hdrLen { s with upCur := some root }).andThen fun _ t =>
      if t.upCur = t.root then .ok () t else raise .corruptArchive (t.inLen - 1) t := if_neg h

theorem exec_bunpack (ha : s.accepting) : exec .bunpack s = (bunpackUnit { s with busy := true }).finish :=
  accept_run bunpackUnit ha.1 ha.2

/-- Settles O37: without a tree BUNPACK has nothing to do; with one it wants at least one payload byte. -/
theorem bunpackEmptyCases : Obligations.BunpackEmptyCases := by
  unfold Obligations.BunpackEmptyCases
  intro s ha hv
  refine ⟨fun hroot => ?_, fun hroot hlen => ?_⟩
  · have hrun := bunpackUnit_of_noRoot (s := { s with busy := true }) hv hroot
    exact ⟨_, (exec_bunpack ha).trans (congrArg Run.finish hrun), ha.2, rfl, rfl, rfl⟩
  · obtain ⟨root, hroot⟩ := Option.ne_none_iff_exists'.1 hroot
    have hnone : ({ s with busy := true } : State).unpackingStart.payLen = 0 := by
      show s.inLen - s.hdrLen = 0
      rw [hlen, BitVec.sub_self]
      rfl
    have hrun := bunpackUnit_of_root (s := { s with busy := true }) hv hroot
    rw [unpackPayload_of_empty root hnone, raise_andThen] at hrun
    exact ⟨_, (exec_bunpack ha).trans (congrArg Run.finish hrun), rfl, rfl, rfl, rfl⟩

/-! ### One symbol, one bit: an equation per case -/

theorem emitSymbol_of_room (sym : Byte) (h : t.outLen < t.params.outCap) : emitSymbol sym t =
    .ok () { t.appendByte sym with symCount := t.symCount + 1, upCur := t.root } := by
  rw [emitSymbol, emit_eq_appendByte sym h, Run.ok_andThen]
  rfl

theorem stepTo_of_noNode {next : NodeIx} (hn : t.nodeAt next = none) : stepTo next t = .stuck .noSuchNode := by
  rw [stepTo, hn]

theorem stepTo_of_leaf {next : NodeIx} {nd : Node} (hn : t.nodeAt next = some nd) (hk : nd.kind = .leaf) :
    stepTo next t = emitSymbol nd.sym { t with upCur := some next } := by
  simp only [stepTo, hn, hk]

theorem stepTo_of_internal {next : NodeIx} {nd : Node} (hn : t.nodeAt next = some nd) (hk : nd.kind = .internal) :
    stepTo next t = .ok () { t with upCur := some next } := by
  simp only [stepTo, hn, hk]

/-- The position of the bit, for the host to read (R284). -/
def State.atBit (pos : Nat) (s : State) : State := { s with upPos := BitVec.ofNat 3 pos }

/-- The child the bit selects, or the fault of a `NULL` child (R284, R288). -/
theorem unpackBit_eq (a : Addr) (pos : Nat) : unpackBit a pos t =
    t.upCur.elim (.stuck .noSuchNode) fun cur => (t.nodeAt cur).elim (.stuck .noSuchNode) fun nd =>
      (nd.child (t.upByte.getLsbD pos)).elim (raise .corruptArchive a (t.atBit pos)) (stepTo · (t.atBit pos)) := by
  show _ = (t.atBit pos).upCur.elim _ fun cur => ((t.atBit pos).nodeAt cur).elim _ fun nd =>
    (nd.child ((t.atBit pos).upByte.getLsbD pos)).elim _ _
  rw [unpackBit, State.atBit]
  generalize ({ t with upPos := BitVec.ofNat 3 pos } : State) = w
  cases w.upCur with
  | none => rfl
  | some cur =>
    dsimp only [Option.elim]
    cases w.nodeAt cur with
    | none => rfl
    | some nd =>
      dsimp only
      cases nd.child (w.upByte.getLsbD pos) <;> rfl

/-! ### The payload's bytes -/

/-- Byte `k` of the payload and its address. -/
theorem payload_addr (hle : s.hdrLen ≤ s.inLen) {k : Nat} (hk : k < (s.inLen - s.hdrLen).toNat) :
    (s.hdrLen + BitVec.ofNat 64 k).toNat = s.hdrLen.toNat + k ∧ s.hdrLen + BitVec.ofNat 64 k < s.inLen := by
  have hlen := BitVec.toNat_sub_of_le hle
  have hlt := s.inLen.isLt
  have haddr : (s.hdrLen + BitVec.ofNat 64 k).toNat = s.hdrLen.toNat + k := by
    rw [BitVec.toNat_add, BitVec.toNat_ofNat]
    omega
  exact ⟨haddr, BitVec.lt_def.2 (by omega)⟩

/-- Only the last payload byte has padding bits (R287). -/
theorem lowestBit_payload {k : Nat} (hk : k < s.payLen.toNat) :
    lowestBit (s.hdrLen + BitVec.ofNat 64 k) s = if k + 1 = s.payLen.toNat then s.padding.toNat else 0 := by
  have hlast : s.hdrLen + BitVec.ofNat 64 k - s.hdrLen = s.payLen - 1 ↔ k + 1 = s.payLen.toNat := by
    bv_omega
  rw [lowestBit]
  exact if_congr hlast rfl rfl

/-! ### A run on another input -/

/-- The state with another `IN` and another payload byte in `UP_BYTE`. -/
def State.reread (m : Memory) (v : Byte) (s : State) : State := { s with inMem := m, upByte := v }

/-- The run with every state it can end in changed by `f`. -/
def Run.mapState (f : State → State) : Run α → Run α
  | .ok a t => .ok a (f t)
  | .raised t => .raised (f t)
  | .stuck e => .stuck e

theorem Run.mapState_andThen {f : State → State} {k k' : α → State → Run β}
    (hk : ∀ a t, r = .ok a t → k' a (f t) = (k a t).mapState f) :
    (r.mapState f).andThen k' = (r.andThen k).mapState f := by
  cases r with
  | ok a t => exact hk a t rfl
  | raised t => rfl
  | stuck e => rfl

theorem emit_reread (b : Byte) : emit b (t.reread m v) = (emit b t).mapState (State.reread m v) := by
  by_cases h : t.outLen < t.params.outCap
  · rw [emit_of_room b h]
    exact emit_of_room b h
  · rw [emit_of_full b (BitVec.not_lt.1 h)]
    exact emit_of_full b (BitVec.not_lt.1 h)

theorem emitSymbol_reread (sym : Byte) :
    emitSymbol sym (t.reread m v) = (emitSymbol sym t).mapState (State.reread m v) := by
  rw [emitSymbol, emit_reread]
  exact Run.mapState_andThen fun _ _ _ => rfl

theorem stepTo_reread (next : NodeIx) :
    stepTo next (t.reread m v) = (stepTo next t).mapState (State.reread m v) := by
  cases hn : t.nodeAt next with
  | none =>
    rw [stepTo_of_noNode hn]
    exact stepTo_of_noNode hn
  | some nd =>
    cases hk : nd.kind with
    | leaf =>
      rw [stepTo_of_leaf hn hk]
      refine (stepTo_of_leaf (t := t.reread m v) hn hk).trans ?_
      exact emitSymbol_reread (t := { t with upCur := some next }) nd.sym
    | internal =>
      rw [stepTo_of_internal hn hk]
      exact stepTo_of_internal hn hk

/-- Of the payload byte only the bit at the position is looked at (R284). -/
theorem unpackBit_reread (a : Addr) {pos : Nat} (h : v.getLsbD pos = t.upByte.getLsbD pos) :
    unpackBit a pos (t.reread m v) = (unpackBit a pos t).mapState (State.reread m v) := by
  rw [unpackBit_eq, unpackBit_eq]
  show t.upCur.elim _ (fun cur => (t.nodeAt cur).elim _ fun nd => (nd.child (v.getLsbD pos)).elim _ _) = _
  rw [h]
  cases t.upCur with
  | none => rfl
  | some cur =>
    cases hn : t.nodeAt cur with
    | none => simp only [Option.elim_some, hn]; rfl
    | some nd =>
      simp only [Option.elim_some, hn]
      cases nd.child (t.upByte.getLsbD pos) with
      | none => rfl
      | some next => exact stepTo_reread (t := t.atBit pos) next

/-! ### A payload byte is kept while its bits are looked at -/

theorem stepTo_keepsByte (next : NodeIx) : (stepTo next t).Ends (fun _ u => u.upByte = t.upByte) fun _ => True := by
  cases hn : t.nodeAt next with
  | none =>
    rw [stepTo_of_noNode hn]
    trivial
  | some nd =>
    cases hk : nd.kind with
    | leaf =>
      rw [stepTo_of_leaf hn hk, emitSymbol]
      refine ((emit_meets nd.sym _).ends.mono (fun _ _ => id) fun _ _ => trivial).andThen ?_
      rintro - _ ⟨-, -, _, _, rfl⟩
      rfl
    | internal =>
      rw [stepTo_of_internal hn hk]
      rfl

theorem unpackBit_keepsByte (a : Addr) (pos : Nat) :
    (unpackBit a pos t).Ends (fun _ u => u.upByte = t.upByte) fun _ => True := by
  rw [unpackBit_eq]
  cases t.upCur with
  | none => trivial
  | some cur =>
    cases hn : t.nodeAt cur with
    | none => simp only [Option.elim_some, hn]; trivial
    | some nd =>
      simp only [Option.elim_some, hn]
      cases nd.child (t.upByte.getLsbD pos) with
      | none => trivial
      | some next => exact stepTo_keepsByte (t := t.atBit pos) next

theorem unpackBits_reread (a : Addr) (l : List Nat) (h : ∀ pos ∈ l, v.getLsbD pos = t.upByte.getLsbD pos) :
    forEach (unpackBit a) l (t.reread m v) = (forEach (unpackBit a) l t).mapState (State.reread m v) := by
  induction l generalizing t with
  | nil => rfl
  | cons pos l ih =>
    rw [forEach, forEach, unpackBit_reread a (h pos List.mem_cons_self)]
    refine Run.mapState_andThen fun _ u hu => ih fun pos' hpos' => ?_
    rw [(unpackBit_keepsByte a pos).of_eq_ok hu]
    exact h pos' (List.mem_cons_of_mem _ hpos')

theorem le_of_mem_bitsDownTo {low pos : Nat} (h : pos ∈ bitsDownTo low) : low ≤ pos ∧ pos < 8 := by
  obtain ⟨i, hi, rfl⟩ := List.mem_map.1 h
  rw [List.mem_range] at hi
  omega

/-- A payload byte that differs only below its lowest meaningful bit is read alike. -/
theorem unpackByte_reread {a : Addr}
    (h : ∀ pos, lowestBit a t ≤ pos → pos < 8 → (Memory.read a.toNat m).getLsbD pos = (t.inAt a.toNat).getLsbD pos) :
    ∃ v', unpackByte a (t.reread m v) = (unpackByte a t).mapState (State.reread m v') := by
  by_cases ha : a < t.inLen
  · cases hr : t.params.readFails a with
    | true =>
      rw [unpackByte, unpackByte, inByte_of_readFails ha hr, inByte_of_readFails (s := t.reread m v) ha hr]
      exact ⟨v, rfl⟩
    | false =>
      rw [unpackByte, unpackByte, inByte_of_lt ha hr, inByte_of_lt (s := t.reread m v) ha hr]
      exact ⟨_, unpackBits_reread (t := { t with inPtr := a + 1, upByte := t.inAt a.toNat }) a _ fun pos hpos =>
        (le_of_mem_bitsDownTo hpos).elim (h pos)⟩
  · have hle : t.inLen ≤ a := BitVec.not_lt.1 ha
    rw [unpackByte, unpackByte, inByte_of_le hle, inByte_of_le (s := t.reread m v) hle]
    exact ⟨v, rfl⟩

/-- A loop whose body runs alike on another input does so, too. -/
theorem forAddr_reread {I : State → Prop} {body : Addr → State → Run Unit} (n : Nat) (a : Addr)
    (hI : ∀ a t, I t → (body a t).Ends (fun _ u => I u) fun _ => True)
    (hb : ∀ k < n, ∀ t v, I t → ∃ v', body (a + BitVec.ofNat 64 k) (t.reread m v) =
      (body (a + BitVec.ofNat 64 k) t).mapState (State.reread m v'))
    (ht : I t) : ∃ v', forAddr body n a (t.reread m v) = (forAddr body n a t).mapState (State.reread m v') := by
  induction n generalizing a t v with
  | zero => exact ⟨v, rfl⟩
  | succ n ih =>
    obtain ⟨v₁, h₁⟩ := hb 0 n.succ_pos t v ht
    rw [BitVec.add_zero] at h₁
    rw [forAddr, forAddr, h₁]
    cases hr : body a t with
    | ok x u =>
      refine ih (a + 1) (fun k hk => ?_) ((hI a t ht).of_eq_ok hr)
      have hnext : a + BitVec.ofNat 64 (k + 1) = a + 1 + BitVec.ofNat 64 k := by
        rw [BitVec.ofNat_add, BitVec.add_assoc, BitVec.add_comm 1]
        rfl
      rw [← hnext]
      exact hb (k + 1) (Nat.succ_lt_succ hk)
    | raised u => exact ⟨v₁, rfl⟩
    | stuck e => exact ⟨v₁, rfl⟩

/-- The bits of `m` that BUNPACK of `s` may look at are those of `IN` (R286, R287). -/
structure AgreesOnPayload (s : State) (m : Memory) : Prop where
  bytes : ∀ a, a + 1 < s.inLen.toNat → Memory.read a m = s.inAt a
  last  : ∀ pos, s.padding.toNat ≤ pos → pos < 8 →
    (Memory.read (s.inLen.toNat - 1) m).getLsbD pos = (s.inAt (s.inLen.toNat - 1)).getLsbD pos

theorem AgreesOnPayload.byte (h : AgreesOnPayload s m) (hle : s.hdrLen ≤ s.inLen) (hpay : s.payLen = s.inLen - s.hdrLen)
    {k pos : Nat} (hk : k < s.payLen.toNat) (hlow : lowestBit (s.hdrLen + BitVec.ofNat 64 k) s ≤ pos) (hpos : pos < 8) :
    (Memory.read (s.hdrLen + BitVec.ofNat 64 k).toNat m).getLsbD pos =
      (s.inAt (s.hdrLen + BitVec.ofNat 64 k).toNat).getLsbD pos := by
  have hlen := BitVec.toNat_sub_of_le hle
  rw [← hpay] at hlen
  rw [lowestBit_payload hk] at hlow
  rw [(payload_addr hle (hpay ▸ hk)).1]
  by_cases hlast : k + 1 = s.payLen.toNat
  · rw [if_pos hlast] at hlow
    rw [show s.hdrLen.toNat + k = s.inLen.toNat - 1 by omega]
    exact h.last pos hlow hpos
  · rw [h.bytes _ (by omega)]

theorem unpackPayload_reread (root : NodeIx) (hle : s.hdrLen ≤ s.inLen) (hpay : s.payLen = s.inLen - s.hdrLen)
    (h : AgreesOnPayload s m) :
    ∃ v', unpackPayload root (s.reread m v) = (unpackPayload root s).mapState (State.reread m v') := by
  by_cases hnone : s.payLen = 0
  · rw [unpackPayload_of_empty root hnone, unpackPayload_of_empty (s := s.reread m v) root hnone]
    exact ⟨v, rfl⟩
  · have hstart : UnpackedFrom s { s with upCur := some root } :=
      ⟨.of_same rfl rfl rfl rfl rfl rfl, _, _, _, _, _, _, _, rfl⟩
    obtain ⟨v', hloop⟩ := forAddr_reread (m := m) (v := v) (body := unpackByte) s.payLen.toNat s.hdrLen
      (fun a t ht => (unpackByte_ends a ht).mono (fun _ _ => id) fun _ _ => trivial)
      (fun k hk t v ht => unpackByte_reread (v := v) fun pos hlow hpos => by
        obtain ⟨-, _, _, _, _, _, _, _, rfl⟩ := ht
        exact h.byte hle hpay hk hlow hpos)
      hstart
    rw [unpackPayload_of_ne_empty root hnone, unpackPayload_of_ne_empty (s := s.reread m v) root hnone]
    refine ⟨v', (congrArg (Run.andThen · _) hloop).trans (Run.mapState_andThen fun _ t _ => ?_)⟩
    by_cases hroot : t.upCur = t.root
    · rw [if_pos hroot]
      exact if_pos hroot
    · rw [if_neg hroot]
      exact if_neg hroot

theorem bunpackUnit_reread (hle : s.hdrLen ≤ s.inLen) (h : AgreesOnPayload s m) :
    ∃ v', bunpackUnit (s.reread m v) = (bunpackUnit s).mapState (State.reread m v') := by
  cases hv : s.valid.hdrr with
  | false =>
    rw [bunpackUnit, bunpackUnit, hv]
    refine ⟨v, ?_⟩
    show require s.valid.hdrr _ _ _ = _
    rw [hv]
    rfl
  | true =>
    cases hroot : s.root with
    | none =>
      rw [bunpackUnit_of_noRoot hv hroot, bunpackUnit_of_noRoot (s := s.reread m v) hv hroot]
      exact ⟨v, rfl⟩
    | some root =>
      obtain ⟨v', hrun⟩ := unpackPayload_reread (v := v) (s := s.unpackingStart) root hle rfl ⟨h.bytes, h.last⟩
      rw [bunpackUnit_of_root hv hroot, bunpackUnit_of_root (s := s.reread m v) hv hroot]
      exact ⟨v', (congrArg (Run.andThen · _) hrun).trans (Run.mapState_andThen fun _ _ _ => rfl)⟩

theorem exec_bunpack_reread (hle : s.hdrLen ≤ s.inLen) (h : AgreesOnPayload s m) (hrun : exec .bunpack s = .next t) :
    ∃ v, exec .bunpack { s with inMem := m } = .next (t.reread m v) := by
  rcases accept_cases bunpackUnit s with ⟨-, he⟩ | ⟨hb, ⟨c, hc⟩, he⟩ | ⟨hb, hs, he⟩
  · exact nomatch he.symm.trans hrun
  · obtain rfl : s = t := Host.Outcome.next.inj (he.symm.trans hrun)
    exact ⟨s.upByte, accept_ignored bunpackUnit hb hc⟩
  · obtain ⟨v, hunit⟩ := bunpackUnit_reread (s := { s with busy := true }) (v := s.upByte) hle ⟨h.bytes, h.last⟩
    have hfinish := he.symm.trans hrun
    refine ⟨v, (exec_bunpack (s := { s with inMem := m }) ⟨hb, hs⟩).trans ((congrArg Run.finish hunit).trans ?_)⟩
    cases hr : bunpackUnit { s with busy := true } <;> rw [hr] at hfinish <;> cases hfinish <;> rfl

/-- Settles O40: the run on the other input is the same run, with another payload byte in `UP_BYTE`. -/
theorem bunpackIgnoresPaddingBits : Obligations.BunpackIgnoresPaddingBits := by
  unfold Obligations.BunpackIgnoresPaddingBits
  intro s t m hle hbytes hlast hrun
  obtain ⟨v, hother⟩ := exec_bunpack_reread hle ⟨hbytes, hlast⟩ hrun
  exact ⟨_, hother, rfl, fun _ => rfl⟩

end Sys2Proof.Machine

/-! ## BUNPACK: the descent of the tree (R284 to R291) -/

namespace Sys2Proof.Machine

variable {s t u : State} {T U : HTree} {p q : Code} {bit : Bool} {c : List Byte × Code}

/-! ### Paths of a tree -/

/-- Only an internal node has something below it. -/
theorem HTree.isFork_of_sub_ne_null (hp : p ≠ []) (h : T.sub p ≠ .null) : T.isFork = true := by
  obtain ⟨bit, p, rfl⟩ := List.exists_cons_of_ne_nil hp
  cases T with
  | null => exact absurd rfl h
  | leaf b w => exact absurd rfl h
  | fork w l r => rfl

theorem HTree.ne_null_of_isFork (h : T.isFork = true) : T ≠ .null := by
  rintro rfl
  exact nomatch h

theorem HTree.isFork_sub_of_prefix (hqp : q <+: p) (h : (T.sub p).isFork = true) : (T.sub q).isFork = true := by
  obtain ⟨r, rfl⟩ := hqp
  rw [T.sub_append] at h
  by_cases hr : r = []
  · rwa [hr, HTree.sub_nil] at h
  · exact HTree.isFork_of_sub_ne_null hr (HTree.ne_null_of_isFork h)

theorem HTree.leafAt_of_isFork (h : (T.sub p).isFork = true) : T.leafAt p = none := by
  have hnil := HTree.leafAt_nil_of_isFork h
  rwa [leafAt, sub_nil] at hnil

theorem HTree.sub_append_of_null (h : T.sub p = .null) (q : Code) : T.sub (p ++ q) = .null := by
  rw [T.sub_append, h]
  cases q <;> rfl

theorem HTree.leafAt_of_null (h : T.sub p = .null) : T.leafAt p = none := by
  rw [leafAt, h]

/-- A path into the tree is no longer than the tree is high. -/
theorem HTree.height_sub_add_length_le (h : T.sub p ≠ .null) : (T.sub p).height + p.length ≤ T.height := by
  induction p generalizing T with
  | nil => rw [sub_nil]; exact Nat.le_refl _
  | cons bit p ih =>
    cases T with
    | null => exact absurd rfl h
    | leaf b w => exact absurd rfl h
    | fork w l r =>
      have hside : (if bit then r else l).height ≤ max l.height r.height := by
        cases bit
        · exact Nat.le_max_left _ _
        · exact Nat.le_max_right _ _
      have hle := ih (T := if bit then r else l) h
      rw [HTree.height, List.length_cons]
      show ((if bit then r else l).sub p).height + _ ≤ _
      omega

/-- The root is met on the empty path only. -/
theorem HTree.eq_nil_of_sub_eq_self (hT : T.isFork = true) (h : T.sub p = T) : p = [] := by
  have hle := HTree.height_sub_add_length_le (h.trans_ne (HTree.ne_null_of_isFork hT))
  rw [h] at hle
  exact List.length_eq_zero_iff.1 (by omega)

/-- A link stands for one tree. -/
theorem Represents.unique {l : Link} (hT : Represents s l T) (hU : Represents s l U) : T = U := by
  induction T generalizing l U with
  | null =>
    obtain rfl : l = none := hT
    exact (represents_none_iff.1 hU).symm
  | leaf b w =>
    obtain ⟨i, rfl, hi⟩ := hT
    cases U with
    | null => exact absurd hU not_represents_some_null
    | leaf b' w' =>
      obtain ⟨_, ⟨⟩, hi'⟩ := hU
      cases hi.symm.trans hi'
      rfl
    | fork w' l' r' =>
      obtain ⟨_, _, _, ⟨⟩, hi', -, -⟩ := hU
      cases hi.symm.trans hi'
  | fork w L R ihL ihR =>
    obtain ⟨i, nl, nr, rfl, hi, hL, hR⟩ := hT
    cases U with
    | null => exact absurd hU not_represents_some_null
    | leaf b' w' =>
      obtain ⟨_, ⟨⟩, hi'⟩ := hU
      cases hi.symm.trans hi'
    | fork w' L' R' =>
      obtain ⟨_, _, _, ⟨⟩, hi', hL', hR'⟩ := hU
      cases hi.symm.trans hi'
      rw [ihL hL hL', ihR hR hR']

/-- An internal node and what its links stand for. -/
theorem Represents.sides {l : Link} (h : Represents s l T) (hT : T.isFork = true) :
    ∃ i nd, l = some i ∧ s.nodeAt i = some nd ∧ ∀ bit, Represents s (nd.child bit) (T.sub [bit]) := by
  cases T with
  | null => exact nomatch hT
  | leaf b w => exact nomatch hT
  | fork w L R =>
    obtain ⟨i, nl, nr, hi, hn, hL, hR⟩ := h
    refine ⟨i, _, hi, hn, fun bit => ?_⟩
    cases bit
    · exact L.sub_nil.symm ▸ hL
    · exact R.sub_nil.symm ▸ hR

/-! ### Decoding a bit string -/

/-- One bit of a payload, from the symbols so far and the path from the root: a leaf gives its symbol, and the descent
starts again at the root (R284). -/
def HTree.advance (T : HTree) (c : List Byte × Code) (bit : Bool) : List Byte × Code :=
  match T.leafAt (c.2 ++ [bit]) with
  | some b => (c.1 ++ [b], [])
  | none => (c.1, c.2 ++ [bit])

/-- The symbols of a bit string, and the path behind the last of them (R284). -/
def HTree.decode (T : HTree) (bits : List Bool) : List Byte × Code := bits.foldl T.advance ([], [])

theorem HTree.advance_of_leaf {b : Byte} (h : T.leafAt (c.2 ++ [bit]) = some b) :
    T.advance c bit = (c.1 ++ [b], []) := by
  rw [advance, h]

theorem HTree.advance_of_noLeaf (h : T.leafAt (c.2 ++ [bit]) = none) : T.advance c bit = (c.1, c.2 ++ [bit]) := by
  rw [advance, h]

theorem HTree.decode_append (T : HTree) (bits more : List Bool) :
    T.decode (bits ++ more) = more.foldl T.advance (T.decode bits) := List.foldl_append

/-- A path on which there is no leaf is gone down. -/
theorem HTree.foldl_advance_of_noLeaf (syms : List Byte) (p : Code) (h : ∀ r, r <+: q → T.leafAt (p ++ r) = none) :
    q.foldl T.advance (syms, p) = (syms, p ++ q) := by
  induction q generalizing p with
  | nil => rw [List.append_nil]; rfl
  | cons bit q ih =>
    have hbit : T.leafAt (p ++ [bit]) = none := h [bit] (by simp)
    rw [List.foldl_cons, HTree.advance_of_noLeaf hbit, ih, List.append_assoc, List.singleton_append]
    intro r hr
    rw [List.append_assoc]
    exact h _ (by simpa using hr)

theorem HTree.foldl_advance_of_isFork (syms : List Byte) (h : (T.sub (p ++ q)).isFork = true) :
    q.foldl T.advance (syms, p) = (syms, p ++ q) :=
  HTree.foldl_advance_of_noLeaf syms p fun _ hr =>
    HTree.leafAt_of_isFork (HTree.isFork_sub_of_prefix ((List.prefix_append_right_inj p).2 hr) h)

/-- Below `NULL` there is no leaf. -/
theorem HTree.foldl_advance_of_null (syms : List Byte) (h : T.sub p = .null) (q : Code) :
    q.foldl T.advance (syms, p) = (syms, p ++ q) :=
  HTree.foldl_advance_of_noLeaf syms p fun r _ => HTree.leafAt_of_null (HTree.sub_append_of_null h r)

theorem HTree.foldl_advance_of_leaf (hT : T.isFork = true) (syms : List Byte) {b : Byte} (h : T.leafAt p = some b) :
    p.foldl T.advance (syms, []) = (syms ++ [b], []) := by
  obtain ⟨w, hw⟩ := HTree.leafAt_eq_some.1 h
  rcases List.eq_nil_or_concat p with rfl | ⟨q, bit, rfl⟩
  · rw [HTree.leafAt_nil_of_isFork hT] at h
    cases h
  · have hq : (T.sub q).isFork = true := by
      refine HTree.isFork_of_sub_ne_null (List.cons_ne_nil bit []) ?_
      rw [← T.sub_append, ← List.concat_eq_append, hw]
      exact HTree.noConfusion
    rw [List.concat_eq_append] at h ⊢
    rw [List.foldl_append, HTree.foldl_advance_of_isFork (p := []) syms hq]
    exact HTree.advance_of_leaf h

variable {pieces : List (Code × Byte)}

theorem HTree.foldl_advance_pieces (hT : T.isFork = true) (hpieces : ∀ pc ∈ pieces, T.leafAt pc.1 = some pc.2)
    (syms : List Byte) :
    (pieces.flatMap Prod.fst).foldl T.advance (syms, []) = (syms ++ pieces.map Prod.snd, []) := by
  induction pieces generalizing syms with
  | nil => rw [List.map_nil, List.append_nil]; rfl
  | cons pc pieces ih =>
    rw [List.flatMap_cons, List.foldl_append, HTree.foldl_advance_of_leaf hT syms (hpieces pc List.mem_cons_self),
      ih fun e he => hpieces e (List.mem_cons_of_mem _ he)]
    simp

/-- Complete codes and a path to an internal node behind them decode to the codes' symbols and the path (R290). -/
theorem HTree.decode_pieces_append (hT : T.isFork = true) (hpieces : ∀ pc ∈ pieces, T.leafAt pc.1 = some pc.2)
    (hp : (T.sub p).isFork = true) : T.decode (pieces.flatMap Prod.fst ++ p) = (pieces.map Prod.snd, p) := by
  rw [HTree.decode_append, HTree.decode, HTree.foldl_advance_pieces hT hpieces,
    HTree.foldl_advance_of_isFork (p := []) _ hp]
  rfl

theorem HTree.decode_pieces (hT : T.isFork = true) (hpieces : ∀ pc ∈ pieces, T.leafAt pc.1 = some pc.2) :
    T.decode (pieces.flatMap Prod.fst) = (pieces.map Prod.snd, []) := by
  have h := HTree.decode_pieces_append (p := []) hT hpieces (T.sub_nil.symm ▸ hT)
  rwa [List.append_nil] at h

theorem HTree.length_foldl_advance (T : HTree) (c : List Byte × Code) (bits : List Bool) :
    c.1.length ≤ (bits.foldl T.advance c).1.length := by
  induction bits generalizing c with
  | nil => exact Nat.le_refl _
  | cons bit bits ih =>
    refine Nat.le_trans ?_ (ih _)
    rw [HTree.advance]
    split <;> simp

section prefixes

variable {bits more : List Bool} (h : bits <+: more)
include h

theorem HTree.length_decode_le : (T.decode bits).1.length ≤ (T.decode more).1.length := by
  obtain ⟨rest, rfl⟩ := h
  rw [T.decode_append]
  exact T.length_foldl_advance _ _

/-- A descent that left the tree does not come back. -/
theorem HTree.sub_decode_of_null (hnull : T.sub (T.decode bits).2 = .null) : T.sub (T.decode more).2 = .null := by
  obtain ⟨rest, rfl⟩ := h
  rw [T.decode_append, ← Prod.eta (T.decode bits), HTree.foldl_advance_of_null _ hnull]
  exact HTree.sub_append_of_null hnull rest

end prefixes

/-! ### One payload bit -/

/-- The fields BUNPACK's loop writes (R281). -/
def UnpackingFrom (s t : State) : Prop := ∃ m n k cur pos v p, t = { s with
  outMem := m, outLen := n, symCount := k, upCur := cur, upPos := pos, upByte := v, inPtr := p }

theorem UnpackingFrom.trans (h : UnpackingFrom s t) (h' : UnpackingFrom t u) : UnpackingFrom s u := by
  obtain ⟨m, n, k, cur, pos, v, p, rfl⟩ := h
  obtain ⟨m', n', k', cur', pos', v', p', rfl⟩ := h'
  exact ⟨_, _, _, _, _, _, _, rfl⟩

/-- The loop leaves what it reads by: the input, the tree, the capacity, the unit. -/
theorem UnpackingFrom.keeps (h : UnpackingFrom s t) : t.inLen = s.inLen ∧ t.inAt = s.inAt ∧ t.params = s.params ∧
    t.node = s.node ∧ t.root = s.root ∧ t.phase = s.phase := by
  obtain ⟨_, _, _, _, _, _, _, rfl⟩ := h
  exact ⟨rfl, rfl, rfl, rfl, rfl, rfl⟩

theorem UnpackingFrom.lowestBit (h : UnpackingFrom s t) (a : Addr) : lowestBit a t = lowestBit a s := by
  obtain ⟨_, _, _, _, _, _, _, rfl⟩ := h
  rfl

/-- BUNPACK of `s` where its bits so far have come to the symbols and the path `c` (R284). -/
structure Descended (s : State) (T : HTree) (c : List Byte × Code) (t : State) : Prop where
  frame    : UnpackingFrom s.unpackingStart t
  inner    : (T.sub c.2).isFork = true
  cursor   : Represents s t.upCur (T.sub c.2)
  atRoot   : c.2 = [] → t.upCur = s.root
  stream   : Streamed s.outMem 0 c.1 t
  symCount : t.symCount = BitVec.ofNat 64 c.1.length

/-- The position, the byte and the input cursor are not what the descent goes by. -/
theorem Descended.registers (h : Descended s T c t) (pos : BitVec 3) (v : Byte) (p : Addr) :
    Descended s T c { t with upPos := pos, upByte := v, inPtr := p } :=
  ⟨h.frame.trans ⟨_, _, _, _, _, _, _, rfl⟩, h.inner, h.cursor, h.atRoot, h.stream.congr rfl rfl, h.symCount⟩

section tree

variable (htree : Represents s s.root T) (hT : T.isFork = true)

include htree hT in
/-- A leaf's symbol is emitted, and the cursor goes back to the root (R284). -/
theorem Descended.emitSymbol_meets (h : Descended s T c t) (next : NodeIx) (b : Byte) {R : State → Prop}
    (hroom : c.1.length + 1 ≤ s.params.outCap.toNat) :
    (emitSymbol b { t with upCur := some next }).Meets
      (fun _ u => Descended s T (c.1 ++ [b], []) u ∧ u.upByte = t.upByte ∧ u.inPtr = t.inPtr) R := by
  obtain ⟨-, -, hparams, -, hroot, -⟩ := h.frame.keeps
  have hlt : t.outLen < t.params.outCap := by
    rw [hparams]
    refine BitVec.lt_def.2 ?_
    rwa [h.stream.outLen, Nat.zero_add]
  rw [emitSymbol_of_room (t := { t with upCur := some next }) b hlt]
  refine ⟨⟨h.frame.trans ⟨_, _, _, _, _, _, _, rfl⟩, T.sub_nil.symm ▸ hT, ?_, fun _ => hroot,
    (h.stream.appendByte b hlt).congr rfl rfl, ?_⟩, rfl, rfl⟩
  · rw [T.sub_nil]
    exact hroot.symm ▸ htree
  · rw [List.length_append]
    exact (congrArg (· + 1) h.symCount).trans (BitVec.ofNat_add c.1.length 1).symm

include htree hT in
/-- One payload bit: down to the child, over a leaf back to the root, or out of the tree (R284, R288). -/
theorem Descended.unpackBit_meets (h : Descended s T c t) (a : Addr) {pos : Nat} (hbit : t.upByte.getLsbD pos = bit)
    {R : State → Prop} (hroom : (T.advance c bit).1.length ≤ s.params.outCap.toNat)
    (hnull : T.sub (T.advance c bit).2 = .null → ∀ u : State, u.phase = .bitUnpacker →
      R (u.enterFault .corruptArchive a)) :
    (unpackBit a pos t).Meets
      (fun _ u => Descended s T (T.advance c bit) u ∧ u.upByte = t.upByte ∧ u.inPtr = t.inPtr) R := by
  obtain ⟨-, -, -, hnode, -, hphase⟩ := h.frame.keeps
  obtain ⟨cur, nd, hcur, hn, hsides⟩ := h.cursor.sides h.inner
  have hside := hsides bit
  have hat : Descended s T c (t.atBit pos) := h.registers _ t.upByte t.inPtr
  have hnodeAt : ∀ i, t.nodeAt i = s.nodeAt i := fun i => congrArg (·[i.toNat]?) hnode
  rw [← T.sub_append] at hside
  rw [unpackBit_eq, hcur, Option.elim_some, hnodeAt, hn, Option.elim_some, hbit]
  cases hsub : T.sub (c.2 ++ [bit]) with
  | null =>
    have hadv : T.advance c bit = (c.1, c.2 ++ [bit]) := HTree.advance_of_noLeaf (HTree.leafAt_of_null hsub)
    rw [hsub] at hside
    rw [show nd.child bit = none from hside]
    exact hnull (hadv ▸ hsub) _ hphase
  | leaf b w =>
    have hadv : T.advance c bit = (c.1 ++ [b], []) := HTree.advance_of_leaf (HTree.leafAt_eq_some.2 ⟨w, hsub⟩)
    rw [hsub] at hside
    obtain ⟨next, hnext, hleaf⟩ := hside
    rw [hadv, List.length_append] at hroom
    rw [hadv, hnext, Option.elim_some, stepTo_of_leaf (t := t.atBit pos) ((hnodeAt next).trans hleaf) rfl]
    exact hat.emitSymbol_meets htree hT next b hroom
  | fork w l r =>
    have hinner : (T.sub (c.2 ++ [bit])).isFork = true := by rw [hsub]; rfl
    have hadv : T.advance c bit = (c.1, c.2 ++ [bit]) := HTree.advance_of_noLeaf (HTree.leafAt_of_isFork hinner)
    have hcursor := hside
    rw [hsub] at hside
    obtain ⟨next, nl, nr, hnext, hfork, -, -⟩ := hside
    rw [hadv, hnext, Option.elim_some, stepTo_of_internal (t := t.atBit pos) ((hnodeAt next).trans hfork) rfl]
    exact ⟨⟨h.frame.trans ⟨_, _, _, _, _, _, _, rfl⟩, hinner, hnext ▸ hcursor, fun hnil => absurd hnil (by simp),
      h.stream.congr rfl rfl, h.symCount⟩, rfl, rfl⟩

/-! ### One payload byte, the whole payload -/

/-- A loop over the images of `0 .. n - 1` keeps an invariant that may speak of how many iterations are done. -/
theorem forEach_range_meets {α : Type} {I : Nat → State → Prop} {R : State → Prop} {body : α → State → Run Unit}
    (f : Nat → α) (n : Nat) (hb : ∀ i < n, ∀ t, I i t → (body (f i) t).Meets (fun _ u => I (i + 1) u) R) (ht : I 0 t) :
    (forEach body ((List.range n).map f) t).Meets (fun _ u => I n u) R := by
  induction n with
  | zero => exact ht
  | succ n ih =>
    rw [List.range_succ, List.map_append, forEach_append]
    refine (ih fun i hi => hb i (Nat.lt_succ_of_lt hi)).andThen fun _ u hu => ?_
    exact (hb n n.lt_succ_self u hu).andThen fun _ _ hv => hv

theorem length_payloadBits (s : State) :
    (payloadBits s).length = 8 * (s.inLen.toNat - s.hdrLen.toNat) - s.padding.toNat := by
  rw [payloadBits, List.length_map, List.length_range]

theorem payloadBits_take_succ {n : Nat} (hn : n < (payloadBits s).length) :
    (payloadBits s).take (n + 1) = (payloadBits s).take n ++ [streamBit s.inAt s.hdrLen.toNat n] := by
  rw [List.take_add_one, List.getElem?_eq_getElem hn]
  simp [payloadBits]

/-- What the first `n` meaningful bits of the payload come to. -/
def State.decodedUpTo (s : State) (T : HTree) (n : Nat) : List Byte × Code := T.decode ((payloadBits s).take n)

theorem decodedUpTo_succ (T : HTree) {n : Nat} (hn : n < (payloadBits s).length) :
    s.decodedUpTo T (n + 1) = T.advance (s.decodedUpTo T n) (streamBit s.inAt s.hdrLen.toNat n) := by
  rw [State.decodedUpTo, payloadBits_take_succ hn, HTree.decode_append]
  rfl

theorem decodedUpTo_of_le (T : HTree) {n : Nat} (hn : (payloadBits s).length ≤ n) :
    s.decodedUpTo T n = T.decode (payloadBits s) := by
  rw [State.decodedUpTo, List.take_of_length_le hn]

/-- Why BUNPACK of `s`, its input readable and `OUT` large enough, ends in a fault: a bit that leads out of the tree, at
the address of its byte (R288), or a payload that ends inside a code (R289). -/
inductive UnpackFault (s : State) (T : HTree) : State → Prop
  | nullChild {n : Nat} {u : State} (hinner : (T.sub (s.decodedUpTo T n).2).isFork = true)
      (hnull : T.sub (s.decodedUpTo T (n + 1)).2 = .null) (hphase : u.phase = .bitUnpacker) :
      UnpackFault s T (u.enterFault .corruptArchive (s.hdrLen + BitVec.ofNat 64 (n / 8)))
  | insideCode {u : State} (hinner : (T.sub (T.decode (payloadBits s)).2).isFork = true)
      (hne : (T.decode (payloadBits s)).2 ≠ []) (hphase : u.phase = .bitUnpacker) :
      UnpackFault s T (u.enterFault .corruptArchive (s.inLen - 1))

variable (hr : s.inputReadable) (hlt : s.hdrLen < s.inLen)
  (hroom : (T.decode (payloadBits s)).1.length ≤ s.params.outCap.toNat)

include hlt in
/-- Payload byte `k` holds the bits from `8 * k` on, down to its lowest meaningful one (R73, R287). -/
theorem decodedUpTo_byte (T : HTree) {k low : Nat} (hk : k < (s.inLen - s.hdrLen).toNat)
    (hlow : lowestBit (s.hdrLen + BitVec.ofNat 64 k) s.unpackingStart = low) :
    8 * k + (8 - low) ≤ (payloadBits s).length ∧
      s.decodedUpTo T (8 * k + (8 - low)) = s.decodedUpTo T (8 * (k + 1)) := by
  have hpay := BitVec.toNat_sub_of_le (BitVec.le_of_lt hlt)
  have hbits := length_payloadBits s
  have hpad := s.padding.isLt
  have hif : (if k + 1 = (s.inLen - s.hdrLen).toNat then s.padding.toNat else 0) = low :=
    (lowestBit_payload (s := s.unpackingStart) hk).symm.trans hlow
  by_cases hlast : k + 1 = (s.inLen - s.hdrLen).toNat
  · rw [if_pos hlast] at hif
    exact ⟨by omega, by rw [decodedUpTo_of_le T (by omega), decodedUpTo_of_le T (by omega)]⟩
  · rw [if_neg hlast] at hif
    exact ⟨by omega, by rw [← hif]; rfl⟩

include htree hT hr hlt hroom in
/-- The meaningful bits of payload byte `k`, most significant first (R73, R287). -/
theorem Descended.unpackByte_meets {k : Nat} (hk : k < (s.inLen - s.hdrLen).toNat)
    (h : Descended s T (s.decodedUpTo T (8 * k)) t) :
    (unpackByte (s.hdrLen + BitVec.ofNat 64 k) t).Meets
      (fun _ u => Descended s T (s.decodedUpTo T (8 * (k + 1))) u ∧ u.inPtr = s.hdrLen + BitVec.ofNat 64 (k + 1))
      (UnpackFault s T) := by
  obtain ⟨haddr, ha⟩ := payload_addr (BitVec.le_of_lt hlt) hk
  obtain ⟨hlen, hin, hparams, -⟩ := h.frame.keeps
  have hnext : s.hdrLen + BitVec.ofNat 64 k + 1 = s.hdrLen + BitVec.ofNat 64 (k + 1) := by
    rw [BitVec.ofNat_add, BitVec.add_assoc]
    rfl
  generalize hlow : lowestBit (s.hdrLen + BitVec.ofNat 64 k) t = low
  obtain ⟨hle, hend⟩ := decodedUpTo_byte hlt T hk ((h.frame.lowestBit _).symm.trans hlow)
  rw [unpackByte, inByte_of_lt (hlen ▸ ha) (hparams ▸ hr _ ha), Run.ok_andThen, haddr, hin, ← hend, ← hnext]
  show (forEach _ (bitsDownTo (lowestBit (s.hdrLen + BitVec.ofNat 64 k) t)) _).Meets _ _
  rw [hlow]
  refine (forEach_range_meets (I := fun i u => Descended s T (s.decodedUpTo T (8 * k + i)) u ∧
    u.upByte = s.inAt (s.hdrLen.toNat + k) ∧ u.inPtr = s.hdrLen + BitVec.ofNat 64 k + 1) (7 - ·) (8 - low) ?_
    ⟨h.registers t.upPos _ _, rfl, rfl⟩).mono (fun _ _ ⟨hu, _, hptr⟩ => ⟨hu, hptr⟩) fun _ => id
  rintro i hi u ⟨hu, hbyte, hptr⟩
  have hn : 8 * k + i < (payloadBits s).length := by omega
  have hdiv : (8 * k + i) / 8 = k := by omega
  have hbit : u.upByte.getLsbD (7 - i) = streamBit s.inAt s.hdrLen.toNat (8 * k + i) := by
    rw [hbyte, streamBit, hdiv, show (8 * k + i) % 8 = i by omega]
  have hstep := hu.unpackBit_meets (R := UnpackFault s T) htree hT (s.hdrLen + BitVec.ofNat 64 k) hbit
  rw [← decodedUpTo_succ T hn] at hstep
  refine (hstep ((HTree.length_decode_le (List.take_prefix _ _)).trans hroom) fun hnull w hphase => ?_).mono
    (fun _ _ ⟨hw, hbyte', hptr'⟩ => ⟨hw, hbyte'.trans hbyte, hptr'.trans hptr⟩) fun _ => id
  have hfault := UnpackFault.nullChild hu.inner hnull hphase
  rwa [hdiv] at hfault

/-- What BUNPACK of `s` leaves when it runs to its end (R284, R290, R291). -/
structure PayloadDecoded (s : State) (T : HTree) (t : State) : Prop where
  atRoot   : (T.decode (payloadBits s)).2 = []
  stream   : Streamed s.outMem 0 (T.decode (payloadBits s)).1 t
  symCount : t.symCount = BitVec.ofNat 64 (T.decode (payloadBits s)).1.length
  status   : t.status = s.status
  valid    : t.valid = { s.valid with cout := false, dout := true }
  payLen   : t.payLen = s.inLen - s.hdrLen
  inPtr    : t.inPtr = s.inLen
  upCur    : t.upCur = s.root
  upPos    : t.upPos = 7

include htree hT hr hlt hroom in
/-- Everything BUNPACK can do with a tree and a readable payload (R284). -/
theorem bunpackUnit_decodes (hv : s.valid.hdrr = true) :
    (bunpackUnit s).Meets (fun _ t => PayloadDecoded s T t) (UnpackFault s T) := by
  obtain ⟨root, -, hroot, -, -⟩ := htree.sides hT
  have hpay := BitVec.toNat_sub_of_le (BitVec.le_of_lt hlt)
  have hlt' := BitVec.lt_def.1 hlt
  have hsome : s.unpackingStart.payLen ≠ 0 := fun h0 => by
    rw [show s.inLen - s.hdrLen = 0 from h0] at hpay
    change 0 = _ at hpay
    omega
  have hstart : Descended s T (s.decodedUpTo T 0) { s.unpackingStart with upCur := some root } := by
    refine ⟨⟨_, _, _, _, _, _, _, rfl⟩, T.sub_nil.symm ▸ hT, ?_, fun _ => hroot.symm, ⟨rfl, rfl⟩, rfl⟩
    show Represents s (some root) (T.sub [])
    rw [T.sub_nil, ← hroot]
    exact htree
  have hloop := forAddr_meets (R := UnpackFault s T) (body := unpackByte)
    (I := fun k u => Descended s T (s.decodedUpTo T (8 * k)) u ∧ u.inPtr = s.hdrLen + BitVec.ofNat 64 k)
    (s.inLen - s.hdrLen).toNat s.hdrLen (fun k hk u ⟨hu, _⟩ => hu.unpackByte_meets htree hT hr hlt hroom hk)
    ⟨hstart, (BitVec.add_zero _).symm⟩
  rw [bunpackUnit_of_root hv hroot, unpackPayload_of_ne_empty root hsome, Run.andThen_assoc]
  refine Run.Meets.andThen hloop fun _ t ⟨ht, hptr⟩ => ?_
  rw [decodedUpTo_of_le T (by rw [length_payloadBits]; omega)] at ht
  obtain ⟨hinLen, -, -, -, hroot', hphase⟩ := ht.frame.keeps
  by_cases hend : t.upCur = t.root
  · have hself : T.sub (T.decode (payloadBits s)).2 = T :=
      ht.cursor.unique (by rw [hend, hroot']; exact htree)
    have hptr' : t.inPtr = s.inLen := by
      rw [hptr, BitVec.ofNat_toNat, BitVec.setWidth_eq, BitVec.add_comm, BitVec.sub_add_cancel]
    rw [if_pos hend]
    obtain ⟨_, _, _, _, _, _, _, rfl⟩ := ht.frame
    exact ⟨HTree.eq_nil_of_sub_eq_self hT hself, ht.stream.congr rfl rfl, ht.symCount, rfl, rfl, rfl, hptr', hend, rfl⟩
  · rw [if_neg hend, raise_andThen, hinLen]
    exact .insideCode ht.inner (fun hnil => hend ((ht.atRoot hnil).trans hroot'.symm)) hphase

theorem UnpackFault.of_busy {busy : Bool} (h : UnpackFault { s with busy := busy } T t) : UnpackFault s T t := by
  cases h with
  | nullChild hinner hnull hphase => exact .nullChild hinner hnull hphase
  | insideCode hinner hne hphase => exact .insideCode hinner hne hphase

include htree hT hr hlt hroom in
theorem exec_bunpack_decodes (ha : s.accepting) (hv : s.valid.hdrr = true) :
    ∃ t, exec .bunpack s = .next t ∧ (PayloadDecoded s T t ∨ UnpackFault s T t) := by
  have htree' : Represents { s with busy := true } s.root T :=
    htree.congr (s := s) (t := { s with busy := true }) rfl
  obtain ⟨t, ht, ⟨u, hu, rfl⟩ | hfault⟩ :=
    (bunpackUnit_decodes (s := { s with busy := true }) htree' hT hr hlt hroom hv).finish
  · exact ⟨_, (exec_bunpack ha).trans ht, .inl ⟨hu.atRoot, hu.stream.congr rfl rfl, hu.symCount, hu.status, hu.valid,
      hu.payLen, hu.inPtr, hu.upCur, hu.upPos⟩⟩
  · exact ⟨t, (exec_bunpack ha).trans ht, .inr hfault.of_busy⟩

end tree

/-! ### The command -/

theorem sub_decodedUpTo_of_null {k n : Nat} (h : k ≤ n) (hnull : T.sub (s.decodedUpTo T k).2 = .null) :
    T.sub (s.decodedUpTo T n).2 = .null :=
  HTree.sub_decode_of_null (List.take_prefix_take_left h) hnull

/-- Before the bit that leads out of the tree the descent is in it. -/
theorem le_of_inner_of_null {k n : Nat} (hinner : (T.sub (s.decodedUpTo T n).2).isFork = true)
    (hnull : T.sub (s.decodedUpTo T (k + 1)).2 = .null) : n ≤ k := by
  by_contra hlt
  exact HTree.ne_null_of_isFork hinner (sub_decodedUpTo_of_null (Nat.lt_of_not_le hlt) hnull)

theorem decodedUpTo_of_prefix {bits : List Bool} (T : HTree) (h : bits <+: payloadBits s) :
    s.decodedUpTo T bits.length = T.decode bits := by
  rw [State.decodedUpTo, ← List.prefix_iff_eq_take.1 h]

theorem sub_decode_payloadBits_of_null {k : Nat} (hnull : T.sub (s.decodedUpTo T k).2 = .null) :
    T.sub (T.decode (payloadBits s)).2 = .null :=
  HTree.sub_decode_of_null (List.take_prefix _ _) hnull

/-- Settles O36: the bits decode to the symbols and end at the root, so no fault is left. -/
theorem bunpackDecodesLeafPaths : Obligations.BunpackDecodesLeafPaths := by
  unfold Obligations.BunpackDecodesLeafPaths
  intro s T pieces ha hv htree hT hlt hr hwf hbits hpieces hcap
  have hdecode : T.decode (payloadBits s) = (pieces.map Prod.snd, []) := hbits ▸ HTree.decode_pieces hT hpieces
  have hroom : (T.decode (payloadBits s)).1.length ≤ s.params.outCap.toNat := by rwa [hdecode, List.length_map]
  obtain ⟨t, hrun, hdone | hfault⟩ := exec_bunpack_decodes htree hT hr hlt hroom ha hv
  · obtain ⟨-, hstream, hsym, hstatus, hvalid, hpay, hptr, hcur, hpos⟩ := hdone
    rw [hdecode] at hstream hsym
    have hout : t.outLen.toNat = pieces.length := by rw [hstream.outLen, List.length_map, Nat.zero_add]
    refine ⟨t, hrun, hstatus.trans ha.2, hvalid, hstream.output hwf, hout, ?_, hpay, hptr, hcur, hpos, fun a hle => ?_⟩
    · rw [hsym, List.length_map, BitVec.toNat_ofNat, Nat.mod_eq_of_lt (hcap.trans_lt s.params.outCap.isLt)]
    · exact hstream.outAt_outside (.inr (hout ▸ hle))
  · cases hfault with
    | nullChild _ hnull _ =>
      have hout := sub_decode_payloadBits_of_null hnull
      rw [hdecode, T.sub_nil] at hout
      exact absurd hout (HTree.ne_null_of_isFork hT)
    | insideCode _ hne _ => exact absurd (congrArg Prod.snd hdecode) hne

/-- Settles O39: the bits decode to the symbols and the path into the tree, so the payload ends inside a code. -/
theorem bunpackFaultsInsideACode : Obligations.BunpackFaultsInsideACode := by
  unfold Obligations.BunpackFaultsInsideACode
  intro s T pieces p ha hv htree hT hlt hr hbits hpieces hcap hne hp
  have hdecode : T.decode (payloadBits s) = (pieces.map Prod.snd, p) :=
    hbits ▸ HTree.decode_pieces_append hT hpieces hp
  have hroom : (T.decode (payloadBits s)).1.length ≤ s.params.outCap.toNat := by rwa [hdecode, List.length_map]
  obtain ⟨t, hrun, hdone | hfault⟩ := exec_bunpack_decodes htree hT hr hlt hroom ha hv
  · exact absurd ((congrArg Prod.snd hdecode).symm.trans hdone.atRoot) hne
  · cases hfault with
    | nullChild _ hnull _ =>
      have hout := sub_decode_payloadBits_of_null hnull
      rw [hdecode] at hout
      exact absurd hout (HTree.ne_null_of_isFork hp)
    | insideCode _ _ hphase => exact ⟨_, hrun, rfl, rfl, hphase, rfl⟩

/-- Settles O38: only the bit behind the path leads from an internal node out of the tree, and from there no bit leads
back. -/
theorem bunpackFaultsOnANullChild : Obligations.BunpackFaultsOnANullChild := by
  unfold Obligations.BunpackFaultsOnANullChild
  intro s T l r w pieces p rest bit ha hv htree hT hlt hr hbits hpieces hcap hp hchild
  have hfork : (T.sub p).isFork = true := by rw [hp]; rfl
  have hleaves : T.sub (p ++ [bit]) = .null := by
    rw [T.sub_append, hp]
    exact (HTree.sub_nil _).trans hchild
  have hpath := HTree.decode_pieces_append hT hpieces hfork
  generalize hbefore : pieces.flatMap Prod.fst ++ p = before at hbits hpath
  have hstep : T.decode (before ++ [bit]) = (pieces.map Prod.snd, p ++ [bit]) := by
    rw [T.decode_append, hpath]
    exact HTree.advance_of_noLeaf (HTree.leafAt_of_null hleaves)
  rw [← List.singleton_append, ← List.append_assoc] at hbits
  have hdecode : T.decode (payloadBits s) = (pieces.map Prod.snd, p ++ [bit] ++ rest) := by
    rw [hbits, T.decode_append, hstep, HTree.foldl_advance_of_null _ hleaves]
  have hroom : (T.decode (payloadBits s)).1.length ≤ s.params.outCap.toNat := by rwa [hdecode, List.length_map]
  have hout : T.sub (T.decode (payloadBits s)).2 = .null := by
    rw [hdecode]
    exact HTree.sub_append_of_null hleaves rest
  obtain ⟨t, hrun, hdone | hfault⟩ := exec_bunpack_decodes htree hT hr hlt hroom ha hv
  · rw [hdone.atRoot, T.sub_nil] at hout
    exact absurd hout (HTree.ne_null_of_isFork hT)
  · cases hfault with
    | insideCode hinner _ _ => exact absurd hout (HTree.ne_null_of_isFork hinner)
    | @nullChild n u hinner hnull hphase =>
      have hupTo : s.decodedUpTo T (before.length + 1) = _ :=
        (congrArg (s.decodedUpTo T) List.length_append.symm).trans (decodedUpTo_of_prefix T ⟨rest, hbits.symm⟩)
      have hprefix : before <+: payloadBits s := hbits ▸ (List.prefix_append _ _).trans (List.prefix_append _ _)
      have hn : n = before.length := by
        refine (le_of_inner_of_null hinner ?_).antisymm (le_of_inner_of_null ?_ hnull)
        · rw [hupTo, hstep]
          exact hleaves
        · rw [decodedUpTo_of_prefix T hprefix, hpath]
          exact hfork
      have hlen : n < (payloadBits s).length := by
        rw [hbits, hn]
        simp
      have hpay := BitVec.toNat_sub_of_le (BitVec.le_of_lt hlt)
      rw [length_payloadBits] at hlen
      refine ⟨_, hrun, rfl, (payload_addr (BitVec.le_of_lt hlt) (by omega)).1.trans ?_, hphase, rfl⟩
      rw [hn, ← hbefore, List.length_append]

end Sys2Proof.Machine

/-! ## DECOMPRESS of an archive (R311, R292) -/

namespace Sys2Proof.Machine

variable {s t : State} {entries sent : List (Byte × Code)} {pad : BitVec 3}

/-- `IN` of `s` is an archive: the header of the entries, then the packed codes of a sequence of them (R110, R115). -/
structure HoldsArchive (entries sent : List (Byte × Code)) (pad : BitVec 3) (s : State) : Prop where
  accepted : EntriesOk entries
  drawn    : ∀ e ∈ sent, e ∈ entries
  nonempty : sent ≠ []
  padding  : pad.toNat = (8 - (sent.flatMap Prod.snd).length % 8) % 8
  inLen    : s.inLen.toNat = (headerOf entries pad).length + ((sent.flatMap Prod.snd).length + 7) / 8
  header   : ∀ k v, (headerOf entries pad)[k]? = some v → s.inAt k = v
  payload  : ∀ k bit, (sent.flatMap Prod.snd)[k]? = some bit → streamBit s.inAt (headerOf entries pad).length k = bit

/-- A sequence of entries has at least one code bit (R113). -/
theorem HoldsArchive.length_pos (h : HoldsArchive entries sent pad s) : 0 < (sent.flatMap Prod.snd).length := by
  obtain ⟨e, rest, rfl⟩ := List.exists_cons_of_ne_nil h.nonempty
  have hpos := (h.accepted.lengths e (h.drawn e (by simp))).1
  rw [List.flatMap_cons, List.length_append]
  omega

/-- Once the header is read, the meaningful payload bits are the codes sent (R287). -/
theorem HoldsArchive.payloadBits_eq (h : HoldsArchive entries sent pad s) (hlen : t.inLen = s.inLen)
    (hin : t.inAt = s.inAt) (hhdr : t.hdrLen.toNat = (headerOf entries pad).length) (hpad : t.padding = pad) :
    payloadBits t = sent.flatMap Prod.snd := by
  have hpos := h.length_pos
  have hlength : (payloadBits t).length = (sent.flatMap Prod.snd).length := by
    rw [length_payloadBits, hlen, hhdr, hpad, h.inLen, h.padding]
    omega
  refine List.ext_getElem hlength fun k h1 h2 => ?_
  have hbit := h.payload k _ (List.getElem?_eq_getElem h2)
  simpa [payloadBits, hin, hhdr] using hbit

/-- BUNPACK of bits that decode to symbols that fit, and end at the root, meets no fault (R284, R289). -/
theorem bunpackUnit_of_decode {T : HTree} {syms : List Byte} (htree : Represents s s.root T) (hT : T.isFork = true)
    (hr : s.inputReadable) (hlt : s.hdrLen < s.inLen) (hv : s.valid.hdrr = true)
    (hdecode : T.decode (payloadBits s) = (syms, [])) (hroom : syms.length ≤ s.params.outCap.toNat) :
    ∃ t, bunpackUnit s = .ok () t ∧ PayloadDecoded s T t := by
  have hno : ∀ t, ¬ UnpackFault s T t := fun t hfault => by
    cases hfault with
    | nullChild _ hnull _ =>
      have hout := sub_decode_payloadBits_of_null hnull
      rw [hdecode, T.sub_nil] at hout
      exact HTree.ne_null_of_isFork hT hout
    | insideCode _ hne _ => exact hne (congrArg Prod.snd hdecode)
  have hrun := bunpackUnit_decodes htree hT hr hlt (by rwa [hdecode]) hv
  obtain ⟨⟨⟩, t, hok, hdone⟩ := (hrun.mono (fun _ _ => id) hno).exists_ok
  exact ⟨t, hok, hdone⟩

/-- The codes of a sequence of entries decode to its byte values in a tree that holds the entries (R292). -/
theorem HTree.Holds.decode_sent {T : HTree} (h : T.Holds entries) (hsent : ∀ e ∈ sent, e ∈ entries) :
    T.decode (sent.flatMap Prod.snd) = (sent.map Prod.fst, []) := by
  have hpieces : ∀ pc ∈ sent.map Prod.swap, T.leafAt pc.1 = some pc.2 := fun pc hpc => by
    obtain ⟨e, he, rfl⟩ := List.mem_map.1 hpc
    exact (h.leaves e.2 e.1).2 (hsent e he)
  have hdecode := HTree.decode_pieces h.isFork hpieces
  rwa [List.flatMap_map, List.map_map] at hdecode

/-- DECOMPRESS of an archive that fits writes the byte values of the sequence (R311, R284). -/
theorem decompressUnits_of_archive (h : HoldsArchive entries sent pad s) (hr : s.inputReadable)
    (hroom : sent.length ≤ s.params.outCap.toNat) :
    ∃ t, decompressUnits s = .ok () t ∧ Streamed s.outMem 0 (sent.map Prod.fst) t ∧ t.status = s.status ∧
      t.valid = { Valid.allClear with hdrr := true, dout := true } ∧
      t.hdrLen.toNat = (headerOf entries pad).length := by
  obtain ⟨u, T, hunpack, hgiven, hhdr, hpad, hT, hholds⟩ :=
    hunpackUnit_of_header h.accepted hr (h.inLen ▸ Nat.le_add_right _ _) h.header
  obtain ⟨-, -, _, _, _, _, _, _, _, _, hu⟩ := (hunpackUnit_meets s).ends.of_eq_ok hunpack
  have hlen : u.inLen = s.inLen := by rw [hu]
  have hin : u.inAt = s.inAt := by rw [hu]; rfl
  have hparams : u.params = s.params := by rw [hu]
  have houtMem : u.outMem = s.outMem := by rw [hu]
  have hvalid : u.valid = { Valid.allClear with hdrr := true } := by rw [hu]
  have hlt : u.hdrLen < u.inLen := by
    have hpos := h.length_pos
    rw [BitVec.lt_def, hhdr, hlen, h.inLen]
    omega
  have hdecode : T.decode (payloadBits u) = (sent.map Prod.fst, []) := by
    rw [h.payloadBits_eq hlen hin hhdr hpad]
    exact hholds.decode_sent h.drawn
  obtain ⟨t, hbits, hdone⟩ := bunpackUnit_of_decode (hgiven.root ▸ hT) hholds.isFork
    (fun a ha => hparams ▸ hr a (hlen ▸ ha)) hlt (by rw [hvalid]) hdecode (by rwa [List.length_map, hparams])
  obtain ⟨-, -, _, _, _, _, _, _, _, ht⟩ := (bunpackUnit_ends u).of_eq_ok hbits
  have hstream := hdone.stream
  rw [hdecode, houtMem] at hstream
  refine ⟨t, ?_, hstream, hdone.status.trans hgiven.status, ?_, ?_⟩
  · rw [decompressUnits, hunpack, Run.ok_andThen, hbits]
  · rw [hdone.valid, hvalid]
    rfl
  · rw [ht]
    exact hhdr

theorem exec_decompress_of_archive (ha : s.accepting) (h : HoldsArchive entries sent pad s) (hr : s.inputReadable)
    (hroom : sent.length ≤ s.params.outCap.toNat) (hwf : Memory.wf s.outMem) :
    ∃ t, exec .decompress s = .next t ∧ t.status = none ∧
      t.valid = { Valid.allClear with hdrr := true, dout := true } ∧ t.output = sent.map Prod.fst ∧
      t.hdrLen.toNat = (headerOf entries pad).length := by
  have hbusy : HoldsArchive entries sent pad { s with busy := true } :=
    ⟨h.accepted, h.drawn, h.nonempty, h.padding, h.inLen, h.header, h.payload⟩
  obtain ⟨u, hrun, hstream, hstatus, hvalid, hhdr⟩ := decompressUnits_of_archive hbusy hr hroom
  exact ⟨_, (accept_run decompressUnits ha.1 ha.2).trans (congrArg Run.finish hrun), hstatus.trans ha.2, hvalid,
    Streamed.output (hstream.congr rfl rfl) hwf, hhdr⟩

/-- Settles O45: the tree HUNPACK builds holds the entries, so the payload's bits decode to the sequence sent. -/
theorem decompressDecodesArchives : Obligations.DecompressDecodesArchives := by
  unfold Obligations.DecompressDecodesArchives
  intro s entries pad sent ha hr hwf hes hne hsent h bits hpad hlen hheader hpayload hroom
  obtain ⟨t, hrun, hstatus, hvalid, hout, -⟩ :=
    exec_decompress_of_archive ha ⟨hes, hsent, hne, hpad, hlen, hheader, hpayload⟩ hr hroom hwf
  exact ⟨t, hrun, hstatus, by rw [hvalid]; rfl, hout⟩

end Sys2Proof.Machine

/-! ## The round trip (R316, R317) -/

namespace Sys2Proof.Machine

variable {s t u : State}

/-! ### The archive COMPRESS leaves -/

/-- HPACK that ran to its end found room for all of the header (R215, R219). -/
theorem hpackUnit_streams (h : hpackUnit s = .ok () t) :
    Streamed s.outMem 0 (headerBytes s.code s.padding) t := by
  obtain ⟨hv, -, -⟩ := (hpackUnit_meets s).ends.of_eq_ok h
  rcases le_or_gt (headerLength s.code) s.params.outCap.toNat with hroom | hfull
  · obtain ⟨t', hrun, hstream, -⟩ := hpackUnit_of_room hv hroom
    obtain rfl : t' = t := by
      rw [h] at hrun
      cases hrun
      rfl
    exact hstream
  · obtain ⟨_, _, hloop, -⟩ := forEach_emit_of_full (s := s.headerStart) (l := headerBytes s.code s.padding)
      (Nat.zero_le _) (by rw [length_headerBytes]; exact hfull.trans_eq (Nat.zero_add _).symm)
    rw [hpackUnit_eq hv, hloop] at h
    cases h

/-- Exactly the byte values of the input have a code (R193). -/
theorem InputCoded.code_ne_nil_iff {T : HTree} (h : InputCoded s T u) (b : Byte) :
    u.code.get b ≠ [] ↔ b ∈ s.input := by
  rw [h.table.code_ne_nil_iff h.tree, ← List.count_pos_iff, ← h.freq, ne_eq, ← BitVec.toNat_inj]
  exact Nat.pos_iff_ne_zero.symm

/-- The state between HPACK and BPACK of a compression that started in `s` and left `u` to HPACK (R310): the header is
written, and what BPACK reads is as the units before left it. -/
structure HeaderPacked (s u v : State) : Prop where
  mayPack : v.mayPack = true
  params  : v.params = s.params
  inLen   : v.inLen = s.inLen
  input   : v.input = s.input
  code    : v.code = u.code
  padding : v.padding = u.padding
  freq    : v.freq = u.freq
  hdrLen  : v.hdrLen = v.outLen
  stream  : Streamed s.outMem 0 (headerBytes u.code u.padding) v

theorem InputCoded.headerPacked {T : HTree} (h : InputCoded s T u) (hpack : hpackUnit u = .ok () t) :
    HeaderPacked s u t := by
  obtain ⟨-, -, _, _, ht⟩ := (hpackUnit_meets u).ends.of_eq_ok hpack
  have hstream := hpackUnit_streams hpack
  rw [h.outMem] at hstream
  have hlen : t.inLen = s.inLen := by rw [ht]; exact h.inLen
  refine ⟨(mayPack_iff t).2 ?_, by rw [ht]; exact h.params, hlen, input_congr hlen (by rw [ht]; exact h.inMem),
    by rw [ht], by rw [ht], by rw [ht], by rw [ht], hstream⟩
  rw [ht]
  exact ⟨h.valid, rfl, rfl⟩

/-- The bytes of an archive (R110): the header of the table, then the codes of the input packed into bytes. -/
def archiveBytes (code : Table Code) (padding : BitVec 3) (input : List Byte) : List Byte :=
  headerBytes code padding ++ packedBytes (codeBits code input) (((codeBits code input).length + 7) / 8)

/-- What a compression of `s` leaves in `CODE`, `PADDING` and `OUT` (R310): a code for each byte value of the input, and
the archive of the input in that table. -/
structure Archived (s t : State) : Prop where
  prefixFree : prefixFree t.code
  fits       : codesFit t.code
  coded      : ∀ b, t.code.get b ≠ [] ↔ b ∈ s.input
  padding    : t.padding.toNat = (8 - (codeBits t.code s.input).length % 8) % 8
  hdrLen     : t.hdrLen.toNat = headerLength t.code
  stream     : Streamed s.outMem 0 (archiveBytes t.code t.padding s.input) t

theorem archived_of_compressUnits (h : compressUnits s = .ok () t) : Archived s t := by
  obtain ⟨u, v, T, hcoded, hpack, hbits⟩ := codedUnits_of_compressUnits h
  have hheader := hcoded.headerPacked hpack
  obtain ⟨-, -, -, _, _, _, _, _, _, _, ht⟩ := (bpackUnit_meets v).ends.of_eq_ok hbits
  have hpayload := ((bpackUnit_packs hheader.mayPack).ends.of_eq_ok hbits).stream
  have hstream := hheader.stream
  have hcode : v.code = t.code := by rw [ht]
  have hcode' : u.code = t.code := hheader.code.symm.trans hcode
  have hpadding : u.padding = t.padding := hheader.padding.symm.trans (by rw [ht])
  have hhdr : t.hdrLen = v.outLen := by
    rw [ht]
    exact hheader.hdrLen
  rw [hheader.input, hcode] at hpayload
  rw [hcode', hpadding] at hstream
  refine ⟨hcode' ▸ hcoded.table.prefixFree, hcode' ▸ hcoded.table.codesFit hcoded.tree,
    hcode' ▸ hcoded.code_ne_nil_iff, ?_, ?_, hstream.trans hpayload⟩
  · rw [← hpadding, hcoded.table.padding, hcoded.totalBits, hcode']
  · rw [hhdr, hstream.outLen, length_headerBytes, Nat.zero_add]

/-! ### The archive as the input of DECOMPRESS -/

theorem inAt_of_input {l : List Byte} (h : s.input = l) {k : Nat} {v : Byte} (hk : l[k]? = some v) : s.inAt k = v := by
  subst h
  have hlt := (List.getElem?_eq_some_iff.1 hk).1
  rw [length_input] at hlt
  exact Option.some.inj ((input_getElem? hlt).symm.trans hk)

theorem packedBytes_getElem? (bits : List Bool) {n k : Nat} (hk : k < n) :
    (packedBytes bits n)[k]? = some (packedByte bits k) := by
  rw [packedBytes, List.getElem?_map, List.getElem?_range hk]
  rfl

theorem length_present_le (code : Table Code) : (present code).length ≤ 256 := by
  rw [present_eq_map, List.length_map, ← allBytes_length]
  exact List.length_filter_le _ _

/-- A writer's entries are ones a reader accepts (R112, R113, R196). -/
theorem entriesOk_present {code : Table Code} (hpre : prefixFree code) (hfit : codesFit code)
    (hne : present code ≠ []) : EntriesOk (present code) := by
  have hentry : ∀ e ∈ present code, e.2 = code.get e.1 ∧ code.get e.1 ≠ [] := fun e he => by
    rw [present_eq_map] at he
    obtain ⟨b, hb, rfl⟩ := List.mem_map.1 he
    exact ⟨rfl, of_decide_eq_true (List.mem_filter.1 hb).2⟩
  refine ⟨⟨List.length_pos_of_ne_nil hne, length_present_le code⟩, fun e he => ?_, ?_⟩
  · obtain ⟨hcode, hsome⟩ := hentry e he
    rw [hcode]
    exact ⟨List.length_pos_of_ne_nil hsome, hfit e.1⟩
  · refine (present_sorted code).imp_of_mem fun {e f} he hf hlt => ?_
    obtain ⟨hcode, hsome⟩ := hentry e he
    obtain ⟨hcode', hsome'⟩ := hentry f hf
    have hne : e.1 ≠ f.1 := fun heq => BitVec.lt_irrefl _ (heq ▸ hlt)
    rw [hcode, hcode']
    exact ⟨hpre _ _ hne hsome hsome', hpre _ _ hne.symm hsome' hsome⟩

/-- The input as a sequence of entries of the table. -/
def entriesSent (code : Table Code) (input : List Byte) : List (Byte × Code) := input.map fun b => (b, code.get b)

theorem flatMap_snd_entriesSent (code : Table Code) (input : List Byte) :
    (entriesSent code input).flatMap Prod.snd = codeBits code input := List.flatMap_map ..

theorem map_fst_entriesSent (code : Table Code) (input : List Byte) :
    (entriesSent code input).map Prod.fst = input := by
  rw [entriesSent, List.map_map]
  exact List.map_id input

/-- `IN` holds the archive of a compression of a non-empty input (R110). -/
theorem Archived.holdsArchive (h : Archived s t) (hne : s.input ≠ [])
    (hin : u.input = archiveBytes t.code t.padding s.input) :
    HoldsArchive (present t.code) (entriesSent t.code s.input) t.padding u := by
  have hmem : ∀ b ∈ s.input, (b, t.code.get b) ∈ present t.code := fun b hb => mem_present ((h.coded b).2 hb)
  have hpresent : present t.code ≠ [] := List.ne_nil_of_mem (hmem _ (List.head_mem hne))
  rw [archiveBytes, headerBytes_of_ne_nil _ hpresent] at hin
  have hlen := congrArg List.length hin
  rw [length_input, List.length_append, length_packedBytes] at hlen
  refine ⟨entriesOk_present h.prefixFree h.fits hpresent, fun e he => ?_, by simpa [entriesSent] using hne, ?_, ?_,
    fun k v hk => ?_, fun k bit hk => ?_⟩
  · obtain ⟨b, hb, rfl⟩ := List.mem_map.1 he
    exact hmem b hb
  · rw [flatMap_snd_entriesSent]
    exact h.padding
  · rwa [flatMap_snd_entriesSent]
  · exact inAt_of_input hin ((List.getElem?_append_left (List.getElem?_eq_some_iff.1 hk).1).trans hk)
  · rw [flatMap_snd_entriesSent] at hk
    have hlt := (List.getElem?_eq_some_iff.1 hk).1
    have hbyte : u.inAt ((headerOf (present t.code) t.padding).length + k / 8) =
        packedByte (codeBits t.code s.input) (k / 8) := by
      refine inAt_of_input hin ?_
      rw [List.getElem?_append_right (Nat.le_add_right _ _), Nat.add_sub_cancel_left]
      exact packedBytes_getElem? _ (by omega)
    rw [streamBit, hbyte, getLsbD_packedByte _ _ (by omega), List.getD_eq_getElem?_getD,
      show 8 * (k / 8) + (7 - (7 - k % 8)) = k by omega, hk]
    rfl

/-! ### The empty archive -/

theorem hunpackUnit_of_empty (h0 : s.inLen = 0) : hunpackUnit s =
    .ok () ((s.startUnit .headerUnpacker).unpackStart.endUnit { Valid.allClear with hdrr := true }) := by
  have hlen : (s.startUnit .headerUnpacker).unpackStart.inLen = 0 := h0
  rw [hunpackUnit]
  dsimp only
  rw [if_pos hlen]
  rfl

/-- DECOMPRESS of the empty archive gives the empty output (R232, R285). -/
theorem exec_decompress_of_empty (ha : s.accepting) (h0 : s.inLen = 0) :
    ∃ t, exec .decompress s = .next t ∧ t.status = none ∧
      t.valid = { Valid.allClear with hdrr := true, dout := true } ∧ t.output = [] ∧ t.hdrLen = 0 := by
  have hrun : decompressUnits { s with busy := true } = _ :=
    (congrArg (Run.andThen · fun _ t => bunpackUnit t) (hunpackUnit_of_empty (s := { s with busy := true }) h0)).trans
      (bunpackUnit_of_noRoot rfl rfl)
  exact ⟨_, (accept_run decompressUnits ha.1 ha.2).trans (congrArg Run.finish hrun), ha.2, rfl, rfl, rfl⟩

/-- An empty input has no code and so the empty archive (R217). -/
theorem Archived.of_empty (h : Archived s t) (hnil : s.input = []) :
    archiveBytes t.code t.padding s.input = [] ∧ t.hdrLen = 0 := by
  have hpresent : present t.code = [] := present_eq_nil fun b => by
    have hnot : b ∉ s.input := hnil ▸ List.not_mem_nil
    exact not_not.1 (mt (h.coded b).1 hnot)
  have hbytes := headerBytes_of_nil t.padding hpresent
  refine ⟨by simp [archiveBytes, hbytes, hnil, codeBits, packedBytes], BitVec.eq_of_toNat_eq ?_⟩
  rw [h.hdrLen, ← length_headerBytes t.code t.padding, hbytes]
  rfl

/-! ### The round trip -/

/-- DECOMPRESS of what COMPRESS of `s` left gives the input of `s` back (R316, R246). -/
theorem Archived.exec_decompress (h : Archived s t) (hu : u.accepting)
    (hin : u.input = archiveBytes t.code t.padding s.input) (hr : u.inputReadable) (hwf : Memory.wf u.outMem)
    (hroom : s.inLen ≤ u.params.outCap) :
    ∃ v, exec .decompress u = .next v ∧ v.status = none ∧
      v.valid = { Valid.allClear with hdrr := true, dout := true } ∧ v.output = s.input ∧ v.hdrLen = t.hdrLen := by
  by_cases hnil : s.input = []
  · obtain ⟨hempty, hhdr⟩ := h.of_empty hnil
    rw [hnil, hhdr]
    exact exec_decompress_of_empty hu (input_eq_nil_iff.1 (hin.trans hempty))
  · have harchive := h.holdsArchive hnil hin
    have hsent : (entriesSent t.code s.input).length ≤ u.params.outCap.toNat := by
      rw [entriesSent, List.length_map, length_input]
      exact BitVec.le_def.1 hroom
    obtain ⟨v, hrun, hstatus, hvalid, hout, hhdr⟩ := exec_decompress_of_archive hu harchive hr hsent hwf
    refine ⟨v, hrun, hstatus, hvalid, hout.trans (map_fst_entriesSent _ _), BitVec.eq_of_toNat_eq ?_⟩
    rw [hhdr, h.hdrLen, ← length_headerBytes t.code t.padding,
      headerBytes_of_ne_nil _ (List.ne_nil_of_length_pos harchive.accepted.count.1)]

/-- Copies of one byte value have the code "0" and the 5 header bytes of R218. -/
theorem compressUnits_codes_copies {b : Byte} (h : compressUnits s = .ok () t) (hne : s.inLen ≠ 0)
    (hall : ∀ c ∈ s.input, c = b) : t.code.get b = [false] ∧ headerLength t.code = 5 := by
  obtain ⟨⟨⟩, _, hscan₀, -⟩ := Run.andThen_eq_ok h
  obtain ⟨_, _, u, hscan, hbuild, hderive, hcopies⟩ := units_of_copies (inputReadable_of_fscanUnit hscan₀) hne hall
  rw [compressUnits, hscan, Run.ok_andThen, hbuild, Run.ok_andThen, hderive, Run.ok_andThen] at h
  obtain ⟨⟨⟩, v, hpack, hbits⟩ := Run.andThen_eq_ok h
  obtain ⟨-, -, _, _, hv⟩ := (hpackUnit_meets u).ends.of_eq_ok hpack
  obtain ⟨-, -, -, _, _, _, _, _, _, _, ht⟩ := (bpackUnit_meets v).ends.of_eq_ok hbits
  have hcode : t.code = u.code := by rw [ht, hv]
  rw [hcode, ← length_headerBytes u.code u.padding, hcopies.header]
  exact ⟨hcopies.code, rfl⟩

/-- Copies of one byte value cost a bit each (R218). -/
theorem length_codeBits_copies {code : Table Code} {b : Byte} {l : List Byte} (hb : code.get b = [false])
    (hall : ∀ c ∈ l, c = b) : (codeBits code l).length = l.length := by
  rw [List.eq_replicate_length.2 hall]
  simp [codeBits, hb]

/-- Settles O48: what COMPRESS leaves in `OUT` is an archive of the table's entries, and DECOMPRESS decodes archives. -/
theorem decompressInvertsCompress : Obligations.DecompressInvertsCompress := by
  unfold Obligations.DecompressInvertsCompress
  intro s t u ha hwf h hst hu hwf' hin hr hroom
  obtain ⟨w, hrun, rfl⟩ := ok_of_accept unitsKeep_true.compress trivial ha h hst
  have harchived := archived_of_compressUnits hrun
  obtain ⟨-, htotal, -, hpayLen, houtLen⟩ := payloadDescribed_of_compressUnits hrun
  have houtput : ({ w with busy := false } : State).output = archiveBytes w.code w.padding s.input :=
    Streamed.output (harchived.stream.congr rfl rfl) hwf
  obtain ⟨v, hv, hstatus, hvalid, hout, hhdr⟩ :=
    harchived.exec_decompress (s := { s with busy := true }) hu (hin.trans houtput) hr hwf' hroom
  have hobserve : v.observe = .succeeded s.input := by
    rw [State.observe, hstatus, hvalid]
    exact congrArg Observation.succeeded hout
  refine ⟨v, hv, hstatus, hobserve, hobserve, harchived.prefixFree, ⟨hhdr, harchived.hdrLen.symm⟩, fun hne => ?_,
    fun b hne hall => ?_⟩
  · obtain ⟨-, -, hpayload, -⟩ := paddingAccountsForThePayload s _ ha hne h hst
    exact hpayload
  · obtain ⟨hcode, hlen⟩ := compressUnits_codes_copies (s := { s with busy := true }) hrun hne hall
    have hbits := length_codeBits_copies hcode hall
    have hhdr5 : w.hdrLen.toNat = 5 := harchived.hdrLen.trans hlen
    refine ⟨BitVec.eq_of_toNat_eq hhdr5, ?_⟩
    show w.outLen.toNat = _
    rw [houtLen, hhdr5, hpayLen, htotal]
    show 5 + ((codeBits w.code s.input).length + 7) / 8 = _
    rw [hbits, length_input]

end Sys2Proof.Machine

/-! ## The composite commands: their unit sequences and their frames (R310, R311, R313) -/

namespace Sys2Proof.Machine

variable {s t u : State}

/-! ### A composite is its unit commands, one after the other -/

/-- A command is being executed: `BUSY` is set and no fault has been raised (R302). -/
def Running (s : State) : Prop := s.busy = true ∧ s.status = none

/-- Between units `BUSY` and `STATUS` stand as the command found them: no unit writes them (R302). -/
theorem unitsKeep_running : UnitsKeep Running where
  fscan := fun s h => (fscanUnit_meets s).ends.mono (fun _ _ ⟨hs, _, _, _, ht⟩ => ⟨ht ▸ h, hs⟩) fun _ => id
  tbuild := fun s h =>
    (tbuildUnit_meets s).ends.mono (fun _ _ ⟨_, hs, _, _, _, _, _, _, ht⟩ => ⟨ht ▸ h, hs⟩) fun _ => id
  cderive := fun s h => (cderiveUnit_ends s).mono (fun _ _ ⟨_, hs, _, _, ht⟩ => ⟨ht ▸ h, hs⟩) fun _ => id
  hpack := fun s h => (hpackUnit_meets s).ends.mono (fun _ _ ⟨_, hs, _, _, ht⟩ => ⟨ht ▸ h, hs⟩) fun _ => id
  hunpack := fun s h =>
    (hunpackUnit_meets s).ends.mono (fun _ _ ⟨hs, _, _, _, _, _, _, _, _, _, ht⟩ => ⟨ht ▸ h, hs⟩) fun _ => id
  bpack := fun s h =>
    (bpackUnit_meets s).ends.mono (fun _ _ ⟨_, hs, _, _, _, _, _, _, _, _, ht⟩ => ⟨ht ▸ h, hs⟩) fun _ => id
  bunpack := fun s h =>
    (bunpackUnit_ends s).mono (fun _ _ ⟨_, hs, _, _, _, _, _, _, _, ht⟩ => ⟨ht ▸ h, hs⟩) fun _ => id

theorem runCommands_singleton (i : Instr) (s : State) : runCommands [i] s = exec i s := by
  rw [runCommands]
  cases exec i s <;> rfl

/-- A command and the commands behind it, accepted one by one, are their units run in one command: where a unit faults,
the faulted block ignores the commands that are left (R301, R313). -/
theorem runCommands_cons {i : Instr} {is : List Instr} {unit rest : State → Run Unit} (hu : Keeps Running unit)
    (hi : ∀ s, exec i s = accept unit s) (his : ∀ s, runCommands is s = accept rest s) (s : State) :
    runCommands (i :: is) s = accept (fun s => (unit s).andThen fun _ t => rest t) s := by
  rw [runCommands, hi]
  rcases accept_cases unit s with ⟨hb, ha⟩ | ⟨hb, ⟨c, hc⟩, ha⟩ | ⟨hb, hs, ha⟩ <;> rw [ha]
  · exact (accept_busy _ hb).symm
  · exact (his s).trans ((accept_ignored rest hb hc).trans (accept_ignored _ hb hc).symm)
  · have hrun := hu { s with busy := true } ⟨rfl, hs⟩
    rw [accept_run _ hb hs]
    cases hr : unit { s with busy := true } with
    | stuck f => rfl
    | raised t =>
      rw [hr] at hrun
      obtain ⟨c, hc⟩ := Option.ne_none_iff_exists'.1 hrun.status
      exact (his t).trans (accept_ignored rest hrun.busy hc)
    | ok a t =>
      rw [hr] at hrun
      obtain ⟨⟨hbusy, hstatus⟩, -⟩ := hrun
      have hback : ({ t with busy := true } : State) = t := by rw [← hbusy]
      have hnext := (his { t with busy := false }).trans (accept_run rest (s := { t with busy := false }) rfl hstatus)
      exact hnext.trans (congrArg (fun u => (rest u).finish) hback)

theorem exec_compress_eq_runCommands (s : State) :
    exec .compress s = runCommands [.fscan, .tbuild, .cderive, .hpack, .bpack] s := by
  refine (runCommands_cons unitsKeep_running.fscan (fun _ => rfl) ?_ s).symm
  refine runCommands_cons unitsKeep_running.tbuild (fun _ => rfl) ?_
  refine runCommands_cons unitsKeep_running.cderive (fun _ => rfl) ?_
  exact runCommands_cons unitsKeep_running.hpack (fun _ => rfl) (runCommands_singleton .bpack)

theorem exec_decompress_eq_runCommands (s : State) : exec .decompress s = runCommands [.hunpack, .bunpack] s :=
  (runCommands_cons unitsKeep_running.hunpack (fun _ => rfl) (runCommands_singleton .bunpack) s).symm

/-- Settles O41: each unit hands on to the next one the state its own command would have left, but for `BUSY`. -/
theorem compositesEqualTheirUnitSequences : Obligations.CompositesEqualTheirUnitSequences := by
  unfold Obligations.CompositesEqualTheirUnitSequences
  exact fun s _ => ⟨exec_compress_eq_runCommands s, exec_decompress_eq_runCommands s⟩

/-! ### Their frames -/

theorem Appended.trans (h : Appended s t) (h' : Appended t u) : Appended s u := by
  obtain ⟨l, hl⟩ := h
  obtain ⟨l', hl'⟩ := h'
  exact ⟨_, hl.trans hl'⟩

/-- `OUT` at and above the cursor of `t` is as in `s`. -/
def KeepsAbove (s t : State) : Prop := ∀ a, t.outLen.toNat ≤ a → t.outAt a = s.outAt a

/-- The fields the units of COMPRESS write (R310). -/
def CompressedFrom (s t : State) : Prop :=
  t = { s with
    freq := t.freq, alpha := t.alpha, inPtr := t.inPtr, node := t.node, nodeCount := t.nodeCount, root := t.root
    list := t.list, listLen := t.listLen, code := t.code, totalBits := t.totalBits, padding := t.padding
    outMem := t.outMem, outLen := t.outLen, hdrLen := t.hdrLen, payLen := t.payLen, symCount := t.symCount
    pkAcc := t.pkAcc, pkPos := t.pkPos, valid := t.valid, phase := t.phase }

/-- The frames of the five units in turn; the stream of HPACK starts at 0 and BPACK goes on with it (R215, R262). -/
theorem compressUnits_ends (s : State) :
    (compressUnits s).Ends
      (fun _ t => KeepsAbove s t ∧ CompressedFrom s t ∧
        t.valid = { Valid.allClear with freq := true, tree := true, code := true, hdrw := true, cout := true })
      (FaultFrom s) := by
  refine (fscanUnit_meets s).ends.andThen ?_
  rintro - _ ⟨hs, _, _, _, rfl⟩
  refine ((tbuildUnit_meets _).ends.faultFrom hs).andThen ?_
  rintro - _ ⟨-, hs', -, _, _, _, _, _, rfl⟩
  replace hs := hs.trans hs'
  refine ((cderiveUnit_ends _).faultFrom hs).andThen ?_
  rintro - _ ⟨-, hs', _, _, rfl⟩
  replace hs := hs.trans hs'
  refine (((hpackUnit_meets _).ends.and_appended (hpackUnit_appends _)).faultFrom hs).andThen ?_
  rintro - _ ⟨⟨-, hs', _, _, rfl⟩, hheader⟩
  replace hs := hs.trans hs'
  refine (((bpackUnit_meets _).ends.and_appended (bpackUnit_appends _)).faultFrom hs).mono ?_ fun _ => id
  rintro - _ ⟨⟨-, -, -, _, _, _, _, _, _, _, rfl⟩, hpayload⟩
  exact ⟨fun a ha => (hheader.trans hpayload).outAt_outside (.inr ha), rfl, rfl⟩

/-- The fields the units of DECOMPRESS write (R311). -/
def DecompressedFrom (s t : State) : Prop :=
  t = { s with
    node := t.node, nodeCount := t.nodeCount, root := t.root, padding := t.padding, hdrLen := t.hdrLen
    alpha := t.alpha, huCount := t.huCount, inPtr := t.inPtr, outMem := t.outMem, outLen := t.outLen
    payLen := t.payLen, symCount := t.symCount, upCur := t.upCur, upPos := t.upPos, upByte := t.upByte
    valid := t.valid, phase := t.phase }

theorem decompressUnits_ends (s : State) :
    (decompressUnits s).Ends
      (fun _ t => KeepsAbove s t ∧ DecompressedFrom s t ∧ t.valid = { Valid.allClear with hdrr := true, dout := true })
      (FaultFrom s) := by
  refine (hunpackUnit_meets s).ends.andThen ?_
  rintro - _ ⟨hs, -, _, _, _, _, _, _, _, _, rfl⟩
  refine (((bunpackUnit_ends _).and_appended (bunpackUnit_appends _)).faultFrom hs).mono ?_ fun _ => id
  rintro - _ ⟨⟨-, -, _, _, _, _, _, _, _, rfl⟩, hout⟩
  exact ⟨fun a ha => hout.outAt_outside (.inr ha), rfl, rfl⟩

/-- Settles O60: the frames of the composites' units, with `BUSY` back at its value before the command. -/
theorem frameOfTheComposites : Obligations.FrameOfTheComposites := by
  unfold Obligations.FrameOfTheComposites
  intro s t hst
  refine ⟨fun h => ?compress, fun h => ?decompress⟩
  case compress =>
    obtain rfl | ⟨u, ⟨habove, hframe, -⟩, rfl⟩ := accept_unfaulted (compressUnits_ends _) hst h
    · exact ⟨fun _ _ => rfl, rfl⟩
    · exact ⟨habove, congrArg (fun v : State => { v with busy := s.busy }) hframe⟩
  case decompress =>
    obtain rfl | ⟨u, ⟨habove, hframe, -⟩, rfl⟩ := accept_unfaulted (decompressUnits_ends _) hst h
    · exact ⟨fun _ _ => rfl, rfl⟩
    · exact ⟨habove, congrArg (fun v : State => { v with busy := s.busy }) hframe⟩

end Sys2Proof.Machine

/-! ## From every state that meets the invariant the step gives a next state (R318) -/

namespace Sys2Proof.Machine

variable {α : Type} {s t u : State}

/-! ### CDERIVE: the walk ends (R192) -/

/-- Children stand below their parents, so the walk goes down in the arena and the fuel lasts. -/
theorem walk_meets (hb : childrenBelow s.node) (fuel : Nat) (n : NodeIx) (path : Code) (hu : u.node = s.node)
    (hfuel : n.toNat < fuel) (hn : n.toNat < s.node.length) :
    (walk fuel n path u).Meets (fun _ t => t.node = s.node) fun _ => False := by
  induction fuel generalizing n path u with
  | zero => exact absurd hfuel (Nat.not_lt_zero _)
  | succ fuel ih =>
    have link : ∀ (l : Link) (p : Code) {u : State}, Link.below l n.toNat → u.node = s.node →
        (match l with
          | none => Run.ok () u
          | some i => walk fuel i p u : Run Unit).Meets (fun _ t => t.node = s.node) fun _ => False :=
      fun l p _ hl hu => by
        cases l with
        | none => exact hu
        | some i =>
          have hi := Link.below_some.1 hl
          exact ih i p hu (by omega) (hi.trans hn)
    obtain ⟨nd, hnd⟩ := nodeAt_of_lt (u := u) (i := n) (hu ▸ hn)
    obtain ⟨hleft, hright⟩ := hb n.toNat nd (hu ▸ hnd)
    rw [walk, hnd]
    dsimp only
    cases nd.kind with
    | leaf => exact hu
    | internal => exact Run.Meets.andThen (link nd.left _ hleft hu) fun _ _ ht => link nd.right _ hright ht

theorem walkTree_meets (hc : s.node.length = s.nodeCount.toNat) (hb : childrenBelow s.node)
    (hr : Link.below s.root s.node.length) : (walkTree s).Meets (fun _ t => t.node = s.node) fun _ => False := by
  rw [walkTree]
  cases hroot : s.root with
  | none => rfl
  | some r =>
    have hlt := hr r hroot
    exact walk_meets hb _ r [] rfl (hc ▸ hlt) hlt

/-- CDERIVE of an arena that can be walked, if `V_TREE` vouches for it (R193). -/
theorem cderiveUnit_meets (h : ArenaOk s) : (cderiveUnit s).Meets (fun _ _ => True) fun _ => True := by
  refine require_meets (fun hv => ?_) trivial
  obtain ⟨hb, hr⟩ := h.tree hv
  have hwalk := walkTree_meets (s := (s.startUnit .codeDeriver).deriveStart) h.count hb hr
  exact (hwalk.mono (fun _ _ => id) fun _ => False.elim).andThen fun _ _ _ => trivial

/-! ### BUNPACK: the descent stays in the arena (R284), and its faults -/

/-- The faults of a decompression (R311). -/
def DecodeFault (t : State) : Prop :=
  t.status = some .corruptArchive ∨ t.status = some .inputFault ∨ t.status = some .outputFault

theorem inByte_meets_decodeFault (a : Addr) (s : State) :
    (inByte a s).Meets (fun _ t => t = { s with inPtr := a + 1 }) DecodeFault := by
  rcases inByte_cases a s with ⟨-, -, h⟩ | ⟨-, -, h⟩ | ⟨-, -, h⟩ | ⟨-, -, h⟩ <;> rw [h]
  · rfl
  · exact .inr (.inl rfl)
  · exact .inl rfl
  · exact .inr (.inl rfl)

/-- BUNPACK of `s` between two bits: the arena is as in `s`, and the cursor stands on a node of it (R284). -/
structure Descending (s t : State) : Prop where
  node   : t.node = s.node
  root   : t.root = s.root
  cursor : ∃ cur, t.upCur = some cur ∧ cur.toNat < s.node.length

theorem Descending.congr (h : Descending s t) (hn : u.node = t.node) (hr : u.root = t.root) (hc : u.upCur = t.upCur) :
    Descending s u :=
  ⟨hn.trans h.node, hr.trans h.root, hc ▸ h.cursor⟩

section descent

variable {root : NodeIx} (hlinks : linksInside s.node) (hroot : s.root = some root) (hlt : root.toNat < s.node.length)

include hroot hlt in
theorem Descending.emitSymbol_meets (h : Descending s t) (sym : Byte) :
    (emitSymbol sym t).Meets (fun _ u => Descending s u) DecodeFault := by
  rcases emit_cases sym t with ⟨hroom, -⟩ | ⟨-, he⟩
  · rw [emitSymbol_of_room sym hroom]
    exact ⟨h.node, h.root, root, h.root.trans hroot, hlt⟩
  · rw [emitSymbol, he]
    exact .inr (.inr rfl)

include hroot hlt in
theorem Descending.stepTo_meets (h : Descending s t) {next : NodeIx} (hnext : next.toNat < s.node.length) :
    (stepTo next t).Meets (fun _ u => Descending s u) DecodeFault := by
  obtain ⟨nd, hnd⟩ := nodeAt_of_lt (u := t) (i := next) (h.node ▸ hnext)
  have hstep : Descending s { t with upCur := some next } := ⟨h.node, h.root, next, rfl, hnext⟩
  cases hk : nd.kind with
  | leaf =>
    rw [stepTo_of_leaf hnd hk]
    exact hstep.emitSymbol_meets hroot hlt nd.sym
  | internal =>
    rw [stepTo_of_internal hnd hk]
    exact hstep

include hlinks hroot hlt in
theorem Descending.unpackBit_meets (h : Descending s t) (a : Addr) (pos : Nat) :
    (unpackBit a pos t).Meets (fun _ u => Descending s u) DecodeFault := by
  obtain ⟨cur, hcur, hin⟩ := h.cursor
  obtain ⟨nd, hnd⟩ := nodeAt_of_lt (u := t) (i := cur) (h.node ▸ hin)
  rw [unpackBit_eq, hcur, Option.elim_some, hnd, Option.elim_some]
  cases hchild : nd.child (t.upByte.getLsbD pos) with
  | none => exact .inl rfl
  | some next =>
    have hnext := child_below (h.node.symm ▸ hlinks) hnd hchild
    have hat : Descending s (t.atBit pos) := h.congr rfl rfl rfl
    exact hat.stepTo_meets hroot hlt (h.node ▸ hnext)

include hlinks hroot hlt in
theorem Descending.unpackByte_meets (h : Descending s t) (a : Addr) :
    (unpackByte a t).Meets (fun _ u => Descending s u) DecodeFault := by
  refine (inByte_meets_decodeFault a t).andThen ?_
  rintro v _ rfl
  exact forEach_meets (fun pos _ u hu => hu.unpackBit_meets hlinks hroot hlt a pos) (h.congr rfl rfl rfl)

include hlinks hroot hlt in
theorem unpackPayload_meets : (unpackPayload root s).Meets (fun _ _ => True) DecodeFault := by
  refine Run.meets_ite (fun _ => .inl rfl) fun _ => ?_
  have hstart : Descending s { s with upCur := some root } := ⟨rfl, rfl, root, rfl, hlt⟩
  refine (forAddr_meets (I := fun _ => Descending s) _ _ (fun _ _ t ht => ht.unpackByte_meets hlinks hroot hlt _)
    hstart).andThen fun _ t _ => ?_
  exact Run.meets_ite (fun _ => trivial) fun _ => .inl rfl

end descent

/-- BUNPACK of an arena whose links stay inside it (R284). -/
theorem bunpackUnit_meets_decodeFault (hv : s.valid.hdrr = true) (hlinks : linksInside s.node)
    (hroot : Link.below s.root s.node.length) : (bunpackUnit s).Meets (fun _ _ => True) DecodeFault := by
  cases hr : s.root with
  | none =>
    rw [bunpackUnit_of_noRoot hv hr]
    trivial
  | some root =>
    rw [bunpackUnit_of_root hv hr]
    have hpay := unpackPayload_meets (s := s.unpackingStart) (root := root) hlinks hr (hroot root hr)
    exact hpay.andThen fun _ _ _ => trivial

/-! ### Every command and every host move -/

theorem Run.Meets.ne_stuck {r : Run α} {Q : α → State → Prop} {R : State → Prop} (h : r.Meets Q R) (f : Fault) :
    r ≠ .stuck f := by
  rintro rfl
  exact h

/-- From a state between units that meets the invariant the unit does not stop the model. -/
def NeverStops (unit : State → Run Unit) : Prop := ∀ s, Ready s → ∀ f, unit s ≠ .stuck f

theorem NeverStops.andThen {u v : State → Run Unit} (hu : NeverStops u) (hk : Keeps Ready u) (hv : NeverStops v) :
    NeverStops fun s => (u s).andThen fun _ t => v t := fun s hs f h => by
  rcases Run.andThen_eq_stuck h with hstuck | ⟨_, t, hok, hstuck⟩
  · exact hu s hs f hstuck
  · exact hv t ((hk s hs).of_eq_ok hok).1 f hstuck

theorem fscan_neverStops : NeverStops fscanUnit := fun s _ => (fscanUnit_meets s).ne_stuck

theorem tbuild_neverStops : NeverStops tbuildUnit := fun s _ => (tbuildUnit_meets s).ne_stuck

theorem cderive_neverStops : NeverStops cderiveUnit := fun _ hs => (cderiveUnit_meets hs.arena).ne_stuck

theorem hpack_neverStops : NeverStops hpackUnit := fun s _ => (hpackUnit_meets s).ne_stuck

theorem hunpack_neverStops : NeverStops hunpackUnit := fun s _ => (hunpackUnit_meets s).ne_stuck

theorem bpack_neverStops : NeverStops bpackUnit := fun s _ => (bpackUnit_meets s).ne_stuck

theorem bunpack_neverStops : NeverStops bunpackUnit := fun s hs f => by
  cases hv : s.valid.hdrr with
  | false =>
    rw [bunpackUnit, hv]
    nofun
  | true =>
    obtain ⟨hlinks, hroot⟩ := hs.arena.header hv
    exact (bunpackUnit_meets_decodeFault hv hlinks hroot).ne_stuck f

theorem compress_neverStops : NeverStops compressUnits :=
  fscan_neverStops.andThen fscan_keeps_ready <| tbuild_neverStops.andThen tbuild_keeps_ready <|
    cderive_neverStops.andThen cderive_keeps_ready <| hpack_neverStops.andThen hpack_keeps_ready bpack_neverStops

theorem decompress_neverStops : NeverStops decompressUnits :=
  hunpack_neverStops.andThen hunpack_keeps_ready bunpack_neverStops

theorem accept_gives_next {unit : State → Run Unit} (h : NeverStops unit) (hb : s.busy = false)
    (hready : s.status = none → Ready { s with busy := true }) : ∃ t, accept unit s = .next t := by
  cases hs : s.status with
  | some c => exact ⟨s, accept_ignored unit hb hs⟩
  | none =>
    rw [accept_run unit hb hs]
    have hne := h _ (hready hs)
    cases hr : unit { s with busy := true } with
    | ok _ t => exact ⟨_, rfl⟩
    | raised t => exact ⟨_, rfl⟩
    | stuck f => exact absurd hr (hne f)

theorem exec_gives_next (i : Instr) (hb : s.busy = false) (hready : s.status = none → Ready { s with busy := true }) :
    ∃ t, exec i s = .next t := by
  cases i with
  | fscan => exact accept_gives_next fscan_neverStops hb hready
  | tbuild => exact accept_gives_next tbuild_neverStops hb hready
  | cderive => exact accept_gives_next cderive_neverStops hb hready
  | hpack => exact accept_gives_next hpack_neverStops hb hready
  | hunpack => exact accept_gives_next hunpack_neverStops hb hready
  | bpack => exact accept_gives_next bpack_neverStops hb hready
  | bunpack => exact accept_gives_next bunpack_neverStops hb hready
  | compress => exact accept_gives_next compress_neverStops hb hready
  | decompress => exact accept_gives_next decompress_neverStops hb hready
  | clear => exact ⟨s.cleared, by rw [exec, execClear, hb]⟩

theorem illegalCommand_gives_next (w : Byte) (hb : s.busy = false) : ∃ t, illegalCommand w s = .next t := by
  rw [illegalCommand, hb]
  cases s.status with
  | none => exact ⟨_, rfl⟩
  | some c => exact ⟨s, rfl⟩

theorem writeCmd_gives_next (w : Byte) (hb : s.busy = false)
    (hready : s.status = none → Ready { s with busy := true }) : ∃ t, writeCmd w s = .next t := by
  rw [writeCmd]
  cases decode w with
  | ok i => exact exec_gives_next i hb hready
  | error _ => exact illegalCommand_gives_next w hb

/-- The invariant between units does not speak of the capacity. -/
theorem Ready.capAt (h : Ready s) (cut : Addr) : Ready (s.capAt cut) :=
  { h with arena := h.arena.congr rfl rfl rfl id id }

theorem Inv.hostMove_gives_next (h : Inv s) (m : HostMove) : ∃ t, Machine.hostMove m s = .next t := by
  obtain ⟨hb, -⟩ := h.idle
  cases m with
  | writeIn a v => exact ⟨_, whenIdle_of_idle hb⟩
  | writeInLen n => exact ⟨_, whenIdle_of_idle hb⟩
  | writeCmd w => exact writeCmd_gives_next w hb fun hs => h.ready hs true
  | read p => exact ⟨s, hostMove_read_eq_next.2 ⟨hb, rfl⟩⟩
  | hardReset => exact ⟨_, rfl⟩
  | resetDuring w cut =>
    obtain ⟨t, ht⟩ := writeCmd_gives_next (s := s.capAt cut) w hb fun hs => (h.ready hs true).capAt cut
    exact ⟨_, by rw [Machine.hostMove, Machine.resetDuring, ht]⟩

/-- Settles O52: children stand below their parents, so CDERIVE's walk ends; links stay in the arena, so BUNPACK's
descent finds its nodes; nothing else stops the model, and an idle block refuses nothing. -/
theorem invariantStatesAlwaysStep : Obligations.InvariantStatesAlwaysStep := by
  unfold Obligations.InvariantStatesAlwaysStep
  intro s h
  cases hhost : s.host with
  | nil => exact ⟨s, by rw [step, hhost]⟩
  | cons m rest =>
    rw [step_of_host hhost]
    exact (h.setHost rest).hostMove_gives_next m

end Sys2Proof.Machine

/-! ## How the composites end (R310, R311, R345) -/

namespace Sys2Proof.Machine

variable {α : Type} {s t u : State}

theorem Run.Meets.ok_or_raised {r : Run α} {Q : α → State → Prop} {R : State → Prop} (h : r.Meets Q R) :
    (∃ a t, r = .ok a t ∧ Q a t) ∨ ∃ t, r = .raised t ∧ R t := by
  cases r with
  | ok a t => exact .inl ⟨a, t, rfl, h⟩
  | raised t => exact .inr ⟨t, rfl, h⟩
  | stuck f => exact h.elim

/-! ### The faults of a compression -/

/-- An `OutputFault` has ended the command (R77). -/
def OutFull (t : State) : Prop := t.status = some .outputFault

theorem emit_ends_outFull (v : Byte) (s : State) : (emit v s).Ends (fun _ _ => True) OutFull := by
  rcases emit_cases v s with ⟨-, h⟩ | ⟨-, h⟩ <;> rw [h]
  · trivial
  · rfl

theorem flushByte_ends_outFull (s : State) : (flushByte s).Ends (fun _ _ => True) OutFull :=
  (emit_ends_outFull s.pkAcc s).andThen fun _ _ _ => trivial

theorem packBit_ends_outFull (bit : Bool) (s : State) : (packBit bit s).Ends (fun _ _ => True) OutFull := by
  rw [packBit_eq]
  split
  · exact flushByte_ends_outFull _
  · trivial

theorem flushPartial_ends_outFull (s : State) : (flushPartial s).Ends (fun _ _ => True) OutFull := by
  rw [flushPartial]
  split
  · trivial
  · exact flushByte_ends_outFull s

/-- A byte that can be read and has a code can only find `OUT` full (R263, R268). -/
theorem packByte_ends_outFull {a : Addr} (ha : a < s.inLen) (hr : s.params.readFails a = false)
    (hc : s.code.get (s.inAt a.toNat) ≠ []) : (packByte a s).Ends (fun _ _ => True) OutFull := by
  rw [packByte_of_code ha hr hc]
  have hbits := forEach_ends (I := fun _ => True) (s.code.get (s.inAt a.toNat))
    (fun bit u _ => packBit_ends_outFull bit u) (s := { s with inPtr := a + 1 }) trivial
  exact hbits.andThen fun _ _ _ => trivial

/-- BPACK of a readable input whose bytes all have a code can only find `OUT` full (R268). -/
theorem bpackUnit_meets_outFull (hp : s.mayPack = true) (hr : s.inputReadable) (hc : ∀ b ∈ s.input, s.code.get b ≠ []) :
    (bpackUnit s).Meets (fun _ _ => True) OutFull := by
  have hbody : ∀ k < s.inLen.toNat, ∀ t, PackedFrom s.packingStart t →
      (packByte (0 + BitVec.ofNat 64 k) t).Meets (fun _ u => PackedFrom s.packingStart u) OutFull := fun k hk t ht => by
    obtain ⟨hlen, hin, hparams, hcode⟩ : t.inLen = s.inLen ∧ t.inAt = s.inAt ∧ t.params = s.params ∧ t.code = s.code :=
      ht.keeps
    obtain ⟨haddr, hlt⟩ := ofNat_lt_inLen hk
    have hfaults : (packByte (BitVec.ofNat 64 k) t).Ends (fun _ _ => True) OutFull := by
      refine packByte_ends_outFull (hlen ▸ hlt) (hparams ▸ hr _ hlt) ?_
      rw [haddr, hcode, hin]
      exact hc _ (List.mem_of_getElem? (input_getElem? hk))
    rw [zero_add]
    exact ((packByte_meets _ ht).of_ends hfaults).mono (fun _ _ h => h.1) fun _ => id
  obtain ⟨-, -, hlen⟩ := (mayPack_iff s).1 hp
  have hstart : PackedFrom s.packingStart s.packingStart :=
    ⟨Stores.refl _, hlen.trans (BitVec.add_zero _).symm, _, _, _, _, _, _, _, rfl⟩
  rw [bpackUnit_eq hp]
  refine Run.Meets.andThen (forAddr_meets (I := fun _ => PackedFrom s.packingStart) _ 0 hbody hstart) fun _ t ht => ?_
  exact ((flushPartial_meets ht).of_ends (flushPartial_ends_outFull t)).andThen fun _ _ _ => trivial

/-- HPACK with its prerequisite can only find `OUT` full (R219). -/
theorem hpackUnit_meets_outFull (hv : s.valid.code = true) : (hpackUnit s).Meets (fun _ _ => True) OutFull := by
  have hfaults : (hpackUnit s).Ends (fun _ _ => True) OutFull := by
    have hbytes := forEach_ends (I := fun _ => True) (headerBytes s.code s.padding)
      (fun v u _ => emit_ends_outFull v u) (s := s.headerStart) trivial
    rw [hpackUnit_eq hv]
    exact hbytes.andThen fun _ _ _ => trivial
  exact ((hpackUnit_meets s).of_ends hfaults).mono (fun _ _ _ => trivial) fun _ => id

/-- The scan can only meet a read error (R145). -/
theorem fscanUnit_ends_inputFault (s : State) :
    (fscanUnit s).Ends (fun _ _ => True) fun t => t.status = some .inputFault := by
  have hbody : ∀ a t, ScannedFrom (s.startUnit .freqScanner).scanStart t →
      (scanByte a t).Ends (fun _ u => ScannedFrom (s.startUnit .freqScanner).scanStart u)
        fun u => u.status = some .inputFault := fun a t ht => by
    rw [scanByte]
    rcases inByte_cases a t with ⟨-, -, h⟩ | ⟨-, -, h⟩ | ⟨-, hphase, -⟩ | ⟨-, -, h⟩
    · rw [h]
      exact ht.countByte _ _
    · rw [h]
      rfl
    · obtain ⟨-, -, -, hphase'⟩ := ht.keeps
      rw [hphase'] at hphase
      cases hphase
    · rw [h]
      rfl
  exact (forAddr_ends _ _ hbody ⟨_, _, _, rfl⟩).andThen fun _ _ _ => trivial

theorem HeaderPacked.readable (h : HeaderPacked s u t) (hr : s.inputReadable) : t.inputReadable :=
  fun a ha => h.params ▸ hr a (h.inLen ▸ ha)

theorem HeaderPacked.coded {T : HTree} (h : HeaderPacked s u t) (hcoded : InputCoded s T u) :
    ∀ b ∈ t.input, t.code.get b ≠ [] := fun b hb => by
  rw [h.code, hcoded.code_ne_nil_iff, ← h.input]
  exact hb

/-- The faults of a compression (R310). -/
def EncodeFault (t : State) : Prop := t.status = some .inputFault ∨ t.status = some .outputFault

/-- COMPRESS ends, and no unit of it finds its prerequisite missing or a byte without a code (R310). -/
theorem compressUnits_meets (s : State) : (compressUnits s).Meets (fun _ _ => True) EncodeFault := by
  by_cases hr : s.inputReadable
  · obtain ⟨t, u, v, T, hscan, hbuild, hderive, hcoded⟩ := codingUnits_of_readable hr
    rw [compressUnits, hscan, Run.ok_andThen, hbuild, Run.ok_andThen, hderive, Run.ok_andThen]
    obtain ⟨⟨⟩, w, hpack, -⟩ | ⟨w, hpack, hfull⟩ := (hpackUnit_meets_outFull hcoded.valid).ok_or_raised
    · have hheader := hcoded.headerPacked hpack
      rw [hpack, Run.ok_andThen]
      exact (bpackUnit_meets_outFull hheader.mayPack (hheader.readable hr) (hheader.coded hcoded)).mono (fun _ _ => id)
        fun _ => .inr
    · rw [hpack]
      exact .inr hfull
  · obtain ⟨⟨⟩, t, hscan, -⟩ | ⟨t, hscan, hfault⟩ :=
      ((fscanUnit_meets s).of_ends (fscanUnit_ends_inputFault s)).ok_or_raised
    · exact absurd (inputReadable_of_fscanUnit hscan) hr
    · rw [compressUnits, hscan]
      exact .inl hfault

/-- A compression that ran to its end has the flags of its five units and the `STATUS` it found (R310). -/
theorem compressUnits_done (h : compressUnits s = .ok () t) :
    t.status = s.status ∧ t.valid.word = 0b0101111 ∧ t.inMem = s.inMem := by
  obtain ⟨-, hframe, hvalid⟩ := (compressUnits_ends s).of_eq_ok h
  rw [hvalid, hframe]
  exact ⟨rfl, rfl, rfl⟩

/-- Settles O42: FSCAN reads every byte or faults, TBUILD and CDERIVE give every byte read a code, and HPACK and BPACK
then can only find `OUT` full. -/
theorem compressHasOnlyItsTwoFaults : Obligations.CompressHasOnlyItsTwoFaults := by
  unfold Obligations.CompressHasOnlyItsTwoFaults
  intro s ha
  obtain ⟨⟨⟩, t, hrun, -⟩ | ⟨t, hrun, hfault⟩ := (compressUnits_meets { s with busy := true }).ok_or_raised
  · obtain ⟨hstatus, hvalid, -⟩ := compressUnits_done hrun
    exact ⟨_, (accept_run compressUnits ha.1 ha.2).trans (congrArg Run.finish hrun),
      .inl ⟨hstatus.trans ha.2, hvalid⟩⟩
  · exact ⟨t, (accept_run compressUnits ha.1 ha.2).trans (congrArg Run.finish hrun), .inr hfault⟩

/-! ### A compression that succeeds -/

/-- The largest header: a count byte, 256 entries of 257 bytes and a padding byte (R216). -/
theorem headerLength_le {code : Table Code} (hfit : codesFit code) : headerLength code ≤ 65794 := by
  have hentry : ∀ n ∈ (present code).map fun e => 2 + e.2.length, n ≤ 257 := fun n hn => by
    rw [present_eq_map, List.map_map] at hn
    obtain ⟨b, -, rfl⟩ := List.mem_map.1 hn
    have := hfit b
    show 2 + (code.get b).length ≤ 257
    omega
  have hsum := List.sum_le_card_nsmul _ 257 hentry
  have hcount := length_present_le code
  rw [List.length_map, smul_eq_mul] at hsum
  rw [headerLength]
  split
  · exact Nat.zero_le _
  · omega

/-- With every byte readable and coded and room for the payload, BPACK meets no fault (R261). -/
theorem PackFault.not_of_room (hr : s.inputReadable) (hc : ∀ b ∈ s.input, s.code.get b ≠ [])
    (hroom : s.outLen.toNat + ((codeBits s.code s.input).length + 7) / 8 ≤ s.params.outCap.toNat) :
    ¬ PackFault s t := fun hfault => by
  have hall : s.bitsUpTo s.inLen.toNat = codeBits s.code s.input := congrArg (codeBits s.code) (input_take_inLen s)
  cases hfault with
  | unreadable t hk _ hfails =>
    rw [hr _ (ofNat_lt_inLen hk).2] at hfails
    cases hfails
  | noCode hk _ hnone _ => exact hc _ (List.mem_of_getElem? (input_getElem? hk)) hnone
  | full t hk _ hfull =>
    have hle := hall ▸ length_bitsUpTo_le (s := s) hk
    omega
  | unflushed t _ hfull =>
    rw [hall] at hfull
    omega

/-- What a successful compression of `s` leaves in the registers that count (R310). -/
structure CompressCounts (s t : State) : Prop where
  inPtr    : t.inPtr = s.inLen
  symCount : t.symCount = s.inLen
  freq     : ∀ b, (t.freq.get b).toNat = s.input.count b
  outLen   : t.outLen = t.hdrLen + t.payLen

/-- 255 bits a byte and the largest header are enough room (R35, R216). -/
theorem compressUnits_of_room (hr : s.inputReadable) (hroom : 65794 + 255 * s.inLen.toNat ≤ s.params.outCap.toNat) :
    ∃ t, compressUnits s = .ok () t ∧ CompressCounts s t := by
  obtain ⟨t, u, v, T, hscan, hbuild, hderive, hcoded⟩ := codingUnits_of_readable hr
  have hfit := hcoded.table.codesFit hcoded.tree
  have hheaderLen := headerLength_le hfit
  obtain ⟨w, hpack, -⟩ := hpackUnit_of_room hcoded.valid (by rw [hcoded.params]; omega)
  have hheader := hcoded.headerPacked hpack
  have hpayload : w.outLen.toNat + ((codeBits w.code w.input).length + 7) / 8 ≤ w.params.outCap.toNat := by
    have hbits := length_codeBits_le hfit w.input
    rw [hheader.input, length_input] at hbits
    rw [hheader.stream.outLen, length_headerBytes, hheader.params, hheader.code, hheader.input]
    omega
  have hno := fun x => PackFault.not_of_room (t := x) (hheader.readable hr) (hheader.coded hcoded) hpayload
  obtain ⟨⟨⟩, x, hbits, hpacked⟩ := ((bpackUnit_packs hheader.mayPack).mono (fun _ _ => id) hno).exists_ok
  obtain ⟨-, -, hlen, _, _, _, _, _, _, _, hx⟩ := (bpackUnit_meets w).ends.of_eq_ok hbits
  have hfreq : x.freq = v.freq := by
    rw [hx]
    exact hheader.freq
  refine ⟨x, ?_, hpacked.inPtr.trans hheader.inLen, hpacked.symCount.trans hheader.inLen, hfreq ▸ hcoded.freq, hlen⟩
  rw [compressUnits, hscan, Run.ok_andThen, hbuild, Run.ok_andThen, hderive, Run.ok_andThen, hpack, Run.ok_andThen,
    hbits]

/-- Settles O43: with room for the largest header and 255 bits a byte no unit faults. -/
theorem compressSucceeds : Obligations.CompressSucceeds := by
  unfold Obligations.CompressSucceeds
  intro s ha hr hroom
  obtain ⟨t, hrun, hcounts⟩ := compressUnits_of_room (s := { s with busy := true }) hr hroom
  obtain ⟨hstatus, hvalid, hmem⟩ := compressUnits_done hrun
  exact ⟨_, (accept_run compressUnits ha.1 ha.2).trans (congrArg Run.finish hrun), hstatus.trans ha.2, hvalid,
    hcounts.inPtr, hcounts.symCount, hcounts.freq, hcounts.outLen, hmem⟩

/-! ### The faults of a decompression -/

theorem hunpackUnit_ends_decodeFault (s : State) : (hunpackUnit s).Ends (fun _ _ => True) DecodeFault := by
  by_cases h0 : s.inLen = 0
  · rw [hunpackUnit_of_empty h0]
    trivial
  · exact (hunpackUnit_ends h0).mono (fun _ _ _ => trivial) fun _ h => h.record.imp And.left fun hr => .inl hr.1

/-- DECOMPRESS ends: HUNPACK always leaves an arena BUNPACK can walk (R238, R311). -/
theorem decompressUnits_meets (s : State) : (decompressUnits s).Meets (fun _ _ => True) DecodeFault := by
  refine ((hunpackUnit_meets s).of_ends (hunpackUnit_ends_decodeFault s)).andThen ?_
  rintro - t ⟨⟨-, hread, _, _, _, _, _, _, _, _, ht⟩, -⟩
  exact bunpackUnit_meets_decodeFault (by rw [ht]) hread.links hread.root

/-- Settles O44: each of the two units has faults of these three causes only, and HUNPACK gives BUNPACK its
prerequisite. -/
theorem decompressHasOnlyItsThreeFaults : Obligations.DecompressHasOnlyItsThreeFaults := by
  unfold Obligations.DecompressHasOnlyItsThreeFaults
  intro s ha
  obtain ⟨⟨⟩, t, hrun, -⟩ | ⟨t, hrun, hfault⟩ := (decompressUnits_meets { s with busy := true }).ok_or_raised
  · obtain ⟨-, hframe, hvalid⟩ := (decompressUnits_ends _).of_eq_ok hrun
    exact ⟨_, (accept_run decompressUnits ha.1 ha.2).trans (congrArg Run.finish hrun),
      .inl ⟨(congrArg State.status hframe).trans ha.2, congrArg Valid.word hvalid⟩⟩
  · exact ⟨t, (accept_run decompressUnits ha.1 ha.2).trans (congrArg Run.finish hrun), .inr hfault⟩

end Sys2Proof.Machine

/-! ## The command register: a step, the faulted block, and `CLEAR` (R300, R301, R312, R380) -/

namespace Sys2Proof.Machine

variable {s : State}

theorem writeCmd_of_decode {w : Byte} {i : Instr} (h : decode w = .ok i) (s : State) : writeCmd w s = exec i s := by
  rw [writeCmd, h]

theorem decodeTableWord_eq_some {nbits w : Nat} {i : Instr} (h : decodeTableWord nbits w = some i) :
    decode (tableWord nbits w) = .ok i := by
  rw [decodeTableWord] at h
  split at h
  · next hd =>
    obtain rfl := Option.some.inj h
    exact hd
  · cases h

theorem step_of_decode {rest : List HostMove} {w : Byte} {i : Instr} (hhost : s.host = .writeCmd w :: rest)
    (h : decode w = .ok i) : step s = exec i { s with host := rest } :=
  (step_of_host hhost).trans (writeCmd_of_decode h _)

/-- Settles O3: the move written is taken off the script, and its word is decoded and executed. -/
theorem stepRunsTheDecodedCommand : Obligations.StepRunsTheDecodedCommand := by
  unfold Obligations.StepRunsTheDecodedCommand
  refine ⟨fun s rest w i => step_of_decode, fun s nbits w i h => ?_⟩
  exact step_of_decode (s := s.withFetchWord nbits w) rfl (decodeTableWord_eq_some h)

/-- Every command but `CLEAR` is accepted by the same rule (R300). -/
theorem exists_exec_eq_accept {i : Instr} (hi : i ≠ .clear) : ∃ unit, ∀ s, exec i s = accept unit s := by
  cases i with
  | fscan => exact ⟨fscanUnit, fun _ => rfl⟩
  | tbuild => exact ⟨tbuildUnit, fun _ => rfl⟩
  | cderive => exact ⟨cderiveUnit, fun _ => rfl⟩
  | hpack => exact ⟨hpackUnit, fun _ => rfl⟩
  | hunpack => exact ⟨hunpackUnit, fun _ => rfl⟩
  | bpack => exact ⟨bpackUnit, fun _ => rfl⟩
  | bunpack => exact ⟨bunpackUnit, fun _ => rfl⟩
  | compress => exact ⟨compressUnits, fun _ => rfl⟩
  | decompress => exact ⟨decompressUnits, fun _ => rfl⟩
  | clear => exact absurd rfl hi

theorem exec_clear (hb : s.busy = false) : exec .clear s = .next s.cleared := by
  rw [exec, execClear, hb]

theorem illegalCommand_ignored {w : Byte} {c : Cause} (hb : s.busy = false) (hs : s.status = some c) :
    illegalCommand w s = .next s := by
  rw [illegalCommand, hb, hs]

/-- A word that is not `CLEAR`'s, legal or not, leaves a faulted block as it is (R301). -/
theorem writeCmd_ignored {w : Byte} {c : Cause} (hw : w ≠ 0x0A) (hb : s.busy = false) (hs : s.status = some c) :
    writeCmd w s = .next s := by
  cases hd : decode w with
  | error e =>
    rw [writeCmd, hd]
    exact illegalCommand_ignored hb hs
  | ok i =>
    have hi : i ≠ .clear := fun hclear => hw (word_of_decode_clear w (hclear ▸ hd))
    obtain ⟨unit, hunit⟩ := exists_exec_eq_accept hi
    rw [writeCmd_of_decode hd, hunit]
    exact accept_ignored unit hb hs

/-- Settles O5: the acceptance rule ignores every command but `CLEAR`, and an illegal word is ignored likewise. -/
theorem faultedBlockAcceptsOnlyClear : Obligations.FaultedBlockAcceptsOnlyClear := by
  unfold Obligations.FaultedBlockAcceptsOnlyClear
  intro s rest w c hb hs hhost
  refine ⟨fun hw => (step_of_host hhost).trans (writeCmd_ignored (s := { s with host := rest }) hw hb hs), ?_⟩
  rintro rfl
  exact ⟨_, (step_of_decode hhost (decode_encode .clear)).trans (exec_clear (s := { s with host := rest }) hb), rfl⟩

/-- Settles O6: both end in the cleared state, which is the reset state with the memories kept. -/
theorem clearGivesResetStateAndKeepsMemories : Obligations.ClearGivesResetStateAndKeepsMemories := by
  unfold Obligations.ClearGivesResetStateAndKeepsMemories
  refine ⟨decode_encode .clear, fun s => ⟨fun hb => ⟨s.cleared, exec_clear hb, rfl⟩, fun rest => ?_⟩⟩
  exact ⟨({ s with host := rest } : State).cleared, step_of_host (s := { s with host := .hardReset :: rest }) rfl, rfl⟩

end Sys2Proof.Machine

/-! ## The command register and the host: an illegal word, a unit turned away, a byte stored (R300, R345, R350, R395) -/

namespace Sys2Proof.Machine

variable {s : State}

/-- Settles O12: the fault entry writes the six registers, and a raised run hands on to nothing. -/
theorem faultEntryWritesTheFaultRecord : Obligations.FaultEntryWritesTheFaultRecord := by
  unfold Obligations.FaultEntryWritesTheFaultRecord
  exact fun _ _ _ _ => ⟨rfl, rfl, rfl⟩

/-- Settles O10: the move is one write of `IN`, read back by the laws of `Memory.write`. -/
theorem hostWriteOfInput : Obligations.HostWriteOfInput := by
  unfold Obligations.HostWriteOfInput
  intro s rest a v hhost hb hform
  refine ⟨({ s with host := rest } : State).storeIn a v, ?_, rfl, ?_, fun b hne => ?_⟩
  · exact (step_of_host hhost).trans (whenIdle_of_idle (s := { s with host := rest }) hb)
  · exact Memory.read_write_self v hform
  · exact Memory.read_write_ne v s.inMem (Ne.symm hne)

/-- A word that decodes to no command raises `IllegalCommand` in an accepting block (R346). -/
theorem writeCmd_of_illegal {w : Byte} (ha : s.accepting) (hw : ¬ legalWord w = true) :
    writeCmd w s = .next (s.enterFault .illegalCommand (w.setWidth 64)) := by
  cases hd : decode w with
  | ok i => exact absurd (exists_decode_iff_legalWord.1 ⟨i, hd⟩) hw
  | error e =>
    obtain ⟨hb, hs⟩ := ha
    rw [writeCmd, hd]
    dsimp only
    rw [illegalCommand, hb, hs]

/-- Settles O4: a word outside the table decodes to no command, and the fault is taken at `PHASE` = 0. -/
theorem illegalWordRaisesIllegalCommand : Obligations.IllegalWordRaisesIllegalCommand := by
  unfold Obligations.IllegalWordRaisesIllegalCommand
  intro s rest w ha hphase hhost hw
  have hillegal : ¬ legalWord w = true := fun h => hw ((legalWord_iff w).1 h)
  refine (step_of_host hhost).trans ((writeCmd_of_illegal (s := { s with host := rest }) ha hillegal).trans ?_)
  rw [State.enterFault, hphase]

/-- A unit that finds its prerequisite missing as its first step ends the command in the fault entry (R32, R345). -/
theorem accept_of_unmet (unit : State → Run Unit) {met : State → Bool} {word : Byte} {p : Phase}
    {k : State → Run Unit} (hu : ∀ s, unit s = require (met s) word (s.startUnit p) k) (ha : s.accepting)
    (hmet : met { s with busy := true } = false) : accept unit s = .next { s with
      status := some .sequenceFault, faultInfo := word.setWidth 64, faultUnit := p
      valid := Valid.allClear, phase := .idle } := by
  rw [accept_run unit ha.1 ha.2, hu, hmet, require_unmet, finish_raise, State.enterFault, State.startUnit, ha.1]

theorem mayPack_eq_false (h : s.valid.code = false ∨ s.valid.hdrw = false ∨ s.outLen ≠ s.hdrLen) :
    s.mayPack = false := by
  refine Bool.eq_false_iff.2 fun hp => ?_
  obtain ⟨hcode, hhdrw, hlen⟩ := (mayPack_iff s).1 hp
  rcases h with h | h | h
  · exact Bool.eq_false_iff.1 h hcode
  · exact Bool.eq_false_iff.1 h hhdrw
  · exact h hlen

/-- Settles O15: each unit is `require` of its flags, its command word and its number. -/
theorem missingPrerequisiteRaisesSequenceFault : Obligations.MissingPrerequisiteRaisesSequenceFault := by
  unfold Obligations.MissingPrerequisiteRaisesSequenceFault
  intro s ha
  refine ⟨fun h => ?tbuild, fun h => ?cderive, fun h => ?hpack, fun h => ?bpack, fun h => ?bunpack⟩
  case tbuild => exact accept_of_unmet tbuildUnit (met := fun s => s.valid.freq) (fun _ => rfl) ha h
  case cderive => exact accept_of_unmet cderiveUnit (met := fun s => s.valid.tree) (fun _ => rfl) ha h
  case hpack => exact accept_of_unmet hpackUnit (met := fun s => s.valid.code) (fun _ => rfl) ha h
  case bpack =>
    exact accept_of_unmet bpackUnit (met := State.mayPack) (fun _ => rfl) ha
      (mayPack_eq_false (s := { s with busy := true }) h)
  case bunpack => exact accept_of_unmet bunpackUnit (met := fun s => s.valid.hdrr) (fun _ => rfl) ha h

/-! ### What a fault leaves (U6, R350, R351) -/

/-- Settles O57: only a fault ends a command with `STATUS` not 0, and the fault entry leaves what U6 defines. -/
theorem frameOfAFault : Obligations.FrameOfAFault := by
  unfold Obligations.FrameOfAFault
  intro i s t h hs hfault
  have hi : i ≠ .clear := by
    rintro rfl
    obtain ⟨hb, -⟩ := exec_ends unitsKeep_true (fun _ => trivial) h
    rw [exec_clear hb] at h
    cases h
    exact hfault rfl
  obtain ⟨-, hend⟩ := exec_ends unitsKeep_running (fun _ => ⟨rfl, hs⟩) h
  cases hend with
  | cleared hclear => exact absurd hclear hi
  | ignored hne => exact absurd hs hne
  | done _ hrun _ => exact absurd hrun.2 hfault
  | faulted _ hf =>
    exact ⟨hi, hf.stores.inLen, hf.stores.inMem, hf.stores.params, hf.stores.host, hf.valid, hf.phase, hf.busy⟩

end Sys2Proof.Machine

/-! ## The fault table: which unit raises which fault, and what it records (R341 to R344) -/

namespace Sys2Proof.Machine

variable {α : Type} {inside : Prop} {uncoded : Addr → Prop} {c : Table Code} {p : Phase} {s t u : State}

/-- The units with a prerequisite and the command word each records when it is missing (R32, R345). -/
def sequenceRows : List (Phase × BitVec 64) :=
  [(.treeBuilder, 0x02), (.codeDeriver, 0x03), (.headerPacker, 0x04), (.bitPacker, 0x06), (.bitUnpacker, 0x07)]

/-- The rows of R341: cause, `FAULT_INFO` and `FAULT_UNIT` of a fault raised by a command that started in `s`. `inside`
is what bounds the addresses BUNPACK reports: that the header ends inside the input. `uncoded` says at which addresses
BPACK finds a byte without a code. -/
inductive FaultRow (inside : Prop) (uncoded : Addr → Prop) (s : State) : Cause → BitVec 64 → Phase → Prop
  | input {a : Addr} {unit : Phase}
      (hunit : unit ∈ [Phase.freqScanner, .headerUnpacker, .bitPacker, .bitUnpacker])
      (haddr : inside → a < s.inLen ∧ s.params.readFails a = true) : FaultRow inside uncoded s .inputFault a unit
  | output {unit : Phase} (hunit : unit ∈ [Phase.headerPacker, .bitPacker, .bitUnpacker]) :
      FaultRow inside uncoded s .outputFault s.params.outCap unit
  | corrupt {a : Addr} {unit : Phase} (hunit : unit ∈ [Phase.headerUnpacker, .bitUnpacker])
      (haddr : inside → a ≤ s.inLen) : FaultRow inside uncoded s .corruptArchive a unit
  | sequence {word : BitVec 64} {unit : Phase} (hunit : (unit, word) ∈ sequenceRows) :
      FaultRow inside uncoded s .sequenceFault word unit
  | missing {a : Addr} (haddr : a < s.inLen) (hcode : uncoded a) :
      FaultRow inside uncoded s .missingCode a .bitPacker

/-- A fault has ended the command, with the record of a row of the table. -/
def Raises (inside : Prop) (uncoded : Addr → Prop) (s t : State) : Prop :=
  ∃ c, t.status = some c ∧ FaultRow inside uncoded s c t.faultInfo t.faultUnit

theorem FaultRow.raises {c : Cause} {info : BitVec 64} (h : FaultRow inside uncoded s c info t.phase) :
    Raises inside uncoded s (t.enterFault c info) :=
  ⟨c, rfl, h⟩

/-- Only the row of a missing code speaks of the addresses without a code. -/
theorem Raises.imp {uncoded' : Addr → Prop} (h : Raises inside uncoded s t)
    (hu : t.status = some .missingCode → ∀ a, uncoded a → uncoded' a) : Raises inside uncoded' s t := by
  obtain ⟨c, hc, hrow⟩ := h
  refine ⟨c, hc, ?_⟩
  generalize t.faultInfo = info, t.faultUnit = unit at hrow
  cases hrow with
  | input hunit haddr => exact .input hunit haddr
  | output hunit => exact .output hunit
  | corrupt hunit haddr => exact .corrupt hunit haddr
  | sequence hunit => exact .sequence hunit
  | missing haddr hcode => exact .missing haddr (hu hc _ hcode)

/-! ### Inside a unit -/

/-- Unit `p` of a command that started in `s` stands at `t`, and the code table is `c`. -/
structure InUnit (p : Phase) (c : Table Code) (s t : State) : Prop where
  stores : Stores s t
  phase  : t.phase = p
  code   : t.code = c

/-- A change of registers that neither `Stores` nor the unit speaks of needs no argument. -/
theorem InUnit.next (h : InUnit p c s t) (hs : Stores t u := by exact Stores.of_same rfl rfl rfl rfl rfl rfl)
    (hphase : u.phase = t.phase := by rfl) (hcode : u.code = t.code := by rfl) : InUnit p c s u :=
  ⟨h.stores.trans hs, hphase.trans h.phase, hcode.trans h.code⟩

theorem InUnit.inAt (h : InUnit p c s t) : t.inAt = s.inAt :=
  congrArg (fun m a => Memory.read a m) h.stores.inMem

/-- `in_byte` of a unit that reads, at an address below `IN_LEN` (R76). -/
theorem InUnit.inByte (h : InUnit p c s t) (hp : p ∈ [Phase.freqScanner, .bitPacker, .bitUnpacker]) {a : Addr}
    (ha : inside → a < s.inLen) : (inByte a t).Ends
      (fun v u => (v = s.inAt a.toNat ∧ a < s.inLen) ∧ InUnit p c s u) (Raises inside uncoded s) := by
  have hreaders : [Phase.freqScanner, .bitPacker, .bitUnpacker] ⊆
      [Phase.freqScanner, .headerUnpacker, .bitPacker, .bitUnpacker] := by decide
  have hunit := hreaders (h.phase ▸ hp)
  have hlen := h.stores.inLen
  rcases inByte_cases a t with ⟨hlt, -, e⟩ | ⟨hlt, hr, e⟩ | ⟨-, hphase, -⟩ | ⟨hle, -, e⟩
  · rw [e]
    exact ⟨⟨congrFun h.inAt a.toNat, hlen ▸ hlt⟩, h.next⟩
  · rw [e]
    exact (FaultRow.input hunit fun _ => ⟨hlen ▸ hlt, h.stores.params ▸ hr⟩).raises
  · exact absurd (hphase ▸ h.phase ▸ hp) (by decide)
  · rw [e]
    exact (FaultRow.input hunit fun hin => absurd (ha hin) (BitVec.not_lt.2 (hlen ▸ hle))).raises

/-- `emit` of a unit that writes: the cursor has reached the capacity when it faults (R77). -/
theorem InUnit.emit (h : InUnit p c s t) (hp : p ∈ [Phase.headerPacker, .bitPacker, .bitUnpacker])
    (hroom : s.outLen ≤ s.params.outCap) (v : Byte) :
    (emit v t).Ends (fun _ u => InUnit p c s u) (Raises inside uncoded s) := by
  rcases emit_cases v t with ⟨hlt, e⟩ | ⟨hfull, e⟩
  · rw [e]
    exact h.next (stores_append v hlt)
  · have hcap : t.outLen = s.params.outCap := BitVec.le_antisymm (h.stores.outLen hroom) (h.stores.params ▸ hfull)
    rw [e, hcap]
    exact (FaultRow.output (h.phase ▸ hp)).raises

/-- A loop over `n` addresses from `a` on keeps what its body keeps at each of them. -/
theorem forAddr_ends_at {I R : State → Prop} {body : Addr → State → Run Unit} (n : Nat) (a : Addr)
    (hb : ∀ k < n, ∀ s, I s → (body (a + BitVec.ofNat 64 k) s).Ends (fun _ t => I t) R) (hs : I s) :
    (forAddr body n a s).Ends (fun _ t => I t) R := by
  induction n generalizing a s with
  | zero => exact hs
  | succ n ih =>
    have h0 := hb 0 (Nat.succ_pos n) s hs
    rw [show a + BitVec.ofNat 64 0 = a from BitVec.add_zero a] at h0
    refine h0.andThen fun _ t ht => ih (a + 1) (fun k hk => ?_) ht
    have haddr : a + 1 + BitVec.ofNat 64 k = a + BitVec.ofNat 64 (k + 1) := by
      rw [BitVec.ofNat_add, BitVec.add_assoc, BitVec.add_comm 1]
      rfl
    rw [haddr]
    exact hb (k + 1) (Nat.succ_lt_succ hk)

/-! ### FSCAN, TBUILD, CDERIVE, HPACK, HUNPACK -/

/-- Every byte the scan reads stands below `IN_LEN` (R145). -/
theorem fscanUnit_ends_row (h : Stores s u) : (fscanUnit u).Ends (fun _ _ => True) (Raises inside uncoded s) := by
  have hstart : InUnit .freqScanner u.code s (u.startUnit .freqScanner).scanStart :=
    ⟨h.trans (Stores.of_same rfl rfl rfl rfl rfl rfl), rfl, rfl⟩
  have hbody : ∀ k < u.inLen.toNat, ∀ t, InUnit .freqScanner u.code s t →
      (scanByte (0 + BitVec.ofNat 64 k) t).Ends (fun _ v => InUnit .freqScanner u.code s v) (Raises inside uncoded s) :=
    fun k hk t ht => by
      have hlt : BitVec.ofNat 64 k < s.inLen := h.inLen ▸ (ofNat_lt_inLen hk).2
      rw [zero_add, scanByte]
      exact (ht.inByte (by decide) fun _ => hlt).andThen fun _ _ hw => hw.2.next
  exact (forAddr_ends_at _ 0 hbody hstart).andThen fun _ _ _ => trivial

/-- A prerequisite that does not hold gives the unit's row (R345). -/
theorem require_ends_row {met : Bool} {word : Byte} {k : State → Run α} {Q : α → State → Prop}
    (hunit : (p, word.setWidth 64) ∈ sequenceRows)
    (hk : met = true → (k (u.startUnit p)).Ends Q (Raises inside uncoded s)) :
    (require met word (u.startUnit p) k).Ends Q (Raises inside uncoded s) :=
  require_ends hk (FaultRow.sequence hunit).raises

theorem tbuildUnit_ends_row (u : State) : (tbuildUnit u).Ends (fun _ _ => True) (Raises inside uncoded s) :=
  require_ends_row (by decide) fun _ => trivial

theorem cderiveUnit_ends_row (u : State) : (cderiveUnit u).Ends (fun _ _ => True) (Raises inside uncoded s) := by
  refine require_ends_row (by decide) fun _ => ?_
  have hwalk : (walkTree (u.startUnit .codeDeriver).deriveStart).Ends (fun _ _ => True) (Raises inside uncoded s) := by
    rw [walkTree]
    split
    · trivial
    · next r _ =>
      exact (walk_ends (s := (u.startUnit .codeDeriver).deriveStart) _ _ r [] ⟨_, _, rfl⟩).mono
        (fun _ _ _ => trivial) fun _ => id
  exact hwalk.andThen fun _ _ _ => trivial

theorem hpackUnit_ends_row (h : Stores s u) (hroom : s.outLen ≤ s.params.outCap) :
    (hpackUnit u).Ends (fun _ _ => True) (Raises inside uncoded s) := by
  refine require_ends_row (by decide) fun _ => ?_
  have hstart : InUnit .headerPacker u.code s (u.startUnit .headerPacker).packStart :=
    ⟨h.trans (Stores.restart rfl rfl rfl rfl rfl rfl), rfl, rfl⟩
  exact (forEach_ends _ (fun v _ ht => ht.emit (by decide) hroom v) hstart).andThen fun _ _ _ => trivial

theorem hunpackUnit_ends_row (h : Stores s u) : (hunpackUnit u).Ends (fun _ _ => True) (Raises inside uncoded s) := by
  by_cases h0 : u.inLen = 0
  · rw [hunpackUnit_of_empty h0]
    trivial
  · refine (hunpackUnit_ends h0).mono (fun _ _ _ => trivial) fun t hf => ?_
    obtain ⟨hunit, hrecord⟩ := hf.congr h.inLen h.params
    rcases hrecord with ⟨hstatus, hinfo⟩ | ⟨hstatus, hinfo⟩
    · exact ⟨_, hstatus, .corrupt (by rw [hunit]; decide) fun _ => hinfo⟩
    · exact ⟨_, hstatus, .input (by rw [hunit]; decide) fun _ => hinfo⟩

/-! ### BPACK -/

section writers

variable (hroom : s.outLen ≤ s.params.outCap)
include hroom

theorem InUnit.flushByte (h : InUnit .bitPacker c s t) :
    (flushByte t).Ends (fun _ u => InUnit .bitPacker c s u) (Raises inside uncoded s) :=
  (h.emit (by decide) hroom t.pkAcc).andThen fun _ _ hu => hu.next

theorem InUnit.packBit (h : InUnit .bitPacker c s t) (bit : Bool) :
    (packBit bit t).Ends (fun _ u => InUnit .bitPacker c s u) (Raises inside uncoded s) := by
  have hplaced : InUnit .bitPacker c s (t.placeBit bit) := h.next
  rw [packBit_eq]
  split
  · exact hplaced.flushByte hroom
  · exact hplaced.next

theorem InUnit.flushPartial (h : InUnit .bitPacker c s t) :
    (flushPartial t).Ends (fun _ u => InUnit .bitPacker c s u) (Raises inside uncoded s) := by
  rw [Machine.flushPartial]
  split
  · exact h
  · exact h.flushByte hroom

/-- A byte of the input that cannot be read, has no code, or completes a payload byte without room (R263). -/
theorem InUnit.packByte (h : InUnit .bitPacker c s t) {a : Addr} (ha : a < s.inLen)
    (hu : c.get (s.inAt a.toNat) = [] → uncoded a) :
    (packByte a t).Ends (fun _ u => InUnit .bitPacker c s u) (Raises inside uncoded s) := by
  refine (h.inByte (by decide) fun _ => ha).andThen ?_
  rintro _ w ⟨⟨rfl, -⟩, hw⟩
  split
  · next hnone =>
    have hrow : FaultRow inside uncoded s .missingCode a w.phase := hw.phase ▸ .missing ha (hu (hw.code ▸ hnone))
    exact hrow.raises
  · exact (forEach_ends _ (fun bit _ hv => hv.packBit hroom bit) hw).andThen fun _ _ hv => hv.next

theorem bpackUnit_ends_row (h : Stores s u) : (bpackUnit u).Ends (fun _ _ => True)
    (Raises inside (fun a => u.code.get (s.inAt a.toNat) = []) s) := by
  refine require_ends_row (by decide) fun _ => ?_
  have hstart : InUnit .bitPacker u.code s (u.startUnit .bitPacker).streamStart :=
    ⟨h.trans (Stores.of_same rfl rfl rfl rfl rfl rfl), rfl, rfl⟩
  have hbody : ∀ k < u.inLen.toNat, ∀ t, InUnit .bitPacker u.code s t →
      (packByte (0 + BitVec.ofNat 64 k) t).Ends (fun _ v => InUnit .bitPacker u.code s v)
        (Raises inside (fun a => u.code.get (s.inAt a.toNat) = []) s) := fun k hk t ht => by
    rw [zero_add]
    exact ht.packByte hroom (h.inLen ▸ (ofNat_lt_inLen hk).2) id
  exact (forAddr_ends_at _ 0 hbody hstart).andThen fun _ _ ht => (ht.flushPartial hroom).andThen fun _ _ _ => trivial

/-! ### BUNPACK -/

theorem InUnit.emitSymbol (h : InUnit .bitUnpacker c s t) (sym : Byte) :
    (emitSymbol sym t).Ends (fun _ u => InUnit .bitUnpacker c s u) (Raises inside uncoded s) :=
  (h.emit (by decide) hroom sym).andThen fun _ _ hu => hu.next

theorem InUnit.stepTo (h : InUnit .bitUnpacker c s t) (next : NodeIx) :
    (stepTo next t).Ends (fun _ u => InUnit .bitUnpacker c s u) (Raises inside uncoded s) := by
  have hu : InUnit .bitUnpacker c s { t with upCur := some next } := h.next
  rw [Machine.stepTo]
  cases t.nodeAt next with
  | none => trivial
  | some n =>
    dsimp only
    cases n.kind with
    | leaf => exact hu.emitSymbol hroom n.sym
    | internal => exact hu

theorem InUnit.unpackBit (h : InUnit .bitUnpacker c s t) {a : Addr} (ha : inside → a < s.inLen) (pos : Nat) :
    (unpackBit a pos t).Ends (fun _ u => InUnit .bitUnpacker c s u) (Raises inside uncoded s) := by
  have hat : InUnit .bitUnpacker c s (t.atBit pos) := h.next
  rw [unpackBit_eq]
  cases t.upCur with
  | none => trivial
  | some cur =>
    dsimp only [Option.elim]
    cases t.nodeAt cur with
    | none => trivial
    | some nd =>
      dsimp only
      cases nd.child (t.upByte.getLsbD pos) with
      | none =>
        have hrow : FaultRow inside uncoded s .corruptArchive a (t.atBit pos).phase :=
          .corrupt (by rw [hat.phase]; decide) fun hin => BitVec.le_of_lt (ha hin)
        exact hrow.raises
      | some next => exact hat.stepTo hroom next

theorem InUnit.unpackByte (h : InUnit .bitUnpacker c s t) {a : Addr} (ha : inside → a < s.inLen) :
    (unpackByte a t).Ends (fun _ u => InUnit .bitUnpacker c s u) (Raises inside uncoded s) :=
  (h.inByte (by decide) ha).andThen fun _ _ hu =>
    forEach_ends _ (fun pos _ hv => hv.unpackBit hroom ha pos) hu.2.next

/-- The payload's addresses run from `HDR_LEN` up to `IN_LEN` (R282 to R289). -/
theorem InUnit.unpackPayload (h : InUnit .bitUnpacker c s t) (root : NodeIx) (hpay : t.payLen = t.inLen - t.hdrLen)
    (hin : inside → t.hdrLen ≤ t.inLen) :
    (unpackPayload root t).Ends (fun _ _ => True) (Raises inside uncoded s) := by
  have hcorrupt : ∀ {v : State}, InUnit .bitUnpacker c s v → ∀ {a : Addr}, (inside → a ≤ s.inLen) →
      Raises inside uncoded s (v.enterFault .corruptArchive a) := fun hv _ ha =>
    FaultRow.raises (.corrupt (by rw [hv.phase]; decide) ha)
  have hlen := h.stores.inLen
  by_cases h0 : t.payLen = 0
  · rw [unpackPayload_of_empty root h0]
    exact hcorrupt h fun _ => hlen ▸ BitVec.le_refl _
  · have haddr : inside → ∀ k < t.payLen.toNat, t.hdrLen + BitVec.ofNat 64 k < s.inLen := fun hi k hk =>
      hlen ▸ (payload_addr (hin hi) (hpay ▸ hk)).2
    rw [unpackPayload_of_ne_empty root h0]
    refine Run.Ends.andThen (forAddr_ends_at (I := InUnit .bitUnpacker c s) _ _
      (fun k hk v hv => hv.unpackByte hroom fun hi => haddr hi k hk) h.next) fun _ v hv => ?_
    split
    · trivial
    · refine hcorrupt hv fun hi => ?_
      have hpos : s.inLen ≠ 0 := fun hs => by
        have := haddr hi 0 (Nat.pos_of_ne_zero fun hz => h0 (BitVec.eq_of_toNat_eq hz))
        rw [hs] at this
        exact BitVec.not_lt_zero this
      rw [hv.stores.inLen]
      bv_omega

theorem bunpackUnit_ends_row (h : Stores s u) (hin : inside → u.valid.hdrr = true → u.hdrLen ≤ u.inLen) :
    (bunpackUnit u).Ends (fun _ _ => True) (Raises inside uncoded s) := by
  have hstart : InUnit .bitUnpacker u.code s u.unpackingStart :=
    ⟨h.trans (Stores.restart rfl rfl rfl rfl rfl rfl), rfl, rfl⟩
  cases hv : u.valid.hdrr with
  | false =>
    rw [bunpackUnit, hv]
    exact require_ends_row (by decide) nofun
  | true =>
    cases hroot : u.root with
    | none =>
      rw [bunpackUnit_of_noRoot hv hroot]
      trivial
    | some root =>
      rw [bunpackUnit_of_root hv hroot]
      exact (hstart.unpackPayload hroom root rfl fun hi => hin hi hv).andThen fun _ _ _ => trivial

end writers

/-! ### The commands -/

/-- A unit that raises only rows of the table, and what runs behind it. -/
theorem Run.Ends.thenUnits {unit : State → Run Unit} {k : State → Run Unit} {R : State → Prop}
    (h : (unit u).Ends (fun _ _ => True) R) (hkeeps : Keeps (fun _ => True) unit) (hs : Stores s u)
    (hk : ∀ t, Stores s t → (k t).Ends (fun _ _ => True) R) :
    ((unit u).andThen fun _ t => k t).Ends (fun _ _ => True) R := by
  have hstores := hkeeps u trivial
  cases hr : unit u with
  | ok _ t =>
    rw [hr] at hstores
    exact hk t (hs.trans hstores.2)
  | raised t =>
    rw [hr] at h
    exact h
  | stuck f => trivial

/-- The code table BPACK works with in a COMPRESS is not that of `s`, so the row of a missing code says nothing here. -/
theorem compressUnits_ends_row (h : Stores s u) (hroom : s.outLen ≤ s.params.outCap) :
    (compressUnits u).Ends (fun _ _ => True) (Raises inside (fun _ => True) s) := by
  refine (fscanUnit_ends_row h).thenUnits unitsKeep_true.fscan h fun v hv => ?_
  refine (tbuildUnit_ends_row v).thenUnits unitsKeep_true.tbuild hv fun w hw => ?_
  refine (cderiveUnit_ends_row w).thenUnits unitsKeep_true.cderive hw fun x hx => ?_
  refine (hpackUnit_ends_row hx hroom).thenUnits unitsKeep_true.hpack hx fun y hy => ?_
  exact (bpackUnit_ends_row hroom hy).mono (fun _ _ => id) fun _ ht => ht.imp fun _ _ _ => trivial

/-- HUNPACK leaves a header that ends inside the input, so BUNPACK's addresses are below `IN_LEN` (R246). -/
theorem decompressUnits_ends_row (h : Stores s u) (hroom : s.outLen ≤ s.params.outCap) :
    (decompressUnits u).Ends (fun _ _ => True) (Raises inside uncoded s) := by
  refine ((hunpackUnit_meets u).of_ends (hunpackUnit_ends_row h)).ends.andThen ?_
  rintro - v ⟨⟨hs, hread, -⟩, -⟩
  exact bunpackUnit_ends_row hroom (h.trans hs) fun _ _ => hread.hdrLen

theorem accept_ends_row {unit : State → Run Unit} {R : State → Prop} (hkeeps : Keeps Running unit)
    (ha : s.accepting) (hrow : (unit { s with busy := true }).Ends (fun _ _ => True) R) (h : accept unit s = .next t) :
    t.status = none ∨ R t := by
  have hrun := hkeeps { s with busy := true } ⟨rfl, ha.2⟩
  rw [accept_run unit ha.1 ha.2] at h
  cases hr : unit { s with busy := true } <;> rw [hr] at h hrun hrow <;> cases h
  · exact .inl hrun.1.2
  · exact .inr hrow

theorem EncodeFault.ne_missing (h : EncodeFault t) : t.status ≠ some .missingCode := by
  rcases h with h | h
  · rw [h]; decide
  · rw [h]; decide

/-- Where a header was read, it ends inside the input (R246). -/
def HeaderInside (s : State) : Prop := s.valid.hdrr = true → s.hdrLen ≤ s.inLen

/-- The command is BPACK and meets a byte without a code at `a`: no other command raises `MissingCode` (R344). -/
def LacksCode (i : Instr) (s : State) (a : Addr) : Prop := i = .bpack ∧ s.code.get (s.inAt a.toNat) = []

/-- How an accepted command ends: without a fault, or in a row of R341. -/
theorem exec_ends_row {i : Instr} (ha : s.accepting) (hroom : s.outLen ≤ s.params.outCap) (h : exec i s = .next t) :
    t.status = none ∨ Raises (HeaderInside s) (LacksCode i s) s t := by
  have hbusy : Stores s { s with busy := true } := Stores.of_same rfl rfl rfl rfl rfl rfl
  cases i with
  | fscan => exact accept_ends_row unitsKeep_running.fscan ha (fscanUnit_ends_row hbusy) h
  | tbuild => exact accept_ends_row unitsKeep_running.tbuild ha (tbuildUnit_ends_row _) h
  | cderive => exact accept_ends_row unitsKeep_running.cderive ha (cderiveUnit_ends_row _) h
  | hpack => exact accept_ends_row unitsKeep_running.hpack ha (hpackUnit_ends_row hbusy hroom) h
  | hunpack => exact accept_ends_row unitsKeep_running.hunpack ha (hunpackUnit_ends_row hbusy) h
  | bpack =>
    have hrow := bpackUnit_ends_row (inside := HeaderInside s) hroom hbusy
    refine accept_ends_row unitsKeep_running.bpack ha (hrow.mono (fun _ _ => id) fun t ht => ?_) h
    exact ht.imp fun _ a hc => ⟨rfl, hc⟩
  | bunpack =>
    exact accept_ends_row unitsKeep_running.bunpack ha (bunpackUnit_ends_row hroom hbusy fun hin hv => hin hv) h
  | compress =>
    have hunits := compressUnits_ends_row (inside := HeaderInside s) hbusy hroom
    have hrow := accept_ends_row unitsKeep_running.compress ha hunits h
    rcases accept_ends_row unitsKeep_running.compress ha (compressUnits_meets _).ends h with hnone | hfault
    · exact .inl hnone
    · exact hrow.imp_right fun ht => ht.imp fun hmissing => absurd hmissing hfault.ne_missing
  | decompress =>
    exact accept_ends_row unitsKeep_running.decompress ha (decompressUnits_ends_row hbusy hroom) h
  | clear =>
    rw [exec_clear ha.1] at h
    cases h
    exact .inl rfl

/-- However a command ends, `OUT` at and above the capacity is as before (R343). -/
theorem CommandEnds.above {K : State → Prop} {clears : Prop} (h : CommandEnds K clears s t) {a : Nat}
    (ha : s.params.outCap.toNat ≤ a) : t.outAt a = s.outAt a := by
  cases h with
  | cleared h => rfl
  | ignored h => rfl
  | done h hK hs => exact hs.above a ha
  | faulted h hf => exact hf.stores.above a ha

/-- Settles O55: `emit` is the only write, and it faults where the cursor has reached the capacity. -/
theorem noCommandWritesAtTheCapacity : Obligations.NoCommandWritesAtTheCapacity := by
  unfold Obligations.NoCommandWritesAtTheCapacity
  intro i s t h
  obtain ⟨-, hend⟩ := exec_ends unitsKeep_true (fun _ => trivial) h
  refine ⟨fun a => hend.above, fun ha hroom hstatus => ?_⟩
  rcases exec_ends_row ha hroom h with hnone | ⟨c, hc, hrow⟩
  · rw [hnone] at hstatus
    cases hstatus
  · obtain rfl : c = .outputFault := Option.some.inj (hc.symm.trans hstatus)
    generalize t.faultInfo = info, t.faultUnit = unit at hrow ⊢
    cases hrow with
    | output hunit => exact ⟨rfl, hunit⟩

/-- Settles O56: the invariant gives what the table's rows ask: an accepting block with the cursor within the capacity
and, where `V_HDRR` is set, a header that ends inside the input. -/
theorem faultTableByUnit : Obligations.FaultTableByUnit := by
  unfold Obligations.FaultTableByUnit
  intro i s t hinv hs h
  rcases exec_ends_row ⟨hinv.idle.1, hs⟩ hinv.outLen h with hnone | ⟨c, hc, hrow⟩
  · rw [hnone]
    trivial
  · rw [hc]
    generalize t.faultInfo = info, t.faultUnit = unit at hrow ⊢
    cases hrow with
    | input hunit haddr => exact ⟨hunit, haddr hinv.hdrLen⟩
    | output hunit => exact ⟨hunit, rfl⟩
    | corrupt hunit haddr => exact ⟨hunit, haddr hinv.hdrLen⟩
    | sequence hunit => exact hunit
    | missing haddr hcode => exact ⟨hcode.1, rfl, haddr, hcode.2⟩

end Sys2Proof.Machine

/-! ## A hardware reset during a command: the run into a smaller `OUT` (R382) -/

namespace Sys2Proof.Machine

variable {α β : Type} {cut : Addr} {R R' : State → State → Prop} {s t u v : State} {r r' : Run α}

/-! ### Two runs, one with the capacity lowered -/

theorem outCap_capAt_le : (s.capAt cut).params.outCap ≤ cut := by
  show (if cut < s.params.outCap then cut else s.params.outCap) ≤ cut
  split
  · exact BitVec.le_refl cut
  · next h => exact BitVec.not_lt.1 h

theorem le_of_outCap_capAt_le {n : Addr} (hroom : n < s.params.outCap) (hfull : (s.capAt cut).params.outCap ≤ n) :
    cut ≤ n := by
  have hle : (if cut < s.params.outCap then cut else s.params.outCap) ≤ n := hfull
  split at hle
  · exact hle
  · exact absurd hroom (BitVec.not_lt.2 hle)

@[simp] theorem State.capAt_nodeAt (s : State) (i : NodeIx) : (s.capAt cut).nodeAt i = s.nodeAt i := rfl
@[simp] theorem State.capAt_list (s : State) : (s.capAt cut).list = s.list := rfl
@[simp] theorem State.capAt_root (s : State) : (s.capAt cut).root = s.root := rfl
@[simp] theorem State.capAt_code (s : State) : (s.capAt cut).code = s.code := rfl
@[simp] theorem State.capAt_upCur (s : State) : (s.capAt cut).upCur = s.upCur := rfl
@[simp] theorem State.capAt_upByte (s : State) : (s.capAt cut).upByte = s.upByte := rfl

/-- `r'` is the run `r` with the capacity lowered to `cut`: unless `r` faults it ends in the same state but for the
capacity, or it faults early, in a state that `R` relates to the end of `r`. -/
def Lowered (cut : Addr) (R : State → State → Prop) (r r' : Run α) : Prop :=
  r.Ends (fun a t => r' = .ok a (t.capAt cut) ∨ ∃ t', r' = .raised t' ∧ R t t') fun _ => True

/-- The run does not depend on the capacity. -/
abbrev Unaffected (cut : Addr) (r r' : Run α) : Prop := Lowered cut (fun _ _ => False) r r'

/-- `OUT` of `v` holds what had been written to that of `t` when the cursor reached `cut`, and the cursor of `t` is
beyond. -/
structure Truncated (cut : Addr) (t v : State) : Prop where
  beyond : cut < t.outLen
  below  : ∀ a, a < cut.toNat → v.outAt a = t.outAt a

/-- A run that writes `OUT` is cut short where the cursor reaches `cut`. -/
abbrev CutShort (cut : Addr) (r r' : Run α) : Prop := Lowered cut (Truncated cut) r r'

theorem Lowered.andThen {k : α → State → Run β} (h : Lowered cut R r r')
    (hk : ∀ a t, Lowered cut R' (k a t) (k a (t.capAt cut)))
    (hR : ∀ a t v, R t v → (k a t).Ends (fun _ u => R' u v) fun _ => True) :
    Lowered cut R' (r.andThen k) (r'.andThen k) := by
  cases r with
  | ok a t =>
    rcases h with rfl | ⟨v, rfl, hv⟩
    · exact hk a t
    · exact (hR a t v hv).mono (fun _ _ hu => .inr ⟨v, rfl, hu⟩) fun _ => id
  | raised t => trivial
  | stuck f => trivial

theorem Unaffected.andThen {k : α → State → Run β} (h : Unaffected cut r r')
    (hk : ∀ a t, Lowered cut R' (k a t) (k a (t.capAt cut))) : Lowered cut R' (r.andThen k) (r'.andThen k) :=
  Lowered.andThen h hk fun _ _ _ => False.elim

/-- What is appended beyond the cut leaves the bytes below it alone. -/
theorem Truncated.kept (h : Truncated cut t v) (hr : r.Appends t) :
    r.Ends (fun _ u => Truncated cut u v) fun _ => True := by
  refine Run.Ends.mono hr (fun _ u happ => ⟨?_, fun a ha => ?_⟩) fun _ => id
  · obtain ⟨l, hl⟩ := happ
    exact BitVec.lt_def.2 ((BitVec.lt_def.1 h.beyond).trans_le (hl.outLen ▸ Nat.le_add_right _ _))
  · exact (h.below a ha).trans (happ.outAt_outside (.inl (ha.trans (BitVec.lt_def.1 h.beyond)))).symm

/-- A run that may be cut short, and what appends behind it. -/
theorem CutShort.andThen {k : α → State → Run β} (h : CutShort cut r r')
    (hk : ∀ a t, CutShort cut (k a t) (k a (t.capAt cut))) (happ : ∀ a t, (k a t).Appends t) :
    CutShort cut (r.andThen k) (r'.andThen k) :=
  Lowered.andThen h hk fun a t _ ht => ht.kept (happ a t)

theorem forEach_cutShort {body : α → State → Run Unit} (xs : List α)
    (hb : ∀ x s, CutShort cut (body x s) (body x (s.capAt cut)))
    (happ : ∀ x {s t}, Appended s t → (body x t).Appends s) (s : State) :
    CutShort cut (forEach body xs s) (forEach body xs (s.capAt cut)) := by
  induction xs generalizing s with
  | nil => exact .inl rfl
  | cons x xs ih => exact (hb x s).andThen (fun _ t => ih t) fun _ t => forEach_ends xs (fun x _ => happ x) (.refl t)

theorem forAddr_lowered {body : Addr → State → Run Unit} (n : Nat) (a : Addr)
    (hb : ∀ a s, Lowered cut R (body a s) (body a (s.capAt cut)))
    (hR : ∀ a t v, R t v → (body a t).Ends (fun _ u => R u v) fun _ => True) (s : State) :
    Lowered cut R (forAddr body n a s) (forAddr body n a (s.capAt cut)) := by
  induction n generalizing a s with
  | zero => exact .inl rfl
  | succ n ih =>
    exact (hb a s).andThen (fun _ t => ih (a + 1) t) fun _ _ v hv => forAddr_ends n _ (fun a t ht => hR a t v ht) hv

theorem require_lowered {met : Bool} {word : Byte} {k : State → Run α}
    (hk : Lowered cut R (k s) (k (s.capAt cut))) :
    Lowered cut R (require met word s k) (require met word (s.capAt cut) k) := by
  cases met with
  | true => exact hk
  | false => trivial

/-! ### The units that write nothing do not depend on the capacity -/

theorem inByte_unaffected (a : Addr) (s : State) : Unaffected cut (inByte a s) (inByte a (s.capAt cut)) := by
  rcases inByte_cases a s with ⟨hlt, hr, e⟩ | ⟨-, -, e⟩ | ⟨-, -, e⟩ | ⟨-, -, e⟩ <;> rw [e]
  · exact .inl (inByte_of_lt (s := s.capAt cut) hlt hr)
  · trivial
  · trivial
  · trivial

theorem scanByte_unaffected (a : Addr) (s : State) : Unaffected cut (scanByte a s) (scanByte a (s.capAt cut)) :=
  (inByte_unaffected a s).andThen fun _ _ => .inl rfl

theorem fscanUnit_unaffected (s : State) : Unaffected cut (fscanUnit s) (fscanUnit (s.capAt cut)) :=
  Unaffected.andThen (forAddr_lowered _ 0 scanByte_unaffected (fun _ _ _ => False.elim) _) fun _ _ => .inl rfl

theorem addLeaf_capAt (s : State) (e : Byte × Count) : addLeaf (s.capAt cut) e = (addLeaf s e).capAt cut := by
  rw [addLeaf, addLeaf]
  split
  · rfl
  · rfl

theorem addLeaves_capAt (es : List (Byte × Count)) (s : State) :
    es.foldl addLeaf (s.capAt cut) = (es.foldl addLeaf s).capAt cut := by
  induction es generalizing s with
  | nil => rfl
  | cons e es ih => rw [List.foldl_cons, List.foldl_cons, addLeaf_capAt, ih]

theorem mergeAll_capAt (n : Nat) (s : State) : mergeAll n (s.capAt cut) = (mergeAll n s).capAt cut := by
  induction n generalizing s with
  | zero => rfl
  | succ n ih =>
    rw [mergeAll, mergeAll, State.capAt_list]
    split
    · next a b rest _ => exact ih (mergeTwo a b rest.reverse s)
    · rfl

theorem joinLeaves_capAt (s : State) : joinLeaves (s.capAt cut) = (joinLeaves s).capAt cut := by
  rcases hl : s.list with _ | ⟨i, _ | ⟨j, rest⟩⟩
  · rw [joinLeaves_of_nil hl, joinLeaves_of_nil (s := s.capAt cut) hl]
    rfl
  · rw [joinLeaves_of_single hl, joinLeaves_of_single (s := s.capAt cut) hl]
    rfl
  · have h2 : 2 ≤ s.list.length := by simp [hl]
    rw [joinLeaves_of_many h2, joinLeaves_of_many (s := s.capAt cut) h2, State.capAt_list, mergeAll_capAt]
    rfl

theorem tbuildUnit_unaffected (s : State) : Unaffected cut (tbuildUnit s) (tbuildUnit (s.capAt cut)) := by
  refine require_lowered (s := s.startUnit .treeBuilder) (.inl ?_)
  have hbuilt : joinLeaves (s.freq.entries.foldl addLeaf ((s.capAt cut).startUnit .treeBuilder).treeStart) =
      (joinLeaves (s.freq.entries.foldl addLeaf (s.startUnit .treeBuilder).treeStart)).capAt cut := by
    rw [← joinLeaves_capAt, ← addLeaves_capAt]
    rfl
  exact congrArg (fun t : State => Run.ok () (t.endUnit { t.valid with tree := true })) hbuilt

theorem walk_unaffected (fuel : Nat) (n : NodeIx) (path : Code) (s : State) :
    Unaffected cut (walk fuel n path s) (walk fuel n path (s.capAt cut)) := by
  induction fuel generalizing n path s with
  | zero => trivial
  | succ fuel ih =>
    rw [walk, walk, State.capAt_nodeAt]
    cases s.nodeAt n with
    | none => trivial
    | some nd =>
      dsimp only
      cases nd.kind with
      | leaf => exact .inl rfl
      | internal =>
        dsimp only
        refine Unaffected.andThen ?_ fun _ t => ?_
        · cases nd.left with
          | none => exact .inl rfl
          | some l => exact ih l _ s
        · cases nd.right with
          | none => exact .inl rfl
          | some r => exact ih r _ t

theorem walkTree_unaffected (s : State) : Unaffected cut (walkTree s) (walkTree (s.capAt cut)) := by
  rw [walkTree, walkTree, State.capAt_root]
  cases s.root with
  | none => exact .inl rfl
  | some r => exact walk_unaffected _ r [] s

theorem cderiveUnit_unaffected (s : State) : Unaffected cut (cderiveUnit s) (cderiveUnit (s.capAt cut)) :=
  require_lowered (s := s.startUnit .codeDeriver) <|
    (walkTree_unaffected (s.startUnit .codeDeriver).deriveStart).andThen fun _ _ => .inl rfl

/-! ### HUNPACK -/

theorem nextByte_unaffected (s : State) : Unaffected cut (nextByte s) (nextByte (s.capAt cut)) :=
  inByte_unaffected s.inPtr s

theorem innerStep_unaffected (cur : NodeIx) (nd : Node) (bit : Bool) (s : State) :
    Unaffected cut (innerStep cur nd bit s) (innerStep cur nd bit (s.capAt cut)) := by
  rw [innerStep, innerStep]
  cases nd.child bit with
  | none => exact .inl rfl
  | some ch =>
    dsimp only
    rw [State.capAt_nodeAt]
    cases s.nodeAt ch with
    | none => trivial
    | some n =>
      dsimp only
      cases n.kind with
      | leaf => trivial
      | internal => exact .inl rfl

theorem lastStep_unaffected (sym : Byte) (cur : NodeIx) (nd : Node) (bit : Bool) (s : State) :
    Unaffected cut (lastStep sym cur nd bit s) (lastStep sym cur nd bit (s.capAt cut)) := by
  rw [lastStep, lastStep]
  cases nd.child bit with
  | none => exact .inl rfl
  | some ch => trivial

theorem walkPath_unaffected (sym : Byte) (left : Nat) (cur : NodeIx) (s : State) :
    Unaffected cut (walkPath sym left cur s) (walkPath sym left cur (s.capAt cut)) := by
  induction left generalizing cur s with
  | zero => exact .inl rfl
  | succ left ih =>
    rw [walkPath, walkPath]
    refine (nextByte_unaffected s).andThen fun c t => ?_
    cases codeBit c with
    | none => trivial
    | some bit =>
      dsimp only
      rw [State.capAt_nodeAt]
      cases t.nodeAt cur with
      | none => trivial
      | some nd =>
        cases left with
        | zero => exact lastStep_unaffected sym cur nd bit t
        | succ left => exact (innerStep_unaffected cur nd bit t).andThen ih

theorem readEntry_unaffected (s : State) : Unaffected cut (readEntry s) (readEntry (s.capAt cut)) := by
  refine (nextByte_unaffected s).andThen fun sym t => (nextByte_unaffected t).andThen fun len u => ?_
  split
  · trivial
  · rw [State.capAt_root]
    cases u.root with
    | none => trivial
    | some root => exact walkPath_unaffected sym len.toNat root u

theorem readEntries_unaffected (n : Nat) (s : State) :
    Unaffected cut (readEntries n s) (readEntries n (s.capAt cut)) := by
  induction n generalizing s with
  | zero => exact .inl rfl
  | succ n ih => exact (readEntry_unaffected s).andThen fun _ t => ih { t with huCount := t.huCount - 1 }

theorem readPadding_unaffected (s : State) : Unaffected cut (readPadding s) (readPadding (s.capAt cut)) := by
  refine (nextByte_unaffected s).andThen fun pad t => ?_
  split
  · trivial
  · exact .inl rfl

theorem readHeader_unaffected (s : State) : Unaffected cut (readHeader s) (readHeader (s.capAt cut)) :=
  (nextByte_unaffected s).andThen fun n t =>
    (readEntries_unaffected _ (t.openHeader n)).andThen fun _ u => readPadding_unaffected u

theorem hunpackUnit_unaffected (s : State) : Unaffected cut (hunpackUnit s) (hunpackUnit (s.capAt cut)) := by
  by_cases h0 : s.inLen = 0
  · rw [hunpackUnit_of_empty h0, hunpackUnit_of_empty (s := s.capAt cut) h0]
    exact .inl rfl
  · rw [hunpackUnit_eq h0, hunpackUnit_eq (s := s.capAt cut) h0]
    exact (readHeader_unaffected (s.startUnit .headerUnpacker).unpackStart).andThen fun _ _ => .inl rfl

/-! ### The units that write are cut short -/

/-- The byte that reaches the cut is written, or the capped run faults on it (R77). -/
theorem emit_cutShort (b : Byte) (s : State) : CutShort cut (emit b s) (emit b (s.capAt cut)) := by
  rcases emit_cases b s with ⟨hroom, e⟩ | ⟨-, e⟩ <;> rw [e]
  · by_cases hfull : (s.capAt cut).params.outCap ≤ s.outLen
    · have hcut : cut.toNat ≤ s.outLen.toNat := BitVec.le_def.1 (le_of_outCap_capAt_le hroom hfull)
      refine .inr ⟨_, emit_of_full (s := s.capAt cut) b hfull, ?_, fun a ha => ?_⟩
      · exact BitVec.lt_def.2 (outLen_succ hroom ▸ Nat.lt_succ_of_le hcut)
      · exact (Memory.read_write_ne b s.outMem (by omega)).symm
    · exact .inl (emit_of_room (s := s.capAt cut) b (BitVec.not_le.1 hfull))
  · trivial

theorem hpackUnit_cutShort (s : State) : CutShort cut (hpackUnit s) (hpackUnit (s.capAt cut)) :=
  require_lowered (s := s.startUnit .headerPacker) <|
    (forEach_cutShort (headerBytes s.code s.padding) emit_cutShort (fun b _ _ => emit_appends b)
      (s.startUnit .headerPacker).packStart).andThen (fun _ _ => .inl rfl) fun _ t => (Appended.refl t).congr rfl rfl

/-! ### BPACK -/

theorem flushByte_cutShort (s : State) : CutShort cut (flushByte s) (flushByte (s.capAt cut)) :=
  (emit_cutShort s.pkAcc s).andThen (fun _ _ => .inl rfl) fun _ t => (Appended.refl t).congr rfl rfl

theorem packBit_cutShort (bit : Bool) (s : State) : CutShort cut (packBit bit s) (packBit bit (s.capAt cut)) := by
  by_cases hpos : s.pkPos = 0
  · rw [packBit_eq, packBit_eq, if_pos hpos, if_pos (show (s.capAt cut).pkPos = 0 from hpos)]
    exact flushByte_cutShort (s.placeBit bit)
  · rw [packBit_eq, packBit_eq, if_neg hpos, if_neg (show (s.capAt cut).pkPos ≠ 0 from hpos)]
    exact .inl rfl

theorem packByte_cutShort (a : Addr) (s : State) : CutShort cut (packByte a s) (packByte a (s.capAt cut)) := by
  refine (inByte_unaffected a s).andThen fun b t => ?_
  rw [State.capAt_code]
  cases t.code.get b with
  | nil => trivial
  | cons bit bits =>
    have hbits := forEach_cutShort (cut := cut) (bit :: bits) packBit_cutShort (fun x _ _ => packBit_appends x) t
    exact hbits.andThen (fun _ _ => .inl rfl) fun _ u => (Appended.refl u).congr rfl rfl

theorem flushPartial_cutShort (s : State) : CutShort cut (flushPartial s) (flushPartial (s.capAt cut)) := by
  rw [flushPartial, flushPartial]
  by_cases hpos : s.pkPos = 7
  · rw [if_pos hpos, if_pos (show (s.capAt cut).pkPos = 7 from hpos)]
    exact .inl rfl
  · rw [if_neg hpos, if_neg (show (s.capAt cut).pkPos ≠ 7 from hpos)]
    exact flushByte_cutShort s

theorem bpackUnit_cutShort (s : State) : CutShort cut (bpackUnit s) (bpackUnit (s.capAt cut)) := by
  refine require_lowered (s := s.startUnit .bitPacker) ?_
  have hloop := forAddr_lowered (cut := cut) s.inLen.toNat 0 packByte_cutShort
    (fun a t _ ht => ht.kept (packByte_appends a (.refl t))) (s.startUnit .bitPacker).streamStart
  refine CutShort.andThen hloop (fun _ t => ?_) fun _ t => ?_
  · exact (flushPartial_cutShort t).andThen (fun _ _ => .inl rfl) fun _ u => (Appended.refl u).congr rfl rfl
  · exact (flushPartial_appends (.refl t)).andThen fun _ _ hu => hu.congr rfl rfl

/-! ### BUNPACK -/

theorem emitSymbol_cutShort (sym : Byte) (s : State) :
    CutShort cut (emitSymbol sym s) (emitSymbol sym (s.capAt cut)) :=
  (emit_cutShort sym s).andThen (fun _ _ => .inl rfl) fun _ t => (Appended.refl t).congr rfl rfl

theorem stepTo_cutShort (next : NodeIx) (s : State) : CutShort cut (stepTo next s) (stepTo next (s.capAt cut)) := by
  rw [stepTo, stepTo, State.capAt_nodeAt]
  cases s.nodeAt next with
  | none => trivial
  | some n =>
    dsimp only
    cases n.kind with
    | leaf => exact emitSymbol_cutShort n.sym { s with upCur := some next }
    | internal => exact .inl rfl

theorem unpackBit_cutShort (a : Addr) (pos : Nat) (s : State) :
    CutShort cut (unpackBit a pos s) (unpackBit a pos (s.capAt cut)) := by
  rw [unpackBit_eq, unpackBit_eq, State.capAt_upCur, State.capAt_upByte]
  cases s.upCur with
  | none => trivial
  | some cur =>
    dsimp only [Option.elim]
    rw [State.capAt_nodeAt]
    cases s.nodeAt cur with
    | none => trivial
    | some nd =>
      dsimp only
      cases nd.child (s.upByte.getLsbD pos) with
      | none => trivial
      | some next => exact stepTo_cutShort next (s.atBit pos)

theorem unpackByte_cutShort (a : Addr) (s : State) : CutShort cut (unpackByte a s) (unpackByte a (s.capAt cut)) :=
  (inByte_unaffected a s).andThen fun b t =>
    forEach_cutShort _ (unpackBit_cutShort a) (fun pos _ _ => unpackBit_appends a pos) { t with upByte := b }

theorem unpackPayload_cutShort (root : NodeIx) (s : State) :
    CutShort cut (unpackPayload root s) (unpackPayload root (s.capAt cut)) := by
  by_cases h0 : s.payLen = 0
  · rw [unpackPayload_of_empty root h0]
    trivial
  · rw [unpackPayload_of_ne_empty root h0, unpackPayload_of_ne_empty (s := s.capAt cut) root h0]
    have hloop := forAddr_lowered (cut := cut) s.payLen.toNat s.hdrLen unpackByte_cutShort
      (fun a t _ ht => ht.kept (unpackByte_appends a (.refl t))) { s with upCur := some root }
    refine CutShort.andThen hloop (fun _ t => ?_) fun _ t => ?_
    · rw [State.capAt_upCur, State.capAt_root]
      split
      · exact .inl rfl
      · trivial
    · split
      · exact .refl t
      · trivial

theorem bunpackUnit_cutShort (s : State) : CutShort cut (bunpackUnit s) (bunpackUnit (s.capAt cut)) := by
  cases hv : s.valid.hdrr with
  | false =>
    rw [bunpackUnit, hv]
    trivial
  | true =>
    cases hroot : s.root with
    | none =>
      rw [bunpackUnit_of_noRoot hv hroot, bunpackUnit_of_noRoot (s := s.capAt cut) hv hroot]
      exact .inl rfl
    | some root =>
      rw [bunpackUnit_of_root hv hroot, bunpackUnit_of_root (s := s.capAt cut) hv hroot]
      exact (unpackPayload_cutShort root s.unpackingStart).andThen (fun _ _ => .inl rfl) fun _ t =>
        (Appended.refl t).congr rfl rfl

/-! ### The commands -/

theorem Unaffected.cutShort (h : Unaffected cut r r') : CutShort cut r r' :=
  Run.Ends.mono h (fun _ _ ht => ht.imp_right fun ⟨_, _, hf⟩ => hf.elim) fun _ => id

/-- Of the five units only HPACK and BPACK write, and BPACK appends to what HPACK has written (R262, R310). -/
theorem compressUnits_cutShort (s : State) : CutShort cut (compressUnits s) (compressUnits (s.capAt cut)) :=
  (fscanUnit_unaffected s).andThen fun _ t => (tbuildUnit_unaffected t).andThen fun _ u =>
    (cderiveUnit_unaffected u).andThen fun _ v =>
      (hpackUnit_cutShort v).andThen (fun _ => bpackUnit_cutShort) fun _ => bpackUnit_appends

theorem decompressUnits_cutShort (s : State) : CutShort cut (decompressUnits s) (decompressUnits (s.capAt cut)) :=
  (hunpackUnit_unaffected s).andThen fun _ => bunpackUnit_cutShort

/-- A command that ends without a fault, and the same command into a space of capacity `cut`: the same `OUT`, or the
bytes of it below `cut` (R77). -/
theorem accept_cutShort {unit : State → Run Unit} (hkeeps : Keeps (fun _ => True) unit)
    (hcut : ∀ s, CutShort cut (unit s) (unit (s.capAt cut))) (hst : t.status = none) (h : accept unit s = .next t)
    (h' : accept unit (s.capAt cut) = .next v) : v.outMem = t.outMem ∨ Truncated cut t v := by
  rcases accept_cases unit s with ⟨-, ha⟩ | ⟨-, ⟨c, hc⟩, ha⟩ | ⟨hb, hs, ha⟩ <;> rw [ha] at h
  · cases h
  · cases h
    rw [hc] at hst
    cases hst
  · have hends := hkeeps { s with busy := true } trivial
    have hrun := hcut { s with busy := true }
    have hfinish : (unit (({ s with busy := true } : State).capAt cut)).finish = .next v :=
      (accept_run unit (s := s.capAt cut) hb hs).symm.trans h'
    cases hr : unit { s with busy := true } <;> rw [hr] at h hends hrun <;> cases h
    · rcases hrun with e | ⟨w, e, hw⟩ <;> rw [e] at hfinish <;> cases hfinish
      · exact .inl rfl
      · exact .inr ⟨hw.beyond, hw.below⟩
    · exact absurd hst hends.status

theorem exec_cutShort {i : Instr} (hst : t.status = none) (h : exec i s = .next t)
    (h' : exec i (s.capAt cut) = .next v) : v.outMem = t.outMem ∨ Truncated cut t v := by
  cases i with
  | fscan => exact accept_cutShort unitsKeep_true.fscan (fun s => (fscanUnit_unaffected s).cutShort) hst h h'
  | tbuild => exact accept_cutShort unitsKeep_true.tbuild (fun s => (tbuildUnit_unaffected s).cutShort) hst h h'
  | cderive => exact accept_cutShort unitsKeep_true.cderive (fun s => (cderiveUnit_unaffected s).cutShort) hst h h'
  | hpack => exact accept_cutShort unitsKeep_true.hpack hpackUnit_cutShort hst h h'
  | hunpack => exact accept_cutShort unitsKeep_true.hunpack (fun s => (hunpackUnit_unaffected s).cutShort) hst h h'
  | bpack => exact accept_cutShort unitsKeep_true.bpack bpackUnit_cutShort hst h h'
  | bunpack => exact accept_cutShort unitsKeep_true.bunpack bunpackUnit_cutShort hst h h'
  | compress => exact accept_cutShort unitsKeep_true.compress compressUnits_cutShort hst h h'
  | decompress => exact accept_cutShort unitsKeep_true.decompress decompressUnits_cutShort hst h h'
  | clear =>
    obtain ⟨hb, -⟩ := exec_ends unitsKeep_true (fun _ => trivial) h
    rw [exec_clear hb] at h
    rw [exec_clear (s := s.capAt cut) hb] at h'
    cases h
    cases h'
    exact .inl rfl

/-- Settles O7: the run into a space of capacity `cut` writes the same bytes until the cursor reaches `cut`, and the
command, going on, writes none below it. -/
theorem resetDuringCommandLeavesResetState : Obligations.ResetDuringCommandLeavesResetState := by
  unfold Obligations.ResetDuringCommandLeavesResetState
  intro s rest w cut t hhost hstep
  rw [step_of_host hhost] at hstep
  obtain ⟨u, hu, rfl⟩ := resetDuring_eq_next hstep
  refine ⟨rfl, fun a ha => ?_, fun i r hd hr hst => ?_⟩
  · obtain ⟨-, hends⟩ := writeCmd_ends unitsKeep_true (fun _ => trivial) hu
    exact hends.above ((BitVec.le_def.1 outCap_capAt_le).trans ha)
  · rw [writeCmd_of_decode hd] at hu
    rcases exec_cutShort hst hr hu with hmem | htrunc
    · exact ⟨fun a _ _ => congrArg (Memory.read a) hmem, fun _ a => congrArg (Memory.read a) hmem⟩
    · exact ⟨fun a ha _ => htrunc.below a ha, fun hle => absurd htrunc.beyond (BitVec.not_lt.2 hle)⟩

end Sys2Proof.Machine
